-- ==== Sys2Proof/Word.lean ====
section
/-! DEFINITION. The fixed widths of the block: 00_scope.md rules R9 and R10, 30_encoding.md rule R90. -/

namespace Sys2Proof

/-- The host port's 64-bit data path (00_scope.md rule R10). -/
abbrev Data := BitVec 64

/-- A binary64 bit pattern, the sign in bit 63 (20_memory.md rule R81). -/
abbrev F64 := BitVec 64

/-- One entry of the ingress FIFO (00_scope.md rule R10). -/
abbrev FifoWord := BitVec 32

/-- A register index of the host port (00_scope.md rule R10). -/
abbrev RegIndex := BitVec 5

/-- A transaction as one number: `W` in bit 69, `A` in bits 68:64, `D` in bits 63:0
(30_encoding.md rule R90). -/
abbrev PortWord := BitVec 70

end Sys2Proof
end

