-- ==== Sys2Proof/Syntax.lean ====
section
/-! DEFINITION. The instructions: one constructor per row of spec/opcode_table.json. A constructor holds the
operands the row's rule lists, and the index where the row covers several. A read's `D` is ignored and
so is no operand (30_encoding.md rules R90 and R91). -/

namespace Sys2Proof

/-- A host transaction (00_scope.md rule R3, 20_memory.md rule R71). -/
inductive Instr
  /-- `RD CMD` (R221) -/
  | rdCmd
  /-- `RD STATUS` (R222) -/
  | rdStatus
  /-- `RD CONFIG` (R223) -/
  | rdConfig
  /-- `RD FIFO_DATA` (R224) -/
  | rdFifoData
  /-- `RD FIFO_COUNT` (R225) -/
  | rdFifoCount
  /-- `RD INTEG_ANGLE` (R231) -/
  | rdIntegAngle
  /-- `RD GYRO_X` (R232) -/
  | rdGyroX
  /-- `RD GYRO_Y` (R233) -/
  | rdGyroY
  /-- `RD GYRO_Z` (R234) -/
  | rdGyroZ
  /-- `RD ACCEL_X` (R235) -/
  | rdAccelX
  /-- `RD ACCEL_Y` (R236) -/
  | rdAccelY
  /-- `RD ACCEL_Z` (R237) -/
  | rdAccelZ
  /-- `RD ACC_ANGLE_X` (R238) -/
  | rdAccAngleX
  /-- `RD ACC_ANGLE_Y` (R239) -/
  | rdAccAngleY
  /-- `RD COMP_ANGLE_X` (R240) -/
  | rdCompAngleX
  /-- `RD COMP_ANGLE_Y` (R241) -/
  | rdCompAngleY
  /-- `WR STATUS, D` (R226) -/
  | wrStatus (d : Data)
  /-- `WR CONFIG, D` (R227) -/
  | wrConfig (d : Data)
  /-- `WR FIFO_DATA, D` (R228) -/
  | wrFifoData (d : Data)
  /-- command 0x0 (R130) -/
  | nop
  /-- command 0x1 (R131) -/
  | start
  /-- command 0x2 (R132) -/
  | reset
  /-- command 0x3 (R133) -/
  | step
  /-- command 0x4 (R134) -/
  | drain
  /-- a `CMD` write of any other command word (R137) -/
  | cmdIllegal (d : Data)
  /-- `RD RSV<A>` (R229) -/
  | rdRsv (a : RegIndex)
  /-- a write to an index that takes no write (R230) -/
  | wrIgn (a : RegIndex) (d : Data)
  deriving DecidableEq, Repr

end Sys2Proof
end

