-- ==== Sys2Proof/WellFormed.lean ====
section
/-! DEFINITION. Which instruction terms stand for a row of the opcode table. Only the three fallback rows
carry a condition: they are selected when no exact row matches (30_encoding.md rule R92). -/

namespace Sys2Proof

/-- The reserved indices 0x05 to 0x07 and 0x13 to 0x1F (30_encoding.md rule R95). -/
def reservedIndex (a : RegIndex) : Bool :=
  (5 ≤ a.toNat && a.toNat ≤ 7) || (0x13 ≤ a.toNat && a.toNat ≤ 0x1F)

/-- The indices of `WR.IGN`: any other than 0x00 to 0x03 (45_register_access.md rule R230). -/
def ignoresWrite (a : RegIndex) : Bool := 4 ≤ a.toNat

/-- The legal command words: `RSV = 0` and `OP` in 0x0 to 0x4 (30_encoding.md rules R96 to R98). -/
def legalCommand (d : Data) : Bool := d.toNat ≤ 4

/-- A fallback constructor holds only what its row selects. -/
def Instr.wf : Instr → Bool
  | .rdCmd => true
  | .rdStatus => true
  | .rdConfig => true
  | .rdFifoData => true
  | .rdFifoCount => true
  | .rdIntegAngle => true
  | .rdGyroX => true
  | .rdGyroY => true
  | .rdGyroZ => true
  | .rdAccelX => true
  | .rdAccelY => true
  | .rdAccelZ => true
  | .rdAccAngleX => true
  | .rdAccAngleY => true
  | .rdCompAngleX => true
  | .rdCompAngleY => true
  | .wrStatus _ => true
  | .wrConfig _ => true
  | .wrFifoData _ => true
  | .nop => true
  | .start => true
  | .reset => true
  | .step => true
  | .drain => true
  | .cmdIllegal d => !legalCommand d
  | .rdRsv a => reservedIndex a
  | .wrIgn a _ => ignoresWrite a

end Sys2Proof
end

