-- ==== Sys2Proof/Decode.lean ====
section
/-! DEFINITION. Decoding of port words, total (30_encoding.md rule R92), and the encoder and the opcode table
written from the same rules (R90, R91, R93, R96, R97 and spec/opcode_table.json). -/

namespace Sys2Proof

/-! ### Fields (rules R90 and R96) -/

/-- `W`, bit 69: 1 for a write. -/
def PortWord.w (pw : PortWord) : Bool := pw.getLsbD 69
/-- `A`, bits 68:64. -/
def PortWord.a (pw : PortWord) : RegIndex := pw.extractLsb' 64 5
/-- `D`, bits 63:0. -/
def PortWord.d (pw : PortWord) : Data := pw.extractLsb' 0 64

/-- `OP`, bits 3:0 of a command word. -/
def commandOp (d : Data) : BitVec 4 := d.extractLsb' 0 4
/-- `RSV`, bits 63:4 of a command word. -/
def commandRsv (d : Data) : BitVec 60 := d.extractLsb' 4 60

/-! ### The decoder -/

/-- `W = 0`: the exact RD rows, then the fallback RD.RSV (rules R91 to R93). -/
def decodeRead (a : RegIndex) : Instr :=
  match a.toNat with
  | 0x00 => .rdCmd
  | 0x01 => .rdStatus
  | 0x02 => .rdConfig
  | 0x03 => .rdFifoData
  | 0x04 => .rdFifoCount
  | 0x08 => .rdIntegAngle
  | 0x09 => .rdGyroX
  | 0x0A => .rdGyroY
  | 0x0B => .rdGyroZ
  | 0x0C => .rdAccelX
  | 0x0D => .rdAccelY
  | 0x0E => .rdAccelZ
  | 0x0F => .rdAccAngleX
  | 0x10 => .rdAccAngleY
  | 0x11 => .rdCompAngleX
  | 0x12 => .rdCompAngleY
  | _ => .rdRsv a

/-- `W = 1`, `A = 0`: the command rows, then the fallback CMD.ILLEGAL (rules R96 to R98). -/
def decodeCommand (d : Data) : Instr :=
  if commandRsv d = 0 then
    match (commandOp d).toNat with
    | 0x0 => .nop
    | 0x1 => .start
    | 0x2 => .reset
    | 0x3 => .step
    | 0x4 => .drain
    | _ => .cmdIllegal d
  else .cmdIllegal d

/-- `W = 1`: a command, the exact WR rows, then the fallback WR.IGN (rules R91 to R93). -/
def decodeWrite (a : RegIndex) (d : Data) : Instr :=
  match a.toNat with
  | 0x00 => decodeCommand d
  | 0x01 => .wrStatus d
  | 0x02 => .wrConfig d
  | 0x03 => .wrFifoData d
  | _ => .wrIgn a d

/-- Every port word decodes to exactly one row (rule R92). -/
def decode (pw : PortWord) : Instr :=
  if pw.w then decodeWrite pw.a pw.d else decodeRead pw.a

/-! ### Numbers that are no port word (log entry 18, DESIGN CHOICE) -/

/-- Why a number is no transaction. -/
inductive DecodeError
  /-- It needs more than the 70 bits of a port word (rule R90). Raised by `decodeNat`. Safe. -/
  | notAPortWord
  deriving DecidableEq, Repr

/-- The port word a number stands for, bit 0 its least significant bit. -/
def portWordOf (n : Nat) : Except DecodeError PortWord :=
  if n < 2 ^ 70 then .ok (BitVec.ofNat 70 n) else .error .notAPortWord

/-- The decoder on any number. -/
def decodeNat (n : Nat) : Except DecodeError Instr :=
  match portWordOf n with
  | .ok pw => .ok (decode pw)
  | .error e => .error e

/-- The decoder as the opcode table numbers bits: `w` holds the low `nbits` bits, every bit above is 0.
A port word is one word, so nothing is reordered. -/
def decodeTableWord (nbits w : Nat) : Option Instr :=
  match decodeNat (w % 2 ^ nbits) with
  | .ok i => some i
  | .error _ => none

/-! ### The encoder -/

/-- `W`, `A` and `D` as one number (rule R90). -/
def portWord (w : Bool) (a : RegIndex) (d : Data) : PortWord := BitVec.ofBool w ++ a ++ d

/-- A read: 95_test_vectors.md section 1 gives its port word with `D = 0` (log entry 19). -/
def encodeRead (a : RegIndex) : PortWord := portWord false a 0

/-- A command with `RSV = 0` (rule R96). -/
def encodeCommand (op : BitVec 4) : PortWord := portWord true 0 (op.setWidth 64)

/-- The port word of an instruction. -/
def encode : Instr → PortWord
  | .rdCmd => encodeRead 0x00
  | .rdStatus => encodeRead 0x01
  | .rdConfig => encodeRead 0x02
  | .rdFifoData => encodeRead 0x03
  | .rdFifoCount => encodeRead 0x04
  | .rdIntegAngle => encodeRead 0x08
  | .rdGyroX => encodeRead 0x09
  | .rdGyroY => encodeRead 0x0A
  | .rdGyroZ => encodeRead 0x0B
  | .rdAccelX => encodeRead 0x0C
  | .rdAccelY => encodeRead 0x0D
  | .rdAccelZ => encodeRead 0x0E
  | .rdAccAngleX => encodeRead 0x0F
  | .rdAccAngleY => encodeRead 0x10
  | .rdCompAngleX => encodeRead 0x11
  | .rdCompAngleY => encodeRead 0x12
  | .wrStatus d => portWord true 0x01 d
  | .wrConfig d => portWord true 0x02 d
  | .wrFifoData d => portWord true 0x03 d
  | .nop => encodeCommand 0x0
  | .start => encodeCommand 0x1
  | .reset => encodeCommand 0x2
  | .step => encodeCommand 0x3
  | .drain => encodeCommand 0x4
  | .cmdIllegal d => portWord true 0x00 d
  | .rdRsv a => encodeRead a
  | .wrIgn a d => portWord true a d

/-! ### The opcode table as data (spec/opcode_table.json) -/

/-- One row: a port word selects it when `(PW & mask) = match` (rule R90). -/
structure OpcodeRow where
  mnemonic  : String
  matchBits : PortWord
  mask      : PortWord
  deriving DecidableEq, Repr

/-- `(PW & mask) = match`. -/
def OpcodeRow.matches (r : OpcodeRow) (pw : PortWord) : Bool := pw &&& r.mask == r.matchBits

/-- How many bits of the mask are set (rule R92). -/
def OpcodeRow.maskBits (r : OpcodeRow) : Nat :=
  (List.range 70).countP r.mask.getLsbD

/-- A row fixed by `W` and `A`. -/
def indexRow (mnemonic : String) (w : Bool) (a : RegIndex) : OpcodeRow :=
  ⟨mnemonic, portWord w a 0, 0x3F0000000000000000⟩

/-- A row fixed by all 70 bits. -/
def commandRow (mnemonic : String) (op : BitVec 4) : OpcodeRow :=
  ⟨mnemonic, encodeCommand op, 0x3FFFFFFFFFFFFFFFFF⟩

/-- A row fixed by `W` alone. -/
def directionRow (mnemonic : String) (w : Bool) : OpcodeRow :=
  ⟨mnemonic, portWord w 0 0, 0x200000000000000000⟩

/-- The row an instruction stands for. -/
def rowOf : Instr → OpcodeRow
  | .rdCmd => indexRow "RD.CMD" false 0x00
  | .rdStatus => indexRow "RD.STATUS" false 0x01
  | .rdConfig => indexRow "RD.CONFIG" false 0x02
  | .rdFifoData => indexRow "RD.FIFO_DATA" false 0x03
  | .rdFifoCount => indexRow "RD.FIFO_COUNT" false 0x04
  | .rdIntegAngle => indexRow "RD.INTEG_ANGLE" false 0x08
  | .rdGyroX => indexRow "RD.GYRO_X" false 0x09
  | .rdGyroY => indexRow "RD.GYRO_Y" false 0x0A
  | .rdGyroZ => indexRow "RD.GYRO_Z" false 0x0B
  | .rdAccelX => indexRow "RD.ACCEL_X" false 0x0C
  | .rdAccelY => indexRow "RD.ACCEL_Y" false 0x0D
  | .rdAccelZ => indexRow "RD.ACCEL_Z" false 0x0E
  | .rdAccAngleX => indexRow "RD.ACC_ANGLE_X" false 0x0F
  | .rdAccAngleY => indexRow "RD.ACC_ANGLE_Y" false 0x10
  | .rdCompAngleX => indexRow "RD.COMP_ANGLE_X" false 0x11
  | .rdCompAngleY => indexRow "RD.COMP_ANGLE_Y" false 0x12
  | .wrStatus _ => indexRow "WR.STATUS" true 0x01
  | .wrConfig _ => indexRow "WR.CONFIG" true 0x02
  | .wrFifoData _ => indexRow "WR.FIFO_DATA" true 0x03
  | .nop => commandRow "NOP" 0x0
  | .start => commandRow "START" 0x1
  | .reset => commandRow "RESET" 0x2
  | .step => commandRow "STEP" 0x3
  | .drain => commandRow "DRAIN" 0x4
  | .cmdIllegal _ => indexRow "CMD.ILLEGAL" true 0x00
  | .rdRsv _ => directionRow "RD.RSV" false
  | .wrIgn _ _ => directionRow "WR.IGN" true

/-- One instruction for each row, in the table's order. -/
def rowRepresentatives : List Instr :=
  [.rdCmd, .rdStatus, .rdConfig, .rdFifoData, .rdFifoCount, .rdIntegAngle, .rdGyroX, .rdGyroY,
    .rdGyroZ, .rdAccelX, .rdAccelY, .rdAccelZ, .rdAccAngleX, .rdAccAngleY, .rdCompAngleX,
    .rdCompAngleY] ++
  [.wrStatus 0, .wrConfig 0, .wrFifoData 0, .nop, .start, .reset, .step, .drain, .cmdIllegal 5,
    .rdRsv 5, .wrIgn 4 0]

/-- The 27 rows of spec/opcode_table.json. -/
def opcodeTable : List OpcodeRow := rowRepresentatives.map rowOf

end Sys2Proof
end

