-- ==== Sys2Proof/Config.lean ====
section
/-! DEFINITION. What an implementation fixes: the constants of 00_scope.md rule R7, the parameters of
rule R8 as one record, and the values no source gives, as constants with no body. -/

namespace Sys2Proof

/-- The operations whose invalid cases give a NaN (00_scope.md rule R14). -/
inductive FOp
  | add | sub | mul | div | sqrt
  deriving DecidableEq, Repr

/-- The parameters a model takes as arguments (00_scope.md rule R8). Configuration, not state
(10_state.md rules R30 and R47). -/
structure Params where
  tau          : F64
  deltaAngleSf : F64
  refRate      : F64
  gravity      : F64
  deg2rad      : F64
  rad2deg      : F64
  atan2        : F64 → F64 → F64
  fifoDepth    : Nat

namespace Config

/-! ### Constants DOC0 states (rule R7) -/

/-- `FRAME_LEN`: words per frame. -/
def frameLen : Nat := 19
/-- `GYRO_DIV` = 10.0. -/
def gyroDiv : F64 := 0x4024000000000000
/-- `ACCEL_DIV` = 800.0. -/
def accelDiv : F64 := 0x4089000000000000
/-- `US_PER_S` = 1e6. -/
def usPerS : F64 := 0x412E848000000000
/-- `PI`. -/
def pi : F64 := 0x400921FB54442D18
/-- `TWO_PI`, exactly 2 × `PI`. -/
def twoPi : F64 := 0x401921FB54442D18
/-- `PI / 2.0` (rule R21). -/
def halfPi : F64 := 0x3FF921FB54442D18

/-! ### Defaults of rule R8 (log entry 8) -/

/-- The default of `GRAVITY`, 9.80665. -/
def gravityDefault : F64 := 0x40239D013A92A305
/-- The default of `DEG2RAD`, `PI / 180.0` rounded. -/
def deg2radDefault : F64 := 0x3F91DF46A2529D39
/-- The default of `RAD2DEG`, `180.0 / PI` rounded. -/
def rad2degDefault : F64 := 0x404CA5DC1A63C1F8

/-! ### The parameters of the machine: uninterpreted (log entries 6, 7, 8 and 9)

Rule R8 has a model take them as arguments. Sys2Proof/Machine/Params.lean keeps each inside its constraint. -/

/-- `TAU`, no value in any source (decision D17). -/
opaque tauRaw : F64
/-- `DELTA_ANGLE_SF`, no value in any source (decision D16). -/
opaque deltaAngleSfRaw : F64
/-- `REF_RATE`, no value in any source (decision D16). -/
opaque refRateRaw : F64
/-- `GRAVITY`: a default, and any value of its constraint (decision D15). -/
opaque gravityRaw : F64
/-- `DEG2RAD`: a default, and any value of its constraint (decision D14). -/
opaque deg2radRaw : F64
/-- `RAD2DEG`: a default, and any value of its constraint (decision D14). -/
opaque rad2degRaw : F64
/-- `ATAN2`, no accuracy in any source (decision D13). -/
opaque atan2Raw : F64 → F64 → F64
/-- How far `FIFO_DEPTH` exceeds one frame (decision D7: `FIFO_DEPTH >= 19`). -/
opaque fifoExtra : Nat

/-! ### Free values -/

/-- The sign bit and the 51 payload bits of the quiet NaN an operation gives on its operands: IEEE 754,
which rule R14 names, fixes neither (log entry 10). -/
opaque nanBits : FOp → F64 → F64 → BitVec 52

end Config
end Sys2Proof
end

