-- ==== Sys2Proof/Machine/Float.lean ====
section
/-! DEFINITION. IEEE 754 binary64 arithmetic (00_scope.md rules R14, R15 and R20), computed exactly on integers
and rounded once. A finite value is an integer multiple of `2^-1074`, its unit. -/

namespace Sys2Proof.Machine

/-! ### The bit pattern -/

/-- The sign, bit 63. -/
def fsign (x : F64) : Bool := x.getLsbD 63
/-- The pattern below the sign: as a number it orders magnitudes. -/
def fmag (x : F64) : Nat := x.toNat % 2 ^ 63
/-- A sign and a magnitude pattern. -/
def fpack (s : Bool) (m : Nat) : F64 := BitVec.ofNat 64 ((if s then 2 ^ 63 else 0) + m)

/-- The magnitude pattern of infinity. -/
def infMag : Nat := 0x7FF0000000000000

def isNaN (x : F64) : Bool := infMag < fmag x
def isInf (x : F64) : Bool := fmag x == infMag
def isFinite (x : F64) : Bool := fmag x < infMag
def isZero (x : F64) : Bool := fmag x == 0

/-- The quiet NaN an invalid operation gives: its sign and payload are free (log entry 10). -/
def nanOf (op : FOp) (a b : F64) : F64 :=
  (Config.nanBits op a b).extractLsb' 51 1 ++ (0xFFF : BitVec 12) ++
    (Config.nanBits op a b).extractLsb' 0 51

/-! ### Values -/

/-- The value `2^1074`, the number of units in 1. -/
def oneUnits : Nat := 2 ^ 1074

/-- The units of a magnitude pattern: subnormal patterns are their own units. Infinity gets the power
of two above every finite value, so comparisons need no case for it. -/
def units (m : Nat) : Nat :=
  if m < 2 ^ 52 then m else (2 ^ 52 + m % 2 ^ 52) * 2 ^ (m / 2 ^ 52 - 1)

/-- The signed value in units. Both zeros have value 0. -/
def fval (x : F64) : Int := if fsign x then -(units (fmag x) : Int) else (units (fmag x) : Int)

/-! ### Rounding -/

/-- `n / d` to the nearest integer, ties to even. -/
def roundQuot (n d : Nat) : Nat :=
  if 2 * (n % d) < d then n / d
  else if d < 2 * (n % d) then n / d + 1
  else n / d + n / d % 2

/-- The magnitude pattern nearest to `n / d` units, ties to even (rule R14). The quotient is scaled to 53
significant bits; a carry out of the significand moves to the next exponent by itself; past the largest
finite pattern it is infinity. -/
def roundMag (n d : Nat) : Nat :=
  min (((n / d).log2 - 52) * 2 ^ 52 + roundQuot n (d * 2 ^ ((n / d).log2 - 52))) infMag

/-! ### Comparisons: false on a NaN, and `-0.0` equals `+0.0` (rule R14) -/

def flt (a b : F64) : Bool := !isNaN a && !isNaN b && decide (fval a < fval b)
def fle (a b : F64) : Bool := !isNaN a && !isNaN b && decide (fval a ≤ fval b)
def fgt (a b : F64) : Bool := flt b a
def fge (a b : F64) : Bool := fle b a

/-! ### Operations -/

/-- Unary minus flips the sign bit only (rule R15). -/
def fneg (x : F64) : F64 := fpack (!fsign x) (fmag x)

/-- The magnitude. -/
def fabs (x : F64) : F64 := fpack false (fmag x)

/-- Sum of two finite values. An exact zero is `-0.0` only when both operands are negative. -/
def faddFinite (a b : F64) : F64 :=
  if fval a + fval b = 0 then fpack (fsign a && fsign b) 0
  else fpack (decide (fval a + fval b < 0)) (roundMag (fval a + fval b).natAbs 1)

/-- Sum of two operands that are no NaN, `op` naming the operation for its NaN. -/
def faddWith (op : FOp) (a b b' : F64) : F64 :=
  if isInf a then
    if isInf b' && (fsign a != fsign b') then nanOf op a b else a
  else if isInf b' then b'
  else faddFinite a b'

/-- `a + b` -/
def fadd (a b : F64) : F64 :=
  if isNaN a || isNaN b then nanOf .add a b else faddWith .add a b b

/-- `a - b`, which IEEE 754 makes `a + (-b)`. -/
def fsub (a b : F64) : F64 :=
  if isNaN a || isNaN b then nanOf .sub a b else faddWith .sub a b (fneg b)

/-- `a * b` -/
def fmul (a b : F64) : F64 :=
  if isNaN a || isNaN b || (isInf a && isZero b) || (isZero a && isInf b) then nanOf .mul a b
  else if isInf a || isInf b then fpack (fsign a != fsign b) infMag
  else fpack (fsign a != fsign b) (roundMag (units (fmag a) * units (fmag b)) oneUnits)

/-- `a / b` -/
def fdiv (a b : F64) : F64 :=
  if isNaN a || isNaN b || (isInf a && isInf b) || (isZero a && isZero b) then nanOf .div a b
  else if isInf a || isZero b then fpack (fsign a != fsign b) infMag
  else if isInf b then fpack (fsign a != fsign b) 0
  else fpack (fsign a != fsign b) (roundMag (units (fmag a) * oneUnits) (units (fmag b)))

/-- The bits of the integer square root, from bit `k - 1` down. -/
def isqrtGo (n : Nat) : Nat → Nat → Nat
  | 0, r => r
  | k + 1, r => if (r + 2 ^ k) * (r + 2 ^ k) ≤ n then isqrtGo n k (r + 2 ^ k) else isqrtGo n k r

/-- The integer square root. -/
def isqrt (n : Nat) : Nat := isqrtGo n (n.log2 / 2 + 1) 0

/-- The magnitude pattern nearest to the square root of `u` units. The integer root has at least 537 bits,
so one more bit, set when the root is inexact, decides the rounding. -/
def sqrtMag (u : Nat) : Nat :=
  roundMag (2 * isqrt (u * oneUnits) + if isqrt (u * oneUnits) * isqrt (u * oneUnits) = u * oneUnits then 0 else 1) 2

/-- `fsqrt(x)`, correctly rounded (rule R14). `fsqrt(-0.0)` is `-0.0`. -/
def fsqrt (x : F64) : F64 :=
  if isNaN x then nanOf .sqrt x x
  else if isZero x then x
  else if fsign x then nanOf .sqrt x x
  else if isInf x then x
  else fpack false (sqrtMag (units (fmag x)))

/-- `i2f(n)`: an integer as binary64, exact up to 53 bits (rule R14). Zero is `+0.0`. -/
def i2f (n : Int) : F64 := fpack (decide (n < 0)) (roundMag (n.natAbs * oneUnits) 1)

end Sys2Proof.Machine
end

