-- ==== Sys2Proof/Machine/Params.lean ====
section
/-! DEFINITION. The constraints of 00_scope.md rule R8 on the parameters, the properties of `ATAN2` of rule R21,
and the parameters the machine runs with, which meet them whatever the uninterpreted constants are. -/

namespace Sys2Proof.Machine

open Sys2Proof.Config

/-! ### The constraints of rule R8 -/

/-- `TAU`: finite and > 0. -/
def tauLegal (x : F64) : Bool := isFinite x && flt 0 x
/-- `DELTA_ANGLE_SF`: finite, magnitude at most `2^64`. -/
def deltaAngleSfLegal (x : F64) : Bool := isFinite x && fle (fabs x) 0x43F0000000000000
/-- `REF_RATE`: from `2^-64` to `2^64`. -/
def refRateLegal (x : F64) : Bool := fle 0x3BF0000000000000 x && fle x 0x43F0000000000000
/-- `GRAVITY`: from `2^-100` to `2^100`. -/
def gravityLegal (x : F64) : Bool := fle 0x39B0000000000000 x && fle x 0x4630000000000000
/-- `DEG2RAD`: above 0, at most `2^-5`. -/
def deg2radLegal (x : F64) : Bool := flt 0 x && fle x 0x3FA0000000000000
/-- `RAD2DEG`: from `2^-100` to `2^100`. -/
def rad2degLegal (x : F64) : Bool := fle 0x39B0000000000000 x && fle x 0x4630000000000000
/-- `FIFO_DEPTH`: at least one frame. -/
def fifoDepthLegal (n : Nat) : Bool := frameLen ≤ n

/-! ### `ATAN2` (rule R21) -/

/-- `ATAN2(±0.0, x) = ±0.0` for `x > 0` or `x = +0.0`. -/
def atan2ZeroCase (y x : F64) : Bool := isZero y && (flt 0 x || x == 0)
/-- `ATAN2(y, +0.0) = PI / 2.0` for `y > 0`. -/
def atan2UpCase (y x : F64) : Bool := x == 0 && flt 0 y

/-- `r` is a value rule R21 allows for `ATAN2(y, x)`: finite, in `[-PI, PI]`, the special values, and in the
half-plane `x >= 0` the sign of `y` and the range `[-PI/2, PI/2]`. -/
def atan2Allows (y x r : F64) : Bool :=
  isFinite r && fle (fneg pi) r && fle r pi
    && (!atan2ZeroCase y x || r == y)
    && (!atan2UpCase y x || r == halfPi)
    && (!fge x 0 || (flt r 0 == flt y 0 && fle (fneg halfPi) r && fle r halfPi))

/-- `ATAN2` from an uninterpreted function: the special values of rule R21 where it states them; elsewhere
the uninterpreted value where rule R21 allows it, and an allowed value where it does not. Every function
that meets rule R21 is its own shape, so a claim about all of these is a claim about all of those
(log entry 9). Rule R21 says nothing of operands that are not finite: the value is free there. -/
def shapeAtan2 (raw : F64 → F64 → F64) (y x : F64) : F64 :=
  if !(isFinite y && isFinite x) then raw y x
  else if atan2ZeroCase y x then y
  else if atan2UpCase y x then halfPi
  else if atan2Allows y x (raw y x) then raw y x
  else if fge x 0 && flt y 0 then fneg halfPi
  else 0

/-! ### Parameters that meet their constraints -/

/-- The whole of rule R8's constraint column: "A model built with a parameter outside its constraint is
refused as a whole". -/
def legalParams (p : Params) : Prop :=
  tauLegal p.tau ∧ deltaAngleSfLegal p.deltaAngleSf ∧ refRateLegal p.refRate ∧
  gravityLegal p.gravity ∧ deg2radLegal p.deg2rad ∧ rad2degLegal p.rad2deg ∧
  fifoDepthLegal p.fifoDepth ∧
  ∀ y x, isFinite y → isFinite x → atan2Allows y x (p.atan2 y x)

/-- An uninterpreted value inside its constraint: a value outside it stands for no block (rule R8), and is
replaced by one inside. -/
def legalOr (ok : F64 → Bool) (raw inside : F64) : F64 := if ok raw then raw else inside

/-- The parameters of the machine, every one uninterpreted inside its constraint: each legal record of rule R8 is
that of some machine (log entries 6 to 9). The three with a default have it where the uninterpreted value stands
for no block. -/
def machineParams : Params where
  tau          := legalOr tauLegal tauRaw 0x3FF0000000000000
  deltaAngleSf := legalOr deltaAngleSfLegal deltaAngleSfRaw 0x3EF0000000000000
  refRate      := legalOr refRateLegal refRateRaw 0x409F400000000000
  gravity      := legalOr gravityLegal gravityRaw gravityDefault
  deg2rad      := legalOr deg2radLegal deg2radRaw deg2radDefault
  rad2deg      := legalOr rad2degLegal rad2degRaw rad2degDefault
  atan2        := shapeAtan2 atan2Raw
  fifoDepth    := fifoExtra + frameLen

end Sys2Proof.Machine
end

