-- ==== Sys2Proof/Machine/AngleIntegrator.lean ====
section
/-! DEFINITION. angle_integrator: delta-angle compensation and accumulation (42_angle_integrator.md). -/

namespace Sys2Proof.Machine

/-- `ScaleDelta(raw, ticks)`, degrees: the nested ratio, in exactly this order (rule R180). With
`ticks = 0` the inner division gives `+infinity` and the outer one a signed zero (rule R181). -/
def scaleDelta (p : Params) (raw : Int) (ticks : BitVec 32) : F64 :=
  fdiv (fmul (i2f raw) p.deltaAngleSf) (fdiv p.refRate (i2f ticks.toNat))

/-- `Integrate(integ, scaled, first)`: a first frame does not integrate (rule R182). -/
def integrate (integ scaled : F64) (first : Bool) : F64 := if first then 0 else fadd integ scaled

end Sys2Proof.Machine
end

