-- ==== Sys2Proof/Machine/State.lean ====
section
/-! DEFINITION. The state of the block (10_state.md rule R30), the host's side of its port, and the reasons a
step can stop. -/

namespace Sys2Proof.Machine

/-- The legal values of `CONFIG.YAW_AXIS` (10_state.md rule R40). The codes are in
Sys2Proof/Machine/Operands.lean. -/
inductive YawAxis
  | x | y | z
  deriving DecidableEq, Repr

/-- The block's state: the tuple of 10_state.md rule R30. "Nothing else is state." -/
structure Block where
  /-- The ingress FIFO, its head first (rule R37). -/
  fifo       : List FifoWord
  /-- `S.first` (rule R33). -/
  first      : Bool
  /-- `S.prevTs` (rule R34). -/
  prevTs     : BitVec 32
  /-- `S.compX`, radians (rule R35). -/
  compX      : F64
  /-- `S.compY`, radians (rule R35). -/
  compY      : F64
  /-- `S.valid` (rule R36). -/
  valid      : Bool
  /-- `STATUS.ILLEGAL` (rule R39). -/
  illegal    : Bool
  /-- `STATUS.OVF` (rule R39). -/
  ovf        : Bool
  /-- `CONFIG.YAW_AXIS` (rules R40 and R41). -/
  yawAxis    : YawAxis
  /-- `INTEG_ANGLE`, degrees (rule R45). -/
  integAngle : F64
  gyroX      : F64
  gyroY      : F64
  gyroZ      : F64
  accelX     : F64
  accelY     : F64
  accelZ     : F64
  accAngleX  : F64
  accAngleY  : F64
  compAngleX : F64
  compAngleY : F64
  deriving DecidableEq, Repr

/-- The host's side of the port (20_memory.md rules R71 and R72): the model's own fields, not block
state (log entries 1 and 2, DESIGN CHOICE). -/
structure Port where
  /-- The transactions the host has issued and the block has not yet taken, oldest first. -/
  pending  : List PortWord
  /-- The value the last transaction returned; a write returns none. -/
  response : Option Data
  deriving DecidableEq, Repr

/-- The whole machine: plain data. -/
structure State where
  block : Block
  port  : Port
  deriving DecidableEq, Repr

/-- The model faults of 60_exceptions.md rule R265: "There are three kinds, and nothing else raises one". -/
inductive Fault
  /-- A read of `GYRO_X` to `COMP_ANGLE_Y` while `S.valid = 0`. Raised by the ten meanings
  `execRdGyroX` to `execRdCompAngleY` through `readOutput`. Safe: hardware returns an unspecified
  value and goes on (log entry 5). -/
  | unwrittenRead
  /-- `FifoPop()` on an empty FIFO. Raised by `fifoPop`. Safe: every pop is guarded, so it cannot
  happen (20_memory.md rule R76, log entry 16). -/
  | emptyPop
  /-- `FormatRange0to2PI(x)` with `x` not finite or `abs(x) >= 2^53`. Raised by `formatRange0to2PI`.
  Safe: hardware behaviour is not specified there (43_complementary_filter.md rule R203). -/
  | normOutOfDomain
  deriving DecidableEq, Repr

/-- Why an instruction has no meaning. -/
inductive Refusal
  /-- An instruction rejected by name in `exec`'s arm. No arm raises it: every instruction has its
  meaning. Safe. -/
  | notModelled (mnemonic : String)
  deriving DecidableEq, Repr

/-- Power-on (10_state.md rule R48). The values of `compX`, `compY` and of the ten outputs after
`integAngle` are the model's (log entries 3 and 4, DESIGN CHOICE, unsafe): the rule leaves them
unspecified. -/
def Block.powerOn : Block where
  fifo       := []
  first      := true
  prevTs     := 0
  compX      := 0
  compY      := 0
  valid      := false
  illegal    := false
  ovf        := false
  yawAxis    := .z
  integAngle := 0
  gyroX      := 0
  gyroY      := 0
  gyroZ      := 0
  accelX     := 0
  accelY     := 0
  accelZ     := 0
  accAngleX  := 0
  accAngleY  := 0
  compAngleX := 0
  compAngleY := 0

/-- The machine right after power-on, the only hardware reset (70_reset_and_hazards.md rule R280); no
transaction has been issued yet (log entry 1). -/
def State.reset : State where
  block := Block.powerOn
  port  := { pending := [], response := none }

end Sys2Proof.Machine
end

