-- ==== Sys2Proof/Machine/Operands.lean ====
section
/-! DEFINITION. The operand forms: the bits of `D` each write uses (30_encoding.md rule R94), the codes of
`YAW_AXIS` (10_state.md rule R40) and the byte slots of a frame (20_memory.md rules R79 and R80). -/

namespace Sys2Proof.Machine

/-! ### Write data (rule R94) -/

/-- `FIFO_DATA` uses `D[31:0]`. -/
def fifoOperand (d : Data) : FifoWord := d.extractLsb' 0 32
/-- `CONFIG` uses `D[1:0]`. -/
def configOperand (d : Data) : BitVec 2 := d.extractLsb' 0 2
/-- `STATUS` uses `D[2]`, which clears `ILLEGAL`. -/
def clearsIllegal (d : Data) : Bool := d.getLsbD 2
/-- `STATUS` uses `D[3]`, which clears `OVF`. -/
def clearsOvf (d : Data) : Bool := d.getLsbD 3

/-! ### `YAW_AXIS` (rule R40): 0 = X, 1 = Y, 2 = Z -/

/-- The code a read returns. -/
def yawCode : YawAxis → BitVec 2
  | .x => 0
  | .y => 1
  | .z => 2

/-- The axis after a write of a code: a write of 3 leaves the field unchanged. -/
def yawWrite (code : BitVec 2) (old : YawAxis) : YawAxis :=
  match code.toNat with
  | 0 => .x
  | 1 => .y
  | 2 => .z
  | _ => old

/-! ### Frame fields -/

/-- The 19 words of a frame, `w[0]` the first popped (30_encoding.md rule R100). -/
abbrev FrameWords := Vector FifoWord 19

/-- A byte slot carries its byte in bits 7:0 (rule R80). -/
def slotByte (w : FifoWord) : BitVec 8 := w.extractLsb' 0 8

/-- A signed 16-bit field over two byte slots, the first the more significant (rule R79). -/
def sint16 (b1 b0 : FifoWord) : Int := (slotByte b1 ++ slotByte b0).toInt

/-- A signed 32-bit field over four byte slots, the first the most significant (rule R79). -/
def sint32 (b3 b2 b1 b0 : FifoWord) : Int :=
  (slotByte b3 ++ slotByte b2 ++ slotByte b1 ++ slotByte b0).toInt

end Sys2Proof.Machine
end

