-- ==== Sys2Proof/Machine/SensorScaler.lean ====
section
/-! DEFINITION. sensor_scaler: frame decode and scaling (41_sensor_scaler.md). Every function is pure
(00_scope.md rule R18). -/

namespace Sys2Proof.Machine

open Sys2Proof.Config

/-- One value for each of the axes X, Y and Z. -/
structure Vec3 where
  x : F64
  y : F64
  z : F64
  deriving DecidableEq, Repr

/-- A decoded frame (30_encoding.md rule R101): the raw samples as integers. -/
structure DecodedFrame where
  timestamp     : BitVec 32
  deltaAngleRaw : Int
  gx : Int
  gy : Int
  gz : Int
  ax : Int
  ay : Int
  az : Int
  deriving DecidableEq, Repr

/-- `DecodeFrame(w[0..18])` (rules R101 and R151): words 1 and 2 and the upper bits of the byte slots are
never read. -/
def decodeFrame (w : FrameWords) : DecodedFrame where
  timestamp     := w[0]
  deltaAngleRaw := sint32 w[3] w[4] w[5] w[6]
  gx := sint16 w[7] w[8]
  gy := sint16 w[9] w[10]
  gz := sint16 w[11] w[12]
  ax := sint16 w[13] w[14]
  ay := sint16 w[15] w[16]
  az := sint16 w[17] w[18]

/-- `ScaleGyro(g) = i2f(g) / GYRO_DIV`, deg/s (rule R152). -/
def scaleGyro (g : Int) : F64 := fdiv (i2f g) gyroDiv

/-- `ScaleAccel(a) = i2f(a) / ACCEL_DIV`, g (rule R153). -/
def scaleAccel (a : Int) : F64 := fdiv (i2f a) accelDiv

/-- `GyroSI(gd) = gd * DEG2RAD`, rad/s (rule R154). -/
def gyroSI (p : Params) (gd : F64) : F64 := fmul gd p.deg2rad

/-- `AccelSI(ag) = ag * GRAVITY`, m/s² (rule R155). -/
def accelSI (p : Params) (ag : F64) : F64 := fmul ag p.gravity

/-- `DeltaTicks(ts, prev) = wrap32(ts - prev)` (rule R156). -/
def deltaTicks (ts prev : BitVec 32) : BitVec 32 := ts - prev

/-- `Dt(ticks) = i2f(ticks) / US_PER_S`, seconds (rule R157). -/
def dtOf (ticks : BitVec 32) : F64 := fdiv (i2f ticks.toNat) usPerS

/-- What `ScaleFrame` returns (rule R158): reporting values, filter inputs, ticks and time step. -/
structure ScaledFrame where
  gd    : Vec3
  ag    : Vec3
  gs    : Vec3
  accSI : Vec3
  ticks : BitVec 32
  dt    : F64
  deriving DecidableEq, Repr

/-- The reporting gyro values `gd`, deg/s. -/
def gyroDeg (f : DecodedFrame) : Vec3 := ⟨scaleGyro f.gx, scaleGyro f.gy, scaleGyro f.gz⟩

/-- The reporting accelerometer values `ag`, g. -/
def accelG (f : DecodedFrame) : Vec3 := ⟨scaleAccel f.ax, scaleAccel f.ay, scaleAccel f.az⟩

/-- The filter's gyro input, rad/s, from the reporting values. -/
def gyroSIVec (p : Params) (gd : Vec3) : Vec3 := ⟨gyroSI p gd.x, gyroSI p gd.y, gyroSI p gd.z⟩

/-- The filter's accelerometer input, m/s², from the reporting values. -/
def accelSIVec (p : Params) (ag : Vec3) : Vec3 := ⟨accelSI p ag.x, accelSI p ag.y, accelSI p ag.z⟩

/-- `ScaleFrame(f, prev)` (rule R158). -/
def scaleFrame (p : Params) (f : DecodedFrame) (prev : BitVec 32) : ScaledFrame where
  gd    := gyroDeg f
  ag    := accelG f
  gs    := gyroSIVec p (gyroDeg f)
  accSI := accelSIVec p (accelG f)
  ticks := deltaTicks f.timestamp prev
  dt    := dtOf (deltaTicks f.timestamp prev)

end Sys2Proof.Machine
end

