-- ==== Sys2Proof/Machine/ComplementaryFilter.lean ====
section
/-! DEFINITION. complementary_filter_iir: per-axis fusion (43_complementary_filter.md). Angles are radians. -/

namespace Sys2Proof.Machine

open Sys2Proof.Config

/-! ### Accelerometer tilt -/

/-- `fsqrt((u * u) + (v * v))`, the norm of two components (rule R190). -/
def norm2 (u v : F64) : F64 := fsqrt (fadd (fmul u u) (fmul v v))

/-- `tiltX` of `AccelTilt(as)` (rule R190). -/
def tiltX (p : Params) (a : Vec3) : F64 := p.atan2 a.x (norm2 a.y a.z)

/-- `tiltY` of `AccelTilt(as)` (rule R190). -/
def tiltY (p : Params) (a : Vec3) : F64 := p.atan2 a.y (norm2 a.x a.z)

/-- `FormatAccelRange(angle, az)` (rule R191). -/
def formatAccelRange (angle az : F64) : F64 :=
  if flt az 0 then fsub pi angle
  else if fgt az 0 && flt angle 0 then fadd angle twoPi
  else angle

/-- `accX` of `AccelAngle(as)` (rule R192). -/
def accAngleOfX (p : Params) (a : Vec3) : F64 := formatAccelRange (tiltX p a) a.z

/-- `accY` of `AccelAngle(as)` (rule R192). -/
def accAngleOfY (p : Params) (a : Vec3) : F64 := formatAccelRange (tiltY p a) a.z

/-! ### The filter update -/

/-- `FormatFastConverge(c, a)` (rule R193). -/
def formatFastConverge (c a : F64) : F64 :=
  if fgt c (fadd a pi) then fsub c twoPi
  else if fgt a (fadd c pi) then fadd c twoPi
  else c

/-- `Alpha(dt) = TAU / (TAU + dt)` (rule R194). -/
def alphaOf (p : Params) (dt : F64) : F64 := fdiv p.tau (fadd p.tau dt)

/-- `GyroAngle(c1, omega, dt) = c1 + (omega * dt)`, not fused (rule R195). -/
def gyroAngle (c1 omega dt : F64) : F64 := fadd c1 (fmul omega dt)

/-- The binary64 value 1.0. -/
def one : F64 := 0x3FF0000000000000

/-- `Blend(alpha, g, a) = (alpha * g) + ((1.0 - alpha) * a)` (rule R196). -/
def blend (alpha g a : F64) : F64 := fadd (fmul alpha g) (fmul (fsub one alpha) a)

/-- The binary64 value `2^53`. -/
def two53 : F64 := 0x4340000000000000

/-- The domain of the normalisation (rule R203): finite, `|x| < 2^53`. -/
def normDomain (x : F64) : Bool := isFinite x && flt (fabs x) two53

/-- The loop of `FormatRange0to2PI` (rule R197), at most `fuel` passes. -/
def normLoop : (fuel : Nat) → F64 → Except Fault F64
  | 0, _ => .error .normOutOfDomain
  | fuel + 1, x =>
    if fge x twoPi then normLoop fuel (fsub x twoPi)
    else if flt x 0 then normLoop fuel (fadd x twoPi)
    else .ok x

/-- More passes than rule R203 allows any input of the domain: `2^53 / (TWO_PI - 0.5) + 2 < 2^51`
(log entry 12). -/
def normFuel : Nat := 2 ^ 51

/-- `FormatRange0to2PI(x)` (rule R197); outside its domain a model raises `ModelFault(NormOutOfDomain)`
(rule R203). -/
def formatRange0to2PI (x : F64) : Except Fault F64 :=
  if normDomain x then normLoop normFuel x else .error .normOutOfDomain

/-- `b` of `CompFilterProcess`: fast convergence, then the blend (rule R198). -/
def filterBlend (p : Params) (c a omega dt : F64) : F64 :=
  blend (alphaOf p dt) (gyroAngle (formatFastConverge c a) omega dt) a

/-- `CompFilterProcess(c, a, omega, dt)` (rule R198). -/
def compFilterProcess (p : Params) (c a omega dt : F64) : Except Fault F64 :=
  formatRange0to2PI (filterBlend p c a omega dt)

/-- `omegaX = -gs[Y]` (rule R199). -/
def omegaX (gs : Vec3) : F64 := fneg gs.y
/-- `omegaY = gs[X]` (rule R199). -/
def omegaY (gs : Vec3) : F64 := gs.x

/-! ### The filter step for one frame -/

/-- What `FilterStep` returns (rule R201). -/
structure FilterOut where
  compX : F64
  compY : F64
  accX  : F64
  accY  : F64
  deriving DecidableEq, Repr

/-- `FilterStep(first, cX, cY, as, gs, dt)` (rule R201): a first frame seeds, without reading `cX` and `cY`
(rule R200). -/
def filterStep (p : Params) (first : Bool) (cX cY : F64) (a gs : Vec3) (dt : F64) :
    Except Fault FilterOut :=
  if first then .ok ⟨accAngleOfX p a, accAngleOfY p a, accAngleOfX p a, accAngleOfY p a⟩
  else
    match compFilterProcess p cX (accAngleOfX p a) (omegaX gs) dt with
    | .error e => .error e
    | .ok newX =>
      match compFilterProcess p cY (accAngleOfY p a) (omegaY gs) dt with
      | .error e => .error e
      | .ok newY => .ok ⟨newX, newY, accAngleOfX p a, accAngleOfY p a⟩

end Sys2Proof.Machine
end

