-- ==== Sys2Proof/Machine/Flags.lean ====
section
/-! DEFINITION. The `STATUS` bits (10_state.md rule R39, 60_exceptions.md rule R261): how they read, what sets
the sticky ones and what clears them. -/

namespace Sys2Proof.Machine

/-- `zext_64(OVF ++ ILLEGAL ++ FIRST ++ VALID)` (rule R39). -/
def statusWord (b : Block) : Data :=
  (BitVec.ofBool b.ovf ++ BitVec.ofBool b.illegal ++ BitVec.ofBool b.first ++
    BitVec.ofBool b.valid).setWidth 64

/-- `R[STATUS].ILLEGAL <- 1` (44_commands.md rule R137). -/
def setIllegal (b : Block) : Block := { b with illegal := true }

/-- `R[STATUS].OVF <- 1` (20_memory.md rule R75). -/
def setOvf (b : Block) : Block := { b with ovf := true }

/-- Write 1 to clear (45_register_access.md rule R226). -/
def clearSticky (d : Data) (b : Block) : Block :=
  { b with
    illegal := b.illegal && !clearsIllegal d
    ovf := b.ovf && !clearsOvf d }

end Sys2Proof.Machine
end

