-- ==== Sys2Proof/Machine/Ops.lean ====
section
/-! DEFINITION. The operations the meanings share: the ingress FIFO, the register reads and how a transaction
ends. The block takes no exception and returns from none (60_exceptions.md rules R260 and R264), so the
one shared operation of that kind is a model fault (rule R265), which `finish` and `readOutput` raise. -/

namespace Sys2Proof.Machine

/-! ### The ingress FIFO (20_memory.md rules R74 to R78) -/

/-- `FifoCount()` (rule R74). -/
def fifoCount (b : Block) : Nat := b.fifo.length

/-- `FifoPush(w)`: append at the tail, or drop the word and set `OVF` (rule R75). -/
def fifoPush (p : Params) (w : FifoWord) (b : Block) : Block :=
  if fifoCount b < p.fifoDepth then { b with fifo := b.fifo ++ [w] } else setOvf b

/-- `FifoPop()`: the word at the head and the words left (rule R76). -/
def fifoPop : List FifoWord → Except Fault (FifoWord × List FifoWord)
  | [] => .error .emptyPop
  | w :: rest => .ok (w, rest)

/-- `for k in 0..n-1: w[k] = FifoPop()` (44_commands.md rule R133). -/
def popWords : (n : Nat) → List FifoWord → Except Fault (Vector FifoWord n × List FifoWord)
  | 0, fifo => .ok (#v[], fifo)
  | n + 1, fifo =>
    match popWords n fifo with
    | .error e => .error e
    | .ok (ws, rest) =>
      match fifoPop rest with
      | .error e => .error e
      | .ok (w, rest') => .ok (ws.push w, rest')

/-- `FifoClear()` (rule R77). -/
def fifoClear (b : Block) : Block := { b with fifo := [] }

/-! ### How a transaction ends (20_memory.md rule R71) -/

/-- A read returns one 64-bit value and writes no block state (45_register_access.md rule R220). -/
def respond (v : Data) (s : State) : State := { s with port := { s.port with response := some v } }

/-- A write returns nothing and leaves the block as `b`. -/
def commit (b : Block) (s : State) : State := { block := b, port := { s.port with response := none } }

/-- A command's end: the block it computed, or the model fault it raised (60_exceptions.md rule R265). -/
def finish (r : Except Fault Block) (s : State) : Host.Outcome State Fault Refusal :=
  match r with
  | .ok b => .next (commit b s)
  | .error e => .fault e

/-- A read of one of the ten guarded output registers. Its pseudocode has two lines (45_register_access.md
rules R232 to R241): "if S.valid = 0: raise ModelFault(UnwrittenRead)", then the return of the register. The
first line is the spec's own, also in 10_state.md rule R46, the table of 60_exceptions.md rule R265,
92_eei_decisions.md D31 and 93_implementation_defined.md section 1 (log entry 5). -/
def readOutput (v : F64) (s : State) : Host.Outcome State Fault Refusal :=
  if s.block.valid then .next (respond v s) else .fault .unwrittenRead

end Sys2Proof.Machine
end

