-- ==== Sys2Proof/Machine/FrameStep.lean ====
section
/-! DEFINITION. The frame step that STEP and DRAIN perform (44_commands.md rules R133, R134, R140 and R141). -/

namespace Sys2Proof.Machine

open Sys2Proof.Config

/-- The single update of every output register with one frame's results (rule R140, 20_memory.md rule R83).
Degrees are made here and never fed back (43_complementary_filter.md rule R202). -/
def publish (p : Params) (f : DecodedFrame) (sc : ScaledFrame) (integ : F64) (o : FilterOut)
    (b : Block) : Block :=
  { b with
    integAngle := integ
    gyroX := sc.gd.x
    gyroY := sc.gd.y
    gyroZ := sc.gd.z
    accelX := sc.ag.x
    accelY := sc.ag.y
    accelZ := sc.ag.z
    accAngleX := fmul o.accX p.rad2deg
    accAngleY := fmul o.accY p.rad2deg
    compX := o.compX
    compY := o.compY
    compAngleX := fmul o.compX p.rad2deg
    compAngleY := fmul o.compY p.rad2deg
    prevTs := f.timestamp
    first := false
    valid := true }

/-- The new integrated angle of a frame (rules R180 and R182). -/
def frameInteg (p : Params) (f : DecodedFrame) (sc : ScaledFrame) (b : Block) : F64 :=
  integrate b.integAngle (scaleDelta p f.deltaAngleRaw sc.ticks) b.first

/-- The filter's part of a frame (43_complementary_filter.md rule R201). -/
def frameFilter (p : Params) (sc : ScaledFrame) (b : Block) : Except Fault FilterOut :=
  filterStep p b.first b.compX b.compY sc.accSI sc.gs sc.dt

/-- `ProcessFrame(w[0..18])` (rule R140): every value is computed from the state before the step (rule R141). -/
def processFrame (p : Params) (w : FrameWords) (b : Block) : Except Fault Block :=
  match frameFilter p (scaleFrame p (decodeFrame w) b.prevTs) b with
  | .error e => .error e
  | .ok o =>
    .ok (publish p (decodeFrame w) (scaleFrame p (decodeFrame w) b.prevTs)
      (frameInteg p (decodeFrame w) (scaleFrame p (decodeFrame w) b.prevTs) b) o b)

/-- Pop one frame and process it (rules R133 and R134). -/
def takeFrame (p : Params) (b : Block) : Except Fault Block :=
  match popWords 19 b.fifo with
  | .error e => .error e
  | .ok (w, rest) => processFrame p w { b with fifo := rest }

/-- STEP: one complete frame, if there is one (rule R133). -/
def stepFrame (p : Params) (b : Block) : Except Fault Block :=
  if frameLen ≤ fifoCount b then takeFrame p b else .ok b

/-- `repeat n times` a frame (rule R134). -/
def takeFrames (p : Params) : Nat → Block → Except Fault Block
  | 0, b => .ok b
  | n + 1, b =>
    match takeFrame p b with
    | .error e => .error e
    | .ok b' => takeFrames p n b'

/-- DRAIN: the count is read once, at the start (rule R134, 30_encoding.md rule R102). -/
def drainFrames (p : Params) (b : Block) : Except Fault Block :=
  takeFrames p (fifoCount b / frameLen) b

end Sys2Proof.Machine
end

