-- ==== Sys2Proof/Machine/Commands.lean ====
section
/-! DEFINITION. The commands (44_commands.md rules R130 to R134 and R137). The decoder is the dispatch of rule
R135. -/

namespace Sys2Proof.Machine

/-- NOP (R130). -/
def execNop (s : State) : Host.Outcome State Fault Refusal := .next (commit s.block s)

/-- START begins a session (R131). -/
def execStart (s : State) : Host.Outcome State Fault Refusal :=
  .next (commit { fifoClear s.block with first := true, prevTs := 0, integAngle := 0 } s)

/-- RESET zeroes the integrated angle (R132). -/
def execReset (s : State) : Host.Outcome State Fault Refusal :=
  .next (commit { s.block with integAngle := 0 } s)

/-- STEP processes one complete frame, if there is one (R133). -/
def execStep (s : State) : Host.Outcome State Fault Refusal :=
  finish (stepFrame machineParams s.block) s

/-- DRAIN processes every complete frame buffered (R134). -/
def execDrain (s : State) : Host.Outcome State Fault Refusal :=
  finish (drainFrames machineParams s.block) s

/-- An illegal command word sets `STATUS.ILLEGAL` and nothing else (R137). -/
def execCmdIllegal (_d : Data) (s : State) : Host.Outcome State Fault Refusal :=
  .next (commit (setIllegal s.block) s)

end Sys2Proof.Machine
end

