-- ==== Sys2Proof/Machine/RegisterRead.lean ====
section
/-! DEFINITION. The register reads (45_register_access.md rules R220 to R225, R229 and R231 to R241). A read
returns its value and writes no block state. -/

namespace Sys2Proof.Machine

/-- `RD CMD`: `CMD` stores nothing (R221). -/
def execRdCmd (s : State) : Host.Outcome State Fault Refusal := .next (respond 0 s)

/-- `RD STATUS` (R222). -/
def execRdStatus (s : State) : Host.Outcome State Fault Refusal :=
  .next (respond (statusWord s.block) s)

/-- `RD CONFIG` (R223). -/
def execRdConfig (s : State) : Host.Outcome State Fault Refusal :=
  .next (respond ((yawCode s.block.yawAxis).setWidth 64) s)

/-- `RD FIFO_DATA`: pops nothing (R224). -/
def execRdFifoData (s : State) : Host.Outcome State Fault Refusal := .next (respond 0 s)

/-- `RD FIFO_COUNT` (R225). -/
def execRdFifoCount (s : State) : Host.Outcome State Fault Refusal :=
  .next (respond (BitVec.ofNat 64 (fifoCount s.block)) s)

/-- `RD RSV<A>` (R229). -/
def execRdRsv (_a : RegIndex) (s : State) : Host.Outcome State Fault Refusal := .next (respond 0 s)

/-- `RD INTEG_ANGLE`: it has a value from power-on (R231). -/
def execRdIntegAngle (s : State) : Host.Outcome State Fault Refusal :=
  .next (respond s.block.integAngle s)

/-- `RD GYRO_X` (R232). -/
def execRdGyroX (s : State) : Host.Outcome State Fault Refusal := readOutput s.block.gyroX s

/-- `RD GYRO_Y` (R233). -/
def execRdGyroY (s : State) : Host.Outcome State Fault Refusal := readOutput s.block.gyroY s

/-- `RD GYRO_Z` (R234). -/
def execRdGyroZ (s : State) : Host.Outcome State Fault Refusal := readOutput s.block.gyroZ s

/-- `RD ACCEL_X` (R235). -/
def execRdAccelX (s : State) : Host.Outcome State Fault Refusal := readOutput s.block.accelX s

/-- `RD ACCEL_Y` (R236). -/
def execRdAccelY (s : State) : Host.Outcome State Fault Refusal := readOutput s.block.accelY s

/-- `RD ACCEL_Z` (R237). -/
def execRdAccelZ (s : State) : Host.Outcome State Fault Refusal := readOutput s.block.accelZ s

/-- `RD ACC_ANGLE_X` (R238). -/
def execRdAccAngleX (s : State) : Host.Outcome State Fault Refusal := readOutput s.block.accAngleX s

/-- `RD ACC_ANGLE_Y` (R239). -/
def execRdAccAngleY (s : State) : Host.Outcome State Fault Refusal := readOutput s.block.accAngleY s

/-- `RD COMP_ANGLE_X` (R240). -/
def execRdCompAngleX (s : State) : Host.Outcome State Fault Refusal :=
  readOutput s.block.compAngleX s

/-- `RD COMP_ANGLE_Y` (R241). -/
def execRdCompAngleY (s : State) : Host.Outcome State Fault Refusal :=
  readOutput s.block.compAngleY s

end Sys2Proof.Machine
end

