-- ==== Sys2Proof/Machine/RegisterWrite.lean ====
section
/-! DEFINITION. The register writes but for `CMD` (45_register_access.md rules R226 to R228 and R230). -/

namespace Sys2Proof.Machine

/-- `WR STATUS, D`: write 1 to clear (R226). -/
def execWrStatus (d : Data) (s : State) : Host.Outcome State Fault Refusal :=
  .next (commit (clearSticky d s.block) s)

/-- `WR CONFIG, D`: write any, read legal (R227). -/
def execWrConfig (d : Data) (s : State) : Host.Outcome State Fault Refusal :=
  .next (commit { s.block with yawAxis := yawWrite (configOperand d) s.block.yawAxis } s)

/-- `WR FIFO_DATA, D`: push `D[31:0]` (R228). -/
def execWrFifoData (d : Data) (s : State) : Host.Outcome State Fault Refusal :=
  .next (commit (fifoPush machineParams (fifoOperand d) s.block) s)

/-- A write to an index that takes no write (R230). -/
def execWrIgn (_a : RegIndex) (_d : Data) (s : State) : Host.Outcome State Fault Refusal :=
  .next (commit s.block s)

end Sys2Proof.Machine
end

