-- ==== Sys2Proof/Machine/Dispatch.lean ====
section
/-! DEFINITION. One arm per instruction. -/

namespace Sys2Proof.Machine

def exec (i : Instr) (s : State) : Host.Outcome State Fault Refusal :=
  match i with
  | .rdCmd => Sys2Proof.Machine.execRdCmd s
  | .rdStatus => Sys2Proof.Machine.execRdStatus s
  | .rdConfig => Sys2Proof.Machine.execRdConfig s
  | .rdFifoData => Sys2Proof.Machine.execRdFifoData s
  | .rdFifoCount => Sys2Proof.Machine.execRdFifoCount s
  | .rdIntegAngle => Sys2Proof.Machine.execRdIntegAngle s
  | .rdGyroX => Sys2Proof.Machine.execRdGyroX s
  | .rdGyroY => Sys2Proof.Machine.execRdGyroY s
  | .rdGyroZ => Sys2Proof.Machine.execRdGyroZ s
  | .rdAccelX => Sys2Proof.Machine.execRdAccelX s
  | .rdAccelY => Sys2Proof.Machine.execRdAccelY s
  | .rdAccelZ => Sys2Proof.Machine.execRdAccelZ s
  | .rdAccAngleX => Sys2Proof.Machine.execRdAccAngleX s
  | .rdAccAngleY => Sys2Proof.Machine.execRdAccAngleY s
  | .rdCompAngleX => Sys2Proof.Machine.execRdCompAngleX s
  | .rdCompAngleY => Sys2Proof.Machine.execRdCompAngleY s
  | .wrStatus d => Sys2Proof.Machine.execWrStatus d s
  | .wrConfig d => Sys2Proof.Machine.execWrConfig d s
  | .wrFifoData d => Sys2Proof.Machine.execWrFifoData d s
  | .nop => Sys2Proof.Machine.execNop s
  | .start => Sys2Proof.Machine.execStart s
  | .reset => Sys2Proof.Machine.execReset s
  | .step => Sys2Proof.Machine.execStep s
  | .drain => Sys2Proof.Machine.execDrain s
  | .cmdIllegal d => Sys2Proof.Machine.execCmdIllegal d s
  | .rdRsv a => Sys2Proof.Machine.execRdRsv a s
  | .wrIgn a d => Sys2Proof.Machine.execWrIgn a d s

end Sys2Proof.Machine
end

