-- ==== Sys2Proof/Machine/Step.lean ====
section
/-! DEFINITION. One step: the block takes the oldest transaction the host has issued and gives it its whole
effect (20_memory.md rule R72). -/

namespace Sys2Proof.Machine

/-- The state after the block has taken the oldest transaction: `rest` still waits. -/
def State.withPending (s : State) (rest : List PortWord) : State :=
  { s with port := { s.port with pending := rest } }

/-- With no transaction waiting the block does nothing and holds its state (60_exceptions.md rule R272). -/
def step (s : State) : Host.Outcome State Fault Refusal :=
  match s.port.pending with
  | [] => .next s
  | pw :: rest => exec (decode pw) (s.withPending rest)

/-- The host issues the transaction `w` so that the block takes it next. The block fetches no instructions
(10_state.md rule R31): this is how a program comes to run (log entry 1). A number that is no port word
issues nothing (log entry 18). -/
def State.withFetchWord (s : State) (nbits w : Nat) : State :=
  match portWordOf (w % 2 ^ nbits) with
  | .ok pw => s.withPending (pw :: s.port.pending)
  | .error _ => s

end Sys2Proof.Machine
end

