-- ==== Sys2Proof/Safety.lean ====
section
/-! DEFINITION. What counts as a safe run, in the terms the claims use. -/

namespace Sys2Proof.Machine

open Sys2Proof.Config

/-! ### Ranges -/

/-- Finite, magnitude at most `bound`. -/
def finiteAtMost (bound x : F64) : Bool := isFinite x && fle (fabs x) bound

/-- The range of an accel angle and of a seeded comp angle, radians: `[-PI/2, TWO_PI]`. Rules R192 and R204 of
43_complementary_filter.md write `TWO_PI` as excluded; rule R21 alone does not exclude it (log entry 13). -/
def inTurn (x : F64) : Bool := isFinite x && fle (fneg halfPi) x && fle x twoPi

/-- `[0, TWO_PI)`: the range of the normalisation (43_complementary_filter.md rule R205). -/
def normalised (x : F64) : Bool := isFinite x && fle 0 x && flt x twoPi

/-- `2^246`: no frame takes `INTEG_ANGLE` past it. A frame adds less than `2^192` (00_scope.md rule R16),
which is below half the last place of `2^246` (log entry 20). -/
def integBound : F64 := 0x4F50000000000000

/-! ### The published snapshot -/

/-- The ten output registers that hold no value before the first frame, in index order (10_state.md rule
R46). -/
def readings (b : Block) : List F64 :=
  [b.gyroX, b.gyroY, b.gyroZ, b.accelX, b.accelY, b.accelZ, b.accAngleX, b.accAngleY,
    b.compAngleX, b.compAngleY]

/-- What a later frame sequence depends on, and what it publishes. -/
def datapath (b : Block) : List FifoWord × Bool × BitVec 32 × Bool × List F64 :=
  (b.fifo, b.first, b.prevTs, b.valid, b.integAngle :: b.compX :: b.compY :: readings b)

/-! ### The invariant -/

/-- A block no run can leave, for parameters `p`:
the FIFO is within its depth (20_memory.md rule R74);
before the first frame the next frame is a first frame (10_state.md rules R33 and R36);
`INTEG_ANGLE` is bounded (00_scope.md rule R16);
once a frame has been processed, the comp angles are in range (43_complementary_filter.md rule R204), what
is published of them is them in degrees (rule R202), and every published value is finite (rule R16). -/
def safeBlock (p : Params) (b : Block) : Prop :=
  b.fifo.length ≤ p.fifoDepth ∧
  (b.valid = false → b.first = true) ∧
  finiteAtMost integBound b.integAngle = true ∧
  (b.valid = true →
    inTurn b.compX = true ∧ inTurn b.compY = true ∧
    b.compAngleX = fmul b.compX p.rad2deg ∧ b.compAngleY = fmul b.compY p.rad2deg ∧
    ∀ x ∈ readings b, isFinite x = true)

/-- The invariant of the machine. -/
def Inv (s : State) : Prop := safeBlock machineParams s.block

/-! ### Hardware where the spec has a model stop -/

/-- What the block itself can do with an instruction: what the model does, and where the model stops at a guarded
read, some 64-bit pattern returned and nothing else changed (10_state.md rule R46: it "returns an unspecified
64-bit pattern in hardware"; the column "hardware behaviour" of 60_exceptions.md rule R265). -/
def hardwareNext (i : Instr) (s t : State) : Prop :=
  exec i s = .next t ∨ exec i s = .fault .unwrittenRead ∧ ∃ v, t = respond v s

/-- The step of the block itself: the oldest transaction, with whatever hardware does with it (20_memory.md rules
R71 and R72), and nothing with none waiting. It has every next state that `step` has. -/
def hardwareStep (s t : State) : Prop :=
  match s.port.pending with
  | [] => t = s
  | pw :: rest => hardwareNext (decode pw) (s.withPending rest) t

/-! ### Runs of a host's transactions -/

/-- The reads of the registers that hold no value before the first frame, each with the register it returns
(45_register_access.md rules R232 to R241). -/
def outputReads (b : Block) : List (Instr × F64) :=
  [(.rdGyroX, b.gyroX), (.rdGyroY, b.gyroY), (.rdGyroZ, b.gyroZ),
    (.rdAccelX, b.accelX), (.rdAccelY, b.accelY), (.rdAccelZ, b.accelZ),
    (.rdAccAngleX, b.accAngleX), (.rdAccAngleY, b.accAngleY),
    (.rdCompAngleX, b.compAngleX), (.rdCompAngleY, b.compAngleY)]

/-- STEP and DRAIN with a complete frame buffered process one (44_commands.md rules R133 and R134). -/
def processesFrame (i : Instr) (b : Block) : Bool :=
  (i == .step || i == .drain) && frameLen ≤ fifoCount b

/-- The outcome of executing instructions one after another, stopping at the first fault or refusal. -/
def execAll : List Instr → State → Host.Outcome State Fault Refusal
  | [], s => .next s
  | i :: is, s =>
    match exec i s with
    | .next t => execAll is t
    | .fault e => .fault e
    | .refused r => .refused r

/-- A push of each word, in order. -/
def pushes (ws : List FifoWord) : List Instr := ws.map fun w => .wrFifoData (w.setWidth 64)

/-- The words a run pushes, in order (30_encoding.md rule R94). -/
def pushedWords : List Instr → List FifoWord :=
  List.filterMap fun
    | .wrFifoData d => some (fifoOperand d)
    | _ => none

/-! ### Correct rounding -/

/-- The magnitude, in units, from which rounding to nearest gives infinity: half a last place above the
largest finite value. -/
def overflowUnits : Nat := (2 ^ 54 - 1) * 2 ^ 2044

/-- `r` is the finite binary64 value nearest to `num / den` units; of two equally near, the one with an even
significand (00_scope.md rule R14). -/
def nearestEven (num : Int) (den : Nat) (r : F64) : Prop :=
  isFinite r = true ∧
  ∀ y, isFinite y = true →
    |(den : Int) * fval r - num| ≤ |(den : Int) * fval y - num| ∧
    (|(den : Int) * fval r - num| = |(den : Int) * fval y - num| →
      fval y ≠ fval r → fmag r % 2 = 0)

/-- `r` is `num / den` units correctly rounded: nearest, or infinity of its sign past the largest finite
value. -/
def correctlyRounded (num : Int) (den : Nat) (r : F64) : Prop :=
  (num.natAbs < overflowUnits * den → nearestEven num den r) ∧
  (overflowUnits * den ≤ num.natAbs → r = fpack (decide (num < 0)) infMag)

end Sys2Proof.Machine
end

