-- ==== Sys2Proof/Certificates/Slice0/Obligations.lean ====
section
/-! DEFINITION. The statements for the provers. Each docstring names the rule of spec/ it formalises. -/

open Sys2Proof Sys2Proof.Machine Sys2Proof.Config

/-! ### Encoding -/

/-- Port words written out in 95_test_vectors.md section 3.1 (V30.1 to V30.22) and 30_encoding.md rule R105
decode to the rows named there. -/
def Obligations.SpecPortWordsDecode : Prop :=
  decode 0x200000000000000000 = .nop ∧
  decode 0x200000000000000001 = .start ∧
  decode 0x200000000000000002 = .reset ∧
  decode 0x200000000000000003 = .step ∧
  decode 0x200000000000000004 = .drain ∧
  decode 0x200000000000000005 = .cmdIllegal 5 ∧
  decode 0x208000000000000001 = .cmdIllegal 0x8000000000000001 ∧
  decode 0x01FFFFFFFFFFFFFFFF = .rdStatus ∧
  decode 0x21000000000000000C = .wrStatus 0xC ∧
  decode 0x220000000000000001 = .wrConfig 1 ∧
  decode 0x2300000000000003E8 = .wrFifoData 1000 ∧
  decode 0x1F0000000000000000 = .rdRsv 0x1F ∧
  decode 0x240000000000000007 = .wrIgn 0x04 7 ∧
  decode 0x080000000000000000 = .rdIntegAngle ∧
  decode 0x120000000000000000 = .rdCompAngleY

/-- Decoding an encoded well-formed instruction gives it back (rules R90, R91, R93, R96). -/
def Obligations.DecodeOfEncodeIsTheInstruction : Prop :=
  ∀ i : Instr, i.wf = true → decode (encode i) = i

/-- 30_encoding.md rule R92: the row an instruction was decoded to matches the port word, every other
matching row has a mask with fewer bits set, the matching rows are nested, and the fallback masks are `W`
only, `W` only, and `W` and `A`. -/
def Obligations.DecodeSelectsTheMostSpecificRow : Prop :=
  ∀ pw : PortWord,
    rowOf (decode pw) ∈ opcodeTable ∧
    (rowOf (decode pw)).matches pw = true ∧
    (∀ r ∈ opcodeTable, r.matches pw = true → r ≠ rowOf (decode pw) →
      r.maskBits < (rowOf (decode pw)).maskBits) ∧
    (∀ r ∈ opcodeTable, ∀ r' ∈ opcodeTable, r.matches pw = true → r'.matches pw = true →
      r.mask &&& r'.mask = r.mask ∨ r'.mask &&& r.mask = r'.mask) ∧
    (∀ r ∈ opcodeTable,
      (r.mnemonic = "RD.RSV" → r.mask = 0x200000000000000000) ∧
      (r.mnemonic = "WR.IGN" → r.mask = 0x200000000000000000) ∧
      (r.mnemonic = "CMD.ILLEGAL" → r.mask = 0x3F0000000000000000))

/-- Whatever the port word, the decoded instruction is well-formed, and its encoding is that port word for a
write and that port word with `D = 0` for a read (rules R90, R91, R95, R98). -/
def Obligations.EveryPortWordIsTheCodeOfItsInstruction : Prop :=
  ∀ pw : PortWord,
    (decode pw).wf = true ∧
    (pw.w = true → encode (decode pw) = pw) ∧
    (pw.w = false → encode (decode pw) = portWord false pw.a 0)

/-! ### The step -/

/-- A step is the execution of the oldest transaction, which leaves the queue; with none it is nothing
(20_memory.md rule R72, 60_exceptions.md rule R272; the queue is the model's, log entry 1). The transaction
`withFetchWord` issues is the next one taken. -/
def Obligations.StepRunsTheOldestTransaction : Prop :=
  (∀ (s : State) (pw : PortWord) (rest : List PortWord), s.port.pending = pw :: rest →
    step s = exec (decode pw) (s.withPending rest)) ∧
  (∀ (s : State) (i : Instr) (rest : List PortWord), i.wf = true →
    s.port.pending = encode i :: rest → step s = exec i (s.withPending rest)) ∧
  (∀ s : State, s.port.pending = [] → step s = .next s) ∧
  (∀ (s : State) (w : Nat), w < 2 ^ 70 →
    step (s.withFetchWord 72 w) = exec (decode (BitVec.ofNat 70 w)) s ∧
    decodeTableWord 72 w = some (decode (BitVec.ofNat 70 w)))

/-- No instruction is refused. Executing one leaves the waiting transactions alone; a read returns one value,
a write returns nothing (20_memory.md rule R71; the response field is the model's, log entry 2). -/
def Obligations.ReadsReturnAValueAndWritesNothing : Prop :=
  ∀ (i : Instr) (s : State),
    (∀ r, exec i s ≠ .refused r) ∧
    ∀ t, exec i s = .next t →
      t.port.pending = s.port.pending ∧ t.port.response.isSome = !(encode i).w

/-! ### Register reads -/

/-- 45_register_access.md rules R221 to R225, R229 and R231: the value of each read that has one at all times, in
every state; the block is unchanged. That `FIFO_COUNT` is the low 64 bits of a count of `2^64` or more is the
model's choice (log entry 17, DESIGN CHOICE). -/
def Obligations.ControlReadsReturnTheirRegister : Prop :=
  ∀ s : State,
    exec .rdCmd s = .next ⟨s.block, s.port.pending, some 0⟩ ∧
    exec .rdStatus s = .next ⟨s.block, s.port.pending, some (BitVec.ofNat 64
      (8 * s.block.ovf.toNat + 4 * s.block.illegal.toNat + 2 * s.block.first.toNat +
        s.block.valid.toNat))⟩ ∧
    exec .rdConfig s = .next ⟨s.block, s.port.pending, some
      (match s.block.yawAxis with | .x => 0 | .y => 1 | .z => 2)⟩ ∧
    exec .rdFifoData s = .next ⟨s.block, s.port.pending, some 0⟩ ∧
    exec .rdFifoCount s = .next ⟨s.block, s.port.pending, some (BitVec.ofNat 64 s.block.fifo.length)⟩ ∧
    exec .rdIntegAngle s = .next ⟨s.block, s.port.pending, some s.block.integAngle⟩ ∧
    ∀ a, exec (.rdRsv a) s = .next ⟨s.block, s.port.pending, some 0⟩

/-- 45_register_access.md rules R232 to R241: once a frame has been processed, each of the ten reads returns
its register and changes no block state; before that it is the model fault UnwrittenRead. -/
def Obligations.OutputReadsReturnTheirRegister : Prop :=
  ∀ s : State, ∀ r ∈ outputReads s.block,
    (s.block.valid = true → exec r.1 s = .next ⟨s.block, s.port.pending, some r.2⟩) ∧
    (s.block.valid = false → exec r.1 s = .fault .unwrittenRead)

/-- 60_exceptions.md rule R265, UnwrittenRead: the fault is raised by those ten reads while `S.valid = 0`, and
by nothing else. -/
def Obligations.UnwrittenReadIsRaisedExactlyBeforeTheFirstFrame : Prop :=
  ∀ (i : Instr) (s : State),
    exec i s = .fault .unwrittenRead ↔
      s.block.valid = false ∧ ∃ r ∈ outputReads s.block, r.1 = i

/-- 45_register_access.md rule R220: a read changes no state, whatever the index. -/
def Obligations.ReadsChangeNoBlockState : Prop :=
  ∀ (i : Instr) (s t : State), (encode i).w = false → exec i s = .next t → t.block = s.block

/-! ### Register writes -/

/-- 45_register_access.md rule R226. -/
def Obligations.StatusWriteClearsTheBitsWrittenAsOne : Prop :=
  ∀ (d : Data) (s : State),
    exec (.wrStatus d) s = .next
      ⟨{ s.block with
          illegal := if d.getLsbD 2 then false else s.block.illegal
          ovf := if d.getLsbD 3 then false else s.block.ovf }, s.port.pending, none⟩

/-- 45_register_access.md rule R227: `YAW_AXIS` becomes `D[1:0]`, and a write of 3 leaves it unchanged. -/
def Obligations.ConfigWriteSetsALegalAxis : Prop :=
  ∀ (d : Data) (s : State), ∃ axis : YawAxis,
    exec (.wrConfig d) s = .next ⟨{ s.block with yawAxis := axis }, s.port.pending, none⟩ ∧
    (d.toNat % 4 = 3 → axis = s.block.yawAxis) ∧
    (d.toNat % 4 ≠ 3 → (match axis with | .x => 0 | .y => 1 | .z => 2) = d.toNat % 4)

/-- 45_register_access.md rule R228 and 20_memory.md rule R75: the push of `D[31:0]`. -/
def Obligations.FifoWriteAppendsOrSetsOverflow : Prop :=
  ∀ (d : Data) (s : State),
    (s.block.fifo.length < machineParams.fifoDepth →
      exec (.wrFifoData d) s = .next
        ⟨{ s.block with fifo := s.block.fifo ++ [BitVec.ofNat 32 d.toNat] }, s.port.pending, none⟩) ∧
    (machineParams.fifoDepth ≤ s.block.fifo.length →
      exec (.wrFifoData d) s = .next ⟨{ s.block with ovf := true }, s.port.pending, none⟩)

/-- 45_register_access.md rule R230. -/
def Obligations.IgnoredWritesChangeNothing : Prop :=
  ∀ (a : RegIndex) (d : Data) (s : State),
    exec (.wrIgn a d) s = .next ⟨s.block, s.port.pending, none⟩

/-! ### Commands -/

/-- 44_commands.md rule R130. -/
def Obligations.NopChangesNoBlockState : Prop :=
  ∀ s : State, exec .nop s = .next ⟨s.block, s.port.pending, none⟩

/-- 44_commands.md rule R131 and 10_state.md rule R49. -/
def Obligations.StartBeginsASession : Prop :=
  ∀ s : State, exec .start s = .next
    ⟨{ s.block with fifo := [], first := true, prevTs := 0, integAngle := 0x0000000000000000 },
      s.port.pending, none⟩

/-- 44_commands.md rule R132. -/
def Obligations.ResetZeroesTheIntegratedAngle : Prop :=
  ∀ s : State, exec .reset s = .next
    ⟨{ s.block with integAngle := 0x0000000000000000 }, s.port.pending, none⟩

/-- 44_commands.md rule R137 and 30_encoding.md rule R98: a `CMD` write of any word above 4, which is one with
`RSV` nonzero or `OP` in 0x5 to 0xF, decodes to the illegal command, which sets `ILLEGAL` alone. -/
def Obligations.IllegalCommandSetsOnlyItsBit : Prop :=
  ∀ (d : Data), (d.toNat / 16 ≠ 0 ∨ 5 ≤ d.toNat % 16) →
    decode (portWord true 0 d) = .cmdIllegal d ∧
    ∀ s : State, exec (.cmdIllegal d) s = .next
      ⟨{ s.block with illegal := true }, s.port.pending, none⟩

/-- 44_commands.md rule R133: with fewer than 19 words STEP does nothing; otherwise it consumes exactly the first
19 and processes them. -/
def Obligations.StepProcessesOneCompleteFrame : Prop :=
  ∀ s : State,
    (s.block.fifo.length < 19 → exec .step s = .next ⟨s.block, s.port.pending, none⟩) ∧
    (19 ≤ s.block.fifo.length → ∃ w : FrameWords, w.toList = s.block.fifo.take 19 ∧
      (∀ b, processFrame machineParams w { s.block with fifo := s.block.fifo.drop 19 } = .ok b →
        exec .step s = .next ⟨b, s.port.pending, none⟩) ∧
      (∀ e, processFrame machineParams w { s.block with fifo := s.block.fifo.drop 19 } = .error e →
        exec .step s = .fault e))

/-- 44_commands.md rule R134: DRAIN is `floor(N / 19)` STEPs, `N` counted once at its start. -/
def Obligations.DrainIsRepeatedStep : Prop :=
  ∀ s : State,
    exec .drain s =
      execAll (List.replicate (s.block.fifo.length / 19) .step)
        ⟨s.block, s.port.pending, none⟩

/-- 30_encoding.md rule R102 and 70_reset_and_hazards.md rule R289: after DRAIN the words past the usable prefix
`N - (N mod 19)` stand in the FIFO, in order; with no complete frame nothing changes. -/
def Obligations.DrainLeavesTheRemainder : Prop :=
  ∀ s t : State, exec .drain s = .next t →
    t.block.fifo = s.block.fifo.drop (s.block.fifo.length - s.block.fifo.length % 19) ∧
    t.block.fifo.length = s.block.fifo.length % 19 ∧
    (s.block.fifo.length < 19 → t.block = s.block)

/-- The frame of STEP and DRAIN: they leave `YAW_AXIS`, `ILLEGAL`, `OVF` and the waiting transactions alone, take
words only from the head of the FIFO, and with no complete frame leave the whole block alone (44_commands.md
rules R133, R134 and R140). -/
def Obligations.FrameCommandsLeaveTheRestAlone : Prop :=
  ∀ (i : Instr) (s t : State), i = .step ∨ i = .drain → exec i s = .next t →
    t.block.yawAxis = s.block.yawAxis ∧
    t.block.illegal = s.block.illegal ∧
    t.block.ovf = s.block.ovf ∧
    t.port.pending = s.port.pending ∧
    t.block.fifo <:+ s.block.fifo ∧
    (s.block.fifo.length < 19 → t.block = s.block)

/-! ### The frame step -/

/-- 44_commands.md rule R140: a processed frame publishes its own results, all at once, from the state before
the step. -/
def Obligations.ProcessFramePublishesOneFrame : Prop :=
  ∀ (p : Params) (w : FrameWords) (b b' : Block),
    processFrame p w b = .ok b' ↔
      ∃ o : FilterOut,
        filterStep p b.first b.compX b.compY
          (accelSIVec p (accelG (decodeFrame w))) (gyroSIVec p (gyroDeg (decodeFrame w)))
          (dtOf (deltaTicks (decodeFrame w).timestamp b.prevTs)) = .ok o ∧
        b' =
          { b with
            integAngle := integrate b.integAngle
              (scaleDelta p (decodeFrame w).deltaAngleRaw
                (deltaTicks (decodeFrame w).timestamp b.prevTs)) b.first
            gyroX := scaleGyro (decodeFrame w).gx
            gyroY := scaleGyro (decodeFrame w).gy
            gyroZ := scaleGyro (decodeFrame w).gz
            accelX := scaleAccel (decodeFrame w).ax
            accelY := scaleAccel (decodeFrame w).ay
            accelZ := scaleAccel (decodeFrame w).az
            accAngleX := fmul o.accX p.rad2deg
            accAngleY := fmul o.accY p.rad2deg
            compX := o.compX
            compY := o.compY
            compAngleX := fmul o.compX p.rad2deg
            compAngleY := fmul o.compY p.rad2deg
            prevTs := (decodeFrame w).timestamp
            first := false
            valid := true }

/-- 43_complementary_filter.md rule R201 with rules R198 to R200: a first frame seeds both comp angles with the
accel angles; a later frame normalises the blend of each axis, X driven by `-gs[Y]` and Y by `gs[X]`. -/
def Obligations.FilterStepSeedsThenBlends : Prop :=
  ∀ (p : Params) (cX cY : F64) (a gs : Vec3) (dt : F64) (o : FilterOut),
    (filterStep p true cX cY a gs dt = .ok o ↔
      o = ⟨accAngleOfX p a, accAngleOfY p a, accAngleOfX p a, accAngleOfY p a⟩) ∧
    (filterStep p false cX cY a gs dt = .ok o ↔
      formatRange0to2PI (filterBlend p cX (accAngleOfX p a) (fneg gs.y) dt) = .ok o.compX ∧
      formatRange0to2PI (filterBlend p cY (accAngleOfY p a) gs.x dt) = .ok o.compY ∧
      o.accX = accAngleOfX p a ∧ o.accY = accAngleOfY p a)

/-- STEP on a first frame completes in every state with a frame buffered: it integrates nothing, seeds both comp
angles, takes the frame's timestamp and 19 words, and sets `VALID` and clears `FIRST` (42_angle_integrator.md
rule R182, 43_complementary_filter.md rule R200, 44_commands.md rule R140). -/
def Obligations.StepCompletesOnAFirstFrame : Prop :=
  ∀ s : State, s.block.first = true → 19 ≤ s.block.fifo.length →
    ∃ (w : FrameWords) (t : State), w.toList = s.block.fifo.take 19 ∧ exec .step s = .next t ∧
      t.block.integAngle = 0x0000000000000000 ∧
      t.block.compX = accAngleOfX machineParams (accelSIVec machineParams (accelG (decodeFrame w))) ∧
      t.block.compY = accAngleOfY machineParams (accelSIVec machineParams (accelG (decodeFrame w))) ∧
      t.block.prevTs = w[0] ∧ t.block.first = false ∧ t.block.valid = true ∧
      t.block.fifo = s.block.fifo.drop 19

/-- STEP on a later frame completes in every safe state: it adds the compensated delta angle and normalises the
blend of each axis (42_angle_integrator.md rule R182, 43_complementary_filter.md rules R198, R199 and R201,
44_commands.md rule R140). -/
def Obligations.StepCompletesOnALaterFrame : Prop :=
  ∀ s : State, Inv s → s.block.first = false → 19 ≤ s.block.fifo.length →
    ∃ (w : FrameWords) (t : State), w.toList = s.block.fifo.take 19 ∧ exec .step s = .next t ∧
      t.block.integAngle = fadd s.block.integAngle
        (scaleDelta machineParams (decodeFrame w).deltaAngleRaw (w[0] - s.block.prevTs)) ∧
      formatRange0to2PI (filterBlend machineParams s.block.compX
        (accAngleOfX machineParams (accelSIVec machineParams (accelG (decodeFrame w))))
        (fneg (gyroSIVec machineParams (gyroDeg (decodeFrame w))).y)
        (dtOf (w[0] - s.block.prevTs))) = .ok t.block.compX ∧
      formatRange0to2PI (filterBlend machineParams s.block.compY
        (accAngleOfY machineParams (accelSIVec machineParams (accelG (decodeFrame w))))
        (gyroSIVec machineParams (gyroDeg (decodeFrame w))).x
        (dtOf (w[0] - s.block.prevTs))) = .ok t.block.compY ∧
      t.block.prevTs = w[0] ∧ t.block.first = false ∧ t.block.valid = true ∧
      t.block.fifo = s.block.fifo.drop 19

/-- 30_encoding.md rule R101 with 20_memory.md rules R79 and R80: each signed field is the two's-complement value
of the big-endian bytes in bits 7:0 of its slots; no other bit of the frame is read. -/
def Obligations.FrameFieldsAreBigEndianBytes : Prop :=
  ∀ w : FrameWords,
    (decodeFrame w).timestamp = w[0] ∧
    (decodeFrame w).deltaAngleRaw =
      Int.bmod (((w[3].toNat % 256 * 256 + w[4].toNat % 256) * 256 + w[5].toNat % 256) * 256 +
        w[6].toNat % 256 : Nat) (2 ^ 32) ∧
    (decodeFrame w).gx = Int.bmod (w[7].toNat % 256 * 256 + w[8].toNat % 256 : Nat) (2 ^ 16) ∧
    (decodeFrame w).gy = Int.bmod (w[9].toNat % 256 * 256 + w[10].toNat % 256 : Nat) (2 ^ 16) ∧
    (decodeFrame w).gz = Int.bmod (w[11].toNat % 256 * 256 + w[12].toNat % 256 : Nat) (2 ^ 16) ∧
    (decodeFrame w).ax = Int.bmod (w[13].toNat % 256 * 256 + w[14].toNat % 256 : Nat) (2 ^ 16) ∧
    (decodeFrame w).ay = Int.bmod (w[15].toNat % 256 * 256 + w[16].toNat % 256 : Nat) (2 ^ 16) ∧
    (decodeFrame w).az = Int.bmod (w[17].toNat % 256 * 256 + w[18].toNat % 256 : Nat) (2 ^ 16)

/-- 44_commands.md rule R141: the frame step reads `S.first`, `S.prevTs`, `INTEG_ANGLE`, `S.compX` and `S.compY`,
no other output register and never `CONFIG`. -/
def Obligations.FrameStepReadsOnlyItsInputs : Prop :=
  ∀ (p : Params) (w : FrameWords) (b₁ b₂ c₁ : Block),
    b₁.fifo = b₂.fifo → b₁.first = b₂.first → b₁.prevTs = b₂.prevTs →
    b₁.integAngle = b₂.integAngle → b₁.compX = b₂.compX → b₁.compY = b₂.compY →
    processFrame p w b₁ = .ok c₁ →
    ∃ c₂, processFrame p w b₂ = .ok c₂ ∧ datapath c₁ = datapath c₂

/-- 42_angle_integrator.md rule R185 and 43_complementary_filter.md rule R199: the integrated angle depends on the
frame's timestamp and delta-angle words alone, and the comp angles on neither the delta-angle words nor the Z
rate. -/
def Obligations.IntegratorAndFilterUseSeparateChannels : Prop :=
  ∀ (p : Params) (w w' : FrameWords) (b c c' : Block),
    processFrame p w b = .ok c → processFrame p w' b = .ok c' →
    ((∀ k : Fin 19, k.val ∈ [0, 3, 4, 5, 6] → w[k] = w'[k]) → c.integAngle = c'.integAngle) ∧
    ((∀ k : Fin 19, k.val ∉ [1, 2, 3, 4, 5, 6, 11, 12] → w[k] = w'[k]) →
      c.compX = c'.compX ∧ c.compY = c'.compY)

/-! ### Whole-machine rules -/

/-- 60_exceptions.md rule R261 and 10_state.md rule R39: an illegal command sets `ILLEGAL`, a push to a full FIFO
sets `OVF`, no other condition sets either, and only a write of 1 to the bit clears it. -/
def Obligations.StickyBitsHaveOneCauseEach : Prop :=
  ∀ (i : Instr) (s t : State), exec i s = .next t →
    (t.block.illegal = true ↔
      (∃ d, i = .cmdIllegal d) ∨
      (s.block.illegal = true ∧ ¬ ∃ d, i = .wrStatus d ∧ d.getLsbD 2 = true)) ∧
    (t.block.ovf = true ↔
      ((∃ d, i = .wrFifoData d) ∧ machineParams.fifoDepth ≤ s.block.fifo.length) ∨
      (s.block.ovf = true ∧ ¬ ∃ d, i = .wrStatus d ∧ d.getLsbD 3 = true))

/-- 10_state.md rules R33 and R36: a frame sets `S.valid` and nothing clears it; START sets `S.first` and a frame
clears it. -/
def Obligations.OnlyFramesSetValidAndOnlyStartSetsFirst : Prop :=
  ∀ (i : Instr) (s t : State), exec i s = .next t →
    (t.block.valid = true ↔ s.block.valid = true ∨ processesFrame i s.block = true) ∧
    (t.block.first = true ↔
      i = .start ∨ (s.block.first = true ∧ processesFrame i s.block = false))

/-- 42_angle_integrator.md rule R183: only a frame step, START and RESET write `INTEG_ANGLE`, and the last two set
it to `+0.0`. -/
def Obligations.OnlyFramesStartAndResetWriteTheIntegratedAngle : Prop :=
  ∀ (i : Instr) (s t : State), exec i s = .next t →
    (i = .start ∨ i = .reset → t.block.integAngle = 0x0000000000000000) ∧
    (i ≠ .start → i ≠ .reset → processesFrame i s.block = false →
      t.block.integAngle = s.block.integAngle)

/-- 20_memory.md rule R76: a pop from an empty FIFO never happens. -/
def Obligations.EmptyPopNeverHappens : Prop :=
  ∀ (i : Instr) (s : State), exec i s ≠ .fault .emptyPop

/-- 20_memory.md rule R82: every transaction but a push, and but STEP and DRAIN with a complete frame buffered, is
idempotent. -/
def Obligations.RepeatingATransactionChangesNothing : Prop :=
  ∀ (i : Instr) (s t : State), (∀ d, i ≠ .wrFifoData d) → processesFrame i s.block = false →
    exec i s = .next t → exec i t = .next t

/-- 70_reset_and_hazards.md rule R281: after a START every later sequence of transactions gives what it gives after
power-on. If it completes from power-on it completes after START, with the same FIFO, `FIRST`, timestamp and
integrated angle, and once a frame has been processed the same comp angles and outputs; before that the outputs
are what the session before left. A sequence without the ten guarded reads, which before the first frame stop
after power-on alone, also completes after START only if it does after power-on, and stops with the same faults. -/
def Obligations.StartIsAsGoodAsPowerOn : Prop :=
  ∀ (s : State) (is : List Instr),
    (∀ t', execAll is State.reset = .next t' →
      ∃ t, execAll (.start :: is) s = .next t ∧
        t.block.fifo = t'.block.fifo ∧ t.block.first = t'.block.first ∧
        t.block.prevTs = t'.block.prevTs ∧ t.block.integAngle = t'.block.integAngle ∧
        (t'.block.valid = true → datapath t.block = datapath t'.block)) ∧
    ((∀ i ∈ is, ∀ r ∈ outputReads s.block, i ≠ r.1) →
      (∀ e, execAll (.start :: is) s = .fault e ↔ execAll is State.reset = .fault e) ∧
      ∀ t, execAll (.start :: is) s = .next t → ∃ t', execAll is State.reset = .next t')

/-- 44_commands.md rule R142: the pacing of STEP and DRAIN does not change the results. However pushes, STEPs and
DRAINs are interleaved, a final DRAIN leaves the state, or stops with the fault, that one DRAIN after all the
pushes does, as long as all the words together fit in the FIFO. -/
def Obligations.PacingDoesNotChangeTheResults : Prop :=
  ∀ (s : State) (is : List Instr),
    (∀ i ∈ is, i = .step ∨ i = .drain ∨ ∃ d, i = .wrFifoData d) →
    s.block.fifo.length + (pushedWords is).length ≤ machineParams.fifoDepth →
    execAll (is ++ [.drain]) s = execAll (pushes (pushedWords is) ++ [.drain]) s

/-! ### Reset and the invariant -/

/-- 10_state.md rule R48: the power-on values it states. -/
def Obligations.PowerOnValues : Prop :=
  State.reset.block.fifo = [] ∧ State.reset.block.first = true ∧ State.reset.block.prevTs = 0 ∧
  State.reset.block.valid = false ∧ State.reset.block.illegal = false ∧
  State.reset.block.ovf = false ∧ yawCode State.reset.block.yawAxis = 2 ∧
  State.reset.block.integAngle = 0x0000000000000000

/-- The machine is safe after power-on, whatever the values the model chose for the registers rule R48 leaves
unspecified: the invariant says nothing of them before the first frame. -/
def Obligations.PowerOnIsSafe : Prop :=
  Inv State.reset ∧
  ∀ cx cy gx gy gz ax ay az axx axy cax cay : F64,
    Inv ⟨{ Block.powerOn with
            compX := cx, compY := cy, gyroX := gx, gyroY := gy, gyroZ := gz, accelX := ax,
            accelY := ay, accelZ := az, accAngleX := axx, accAngleY := axy, compAngleX := cax,
            compAngleY := cay }, [], none⟩

/-- Every step keeps the invariant (20_memory.md rule R74, 10_state.md rules R33 and R36, 00_scope.md rule R16,
43_complementary_filter.md rules R202 and R204). -/
def Obligations.EveryStepKeepsTheInvariant : Prop :=
  ∀ s t : State, Inv s → step s = .next t → Inv t

/-- In a safe state every instruction completes, but for the ten guarded reads before the first frame, as at reset
(60_exceptions.md rules R260 and R265: NormOutOfDomain is unreachable). -/
def Obligations.SafeStatesCompleteEveryInstruction : Prop :=
  ∀ s : State, Inv s →
    (∀ i : Instr, (∀ r ∈ outputReads s.block, i ≠ r.1) → ∃ t, exec i s = .next t) ∧
    (s.block.valid = true → ∀ i : Instr, ∃ t, exec i s = .next t)

/-- DRAIN completes in every safe state, and leaves a safe state that holds the incomplete frame. -/
def Obligations.DrainCompletesInSafeStates : Prop :=
  ∀ s : State, Inv s →
    ∃ t, exec .drain s = .next t ∧ Inv t ∧
      t.block.fifo = s.block.fifo.drop (s.block.fifo.length / 19 * 19)

/-- 00_scope.md rule R16: no published register ever holds a NaN or an infinity, in any run from power-on, however
long (the rule bounds the run; log entry 20 says why no bound is needed). -/
def Obligations.PublishedValuesAreFinite : Prop :=
  ∀ (is : List Instr) (t : State), execAll is State.reset = .next t →
    isFinite t.block.integAngle = true ∧
    (t.block.valid = true → ∀ x ∈ readings t.block, isFinite x = true)

/-! ### The datapath -/

/-- 00_scope.md rules R8 and R21: the parameters the machine runs with meet their constraints, and the shape given
to `ATAN2` excludes no function that meets rule R21. -/
def Obligations.MachineParametersMeetTheirConstraints : Prop :=
  legalParams machineParams ∧
  ∀ f : F64 → F64 → F64,
    (∀ y x, isFinite y = true → isFinite x = true → atan2Allows y x (f y x) = true) →
    shapeAtan2 f = f

/-- 43_complementary_filter.md rules R197, R203 and R205: in the domain the normalisation ends, in `[0, TWO_PI)`, and
is idempotent; a value already in range is returned unchanged; outside the domain it is a model fault. -/
def Obligations.NormalisationEndsInRange : Prop :=
  ∀ x : F64,
    (normDomain x = true →
      ∃ r, formatRange0to2PI x = .ok r ∧ normalised r = true ∧ formatRange0to2PI r = .ok r) ∧
    (normalised x = true → formatRange0to2PI x = .ok x) ∧
    (normDomain x = false → formatRange0to2PI x = .error .normOutOfDomain)

/-- 43_complementary_filter.md rules R193 and R205: fast convergence makes at most one shift of one turn, and for
angles in range leaves a finite angle no further than `PI` from the accel angle, up to rounding (`2^-48`). -/
def Obligations.FastConvergenceShiftsAtMostOneTurn : Prop :=
  ∀ c a : F64,
    (formatFastConverge c a = c ∨ formatFastConverge c a = fsub c twoPi ∨
      formatFastConverge c a = fadd c twoPi) ∧
    (inTurn c = true → inTurn a = true →
      isFinite (formatFastConverge c a) = true ∧
      |fval (formatFastConverge c a) - fval a| ≤ fval pi + 2 ^ 1026)

/-- 43_complementary_filter.md rule R192: the accel angles of every frame are in range, and negative only when the
Z component is zero. `TWO_PI` itself is not excluded (log entry 13). -/
def Obligations.AccelAnglesAreInRange : Prop :=
  ∀ (p : Params) (w : FrameWords), legalParams p →
    ∀ a : Vec3, a = accelSIVec p (accelG (decodeFrame w)) →
      inTurn (accAngleOfX p a) = true ∧ inTurn (accAngleOfY p a) = true ∧
      (flt (accAngleOfX p a) 0 = true → isZero a.z = true) ∧
      (flt (accAngleOfY p a) 0 = true → isZero a.z = true)

/-- 43_complementary_filter.md rule R194: `alpha` is between 0 and 1, and exactly 1 for a zero time step. The rule
excludes 0; with the smallest legal `TAU` the quotient rounds to 0 (log entry 14). -/
def Obligations.AlphaIsAWeight : Prop :=
  ∀ (p : Params) (dt : F64), legalParams p → isFinite dt = true → 0 ≤ fval dt →
    isFinite (alphaOf p dt) = true ∧ 0 ≤ fval (alphaOf p dt) ∧ fval (alphaOf p dt) ≤ fval one ∧
    (isZero dt = true → alphaOf p dt = one)

/-- 41_sensor_scaler.md rule R156: the timestamp difference is taken modulo 2^32. -/
def Obligations.TicksWrapModulo2To32 : Prop :=
  ∀ ts prev : BitVec 32,
    ((deltaTicks ts prev).toNat : Int) = ((ts.toNat : Int) - (prev.toNat : Int)) % 2 ^ 32

/-- 42_angle_integrator.md rule R181: with equal timestamps the compensated delta is a zero with the sign of the
scaled sample, and adding it changes no value. -/
def Obligations.EqualTimestampsAddNothing : Prop :=
  ∀ (p : Params) (raw : Int), legalParams p → -2 ^ 31 ≤ raw → raw < 2 ^ 31 →
    isZero (scaleDelta p raw 0) = true ∧
    fsign (scaleDelta p raw 0) = fsign (fmul (i2f raw) p.deltaAngleSf) ∧
    ∀ x : F64, isFinite x = true → fval (integrate x (scaleDelta p raw 0) false) = fval x

/-- 00_scope.md rule R16: each frame adds less than `2^192` to the integrated angle. -/
def Obligations.EachFrameAddsLessThan2To192 : Prop :=
  ∀ (p : Params) (raw : Int) (ticks : BitVec 32), legalParams p → -2 ^ 31 ≤ raw → raw < 2 ^ 31 →
    isFinite (scaleDelta p raw ticks) = true ∧
    (fval (scaleDelta p raw ticks)).natAbs < 2 ^ 192 * oneUnits

/-! ### Binary64 arithmetic (00_scope.md rule R14) -/

/-- Sums and differences of finite values are correctly rounded, and an exact zero has the sign IEEE 754 gives
it (log entry 11, PRESUMED: the spec names IEEE 754 and takes its operations from general knowledge). -/
def Obligations.SumsAreCorrectlyRounded : Prop :=
  ∀ a b : F64, isFinite a = true → isFinite b = true →
    correctlyRounded (fval a + fval b) 1 (fadd a b) ∧
    correctlyRounded (fval a - fval b) 1 (fsub a b) ∧
    (fval a + fval b = 0 → fadd a b = fpack (fsign a && fsign b) 0) ∧
    (fval a = fval b → fsub a b = fpack (fsign a && !fsign b) 0)

/-- Products of finite values, and quotients of finite values by a nonzero one, are correctly rounded, with the
sign of IEEE 754 even for a zero (log entry 11, PRESUMED). -/
def Obligations.ProductsAndQuotientsAreCorrectlyRounded : Prop :=
  ∀ a b : F64, isFinite a = true → isFinite b = true →
    correctlyRounded (fval a * fval b) oneUnits (fmul a b) ∧
    fsign (fmul a b) = (fsign a != fsign b) ∧
    (isZero b = false →
      correctlyRounded (fval a * (fval b).sign * oneUnits) (fval b).natAbs (fdiv a b) ∧
      fsign (fdiv a b) = (fsign a != fsign b))

/-- `fsqrt` of a finite value that is not negative is the finite value nearest to the square root: no other value
is on the near side of the midpoint (log entry 11, PRESUMED). -/
def Obligations.SquareRootsAreCorrectlyRounded : Prop :=
  ∀ x : F64, isFinite x = true → fsign x = false →
    isFinite (fsqrt x) = true ∧ fsign (fsqrt x) = false ∧
    ∀ y : F64, isFinite y = true → fsign y = false →
      (fval (fsqrt x) < fval y → 4 * (fval x * oneUnits) ≤ (fval (fsqrt x) + fval y) ^ 2) ∧
      (fval y < fval (fsqrt x) → (fval (fsqrt x) + fval y) ^ 2 ≤ 4 * (fval x * oneUnits))

/-- `i2f` is exact for every integer of at most 53 bits, and zero is `+0.0`. -/
def Obligations.SmallIntegersConvertExactly : Prop :=
  (∀ n : Int, n.natAbs ≤ 2 ^ 53 → isFinite (i2f n) = true ∧ fval (i2f n) = n * oneUnits) ∧
  i2f 0 = 0x0000000000000000

/-- The operands the statements above leave out: an infinity or a NaN among the operands, a zero divisor, and the
square root of a zero or of a negative value follow IEEE 754 (log entry 11, PRESUMED). A sum of infinities keeps
the infinity or is a NaN; products and quotients have the sign of their operands; `fsqrt(-0.0)` is `-0.0`. Which
NaN an invalid operation gives is free (log entry 10). -/
def Obligations.SpecialOperandsFollowIEEE754 : Prop :=
  ∀ a b : F64,
    (isNaN a = true ∨ isNaN b = true →
      isNaN (fadd a b) = true ∧ isNaN (fsub a b) = true ∧ isNaN (fmul a b) = true ∧
      isNaN (fdiv a b) = true) ∧
    (isInf a = true → isFinite b = true →
      fadd a b = a ∧ fadd b a = a ∧ fsub a b = a ∧ fsub b a = fneg a ∧
      fdiv a b = fpack (fsign a != fsign b) infMag ∧ fdiv b a = fpack (fsign b != fsign a) 0) ∧
    (isInf a = true → isInf b = true →
      isNaN (fdiv a b) = true ∧
      (fsign a = fsign b → fadd a b = a ∧ isNaN (fsub a b) = true) ∧
      (fsign a ≠ fsign b → isNaN (fadd a b) = true ∧ fsub a b = a)) ∧
    (isInf a = true → isNaN b = false →
      (isZero b = true → isNaN (fmul a b) = true ∧ isNaN (fmul b a) = true) ∧
      (isZero b = false →
        fmul a b = fpack (fsign a != fsign b) infMag ∧ fmul b a = fpack (fsign a != fsign b) infMag)) ∧
    (isFinite a = true → isZero b = true →
      (isZero a = true → isNaN (fdiv a b) = true) ∧
      (isZero a = false → fdiv a b = fpack (fsign a != fsign b) infMag)) ∧
    (isNaN a = true → isNaN (fsqrt a) = true) ∧
    (isZero a = true → fsqrt a = a) ∧
    (isNaN a = false → isZero a = false → fsign a = true → isNaN (fsqrt a) = true) ∧
    (isInf a = true → fsign a = false → fsqrt a = a)

/-! ### Hardware before the first frame -/

/-- 10_state.md rule R46, 60_exceptions.md rule R265 and 70_reset_and_hazards.md rule R286: before the first frame
each of the ten guarded reads returns in hardware some 64-bit pattern, any one, and changes no block state, where
the model stops; every other read returns what it returns at any time. -/
def Obligations.HardwareReturnsAnUnspecifiedPatternBeforeTheFirstFrame : Prop :=
  ∀ s : State, s.block.valid = false →
    (∀ r ∈ outputReads s.block, ∀ t,
      hardwareNext r.1 s t ↔ ∃ v, t = ⟨s.block, s.port.pending, some v⟩) ∧
    ∀ i ∈ [Instr.rdStatus, .rdConfig, .rdFifoCount, .rdIntegAngle], ∀ t,
      hardwareNext i s t ↔ exec i s = .next t

/-- 60_exceptions.md rules R260 and R264, 45_register_access.md rule R220: in a safe state hardware goes on from
every instruction, the ten guarded reads before the first frame among them, and whatever pattern these return the
state after is safe. -/
def Obligations.HardwareGoesOnFromEverySafeState : Prop :=
  ∀ s : State, Inv s → ∀ i : Instr,
    (∃ t, hardwareNext i s t) ∧ ∀ t, hardwareNext i s t → Inv t

/-- 20_memory.md rules R71 and R72: from every safe state, the one at reset among them, hardware takes the oldest
transaction, whatever it is: it never fails, a read returns one 64-bit value and a write none, the transaction
leaves the queue, and the state after is safe. What `step` answers is what hardware can do. -/
def Obligations.HardwareTransactionsNeverFail : Prop :=
  (∀ s t : State, step s = .next t → hardwareStep s t) ∧
  ∀ s : State, Inv s →
    (∃ t, hardwareStep s t) ∧
    ∀ t, hardwareStep s t → Inv t ∧
      ∀ (pw : PortWord) (rest : List PortWord), s.port.pending = pw :: rest →
        t.port.pending = rest ∧ t.port.response.isSome = !pw.w
end

