-- ==== Sys2Proof/Laws/Decode.lean ====
section
/-! SUPPORT. The fields of a port word, and the words a row's mask leaves. -/

namespace Sys2Proof

/-- Every bit of a port word (30_encoding.md rule R90). -/
theorem portWord_getLsbD (w : Bool) (a : RegIndex) (d : Data) (i : Nat) :
    (portWord w a d).getLsbD i =
      if i < 64 then d.getLsbD i else if i < 69 then a.getLsbD (i - 64) else decide (i = 69) && w := by
  have h : (portWord w a d).getLsbD i =
      BitVec.getLsbD (BitVec.ofBool w ++ a ++ d : BitVec (1 + 5 + 64)) i := rfl
  rw [h, BitVec.getLsbD_append, BitVec.getLsbD_append]
  rcases Nat.lt_or_ge i 64 with h1 | h1
  · simp [h1]
  · have h1' : ¬ i < 64 := by omega
    rcases Nat.lt_or_ge i 69 with h2 | h2
    · simp [h1', h2, show i - 64 < 5 by omega]
    · simp [h1', show ¬ i < 69 by omega, show ¬ i - 64 < 5 by omega,
        show (i - 64 - 5 = 0) ↔ i = 69 by omega]

@[simp] theorem portWord_w (w : Bool) (a : RegIndex) (d : Data) : PortWord.w (portWord w a d) = w := by
  rw [PortWord.w, portWord_getLsbD]
  simp

@[simp] theorem portWord_a (w : Bool) (a : RegIndex) (d : Data) : PortWord.a (portWord w a d) = a := by
  apply BitVec.eq_of_getLsbD_eq
  intro i hi
  rw [PortWord.a, BitVec.getLsbD_extractLsb', portWord_getLsbD]
  simp [hi, show 64 + i < 69 by omega]

@[simp] theorem portWord_d (w : Bool) (a : RegIndex) (d : Data) : PortWord.d (portWord w a d) = d := by
  apply BitVec.eq_of_getLsbD_eq
  intro i hi
  rw [PortWord.d, BitVec.getLsbD_extractLsb', portWord_getLsbD]
  simp [hi]

/-- A port word is its three fields (30_encoding.md rule R90). -/
theorem portWord_fields (pw : PortWord) : portWord pw.w pw.a pw.d = pw := by
  apply BitVec.eq_of_getLsbD_eq
  intro i hi
  simp only [portWord_getLsbD, PortWord.w, PortWord.a, PortWord.d, BitVec.getLsbD_extractLsb']
  rcases Nat.lt_or_ge i 64 with h | h
  · simp [h]
  · rcases Nat.lt_or_ge i 69 with h' | h'
    · simp [show ¬ i < 64 by omega, h', show i - 64 < 5 by omega, show 64 + (i - 64) = i by omega]
    · have h0 : i = 69 := by omega
      subst h0
      simp

theorem decode_portWord_write (a : RegIndex) (d : Data) :
    decode (portWord true a d) = decodeWrite a d := by simp [decode]

theorem decode_portWord_read (a : RegIndex) (d : Data) :
    decode (portWord false a d) = decodeRead a := by simp [decode]

/-- The mask of `W` and `A` clears `D`. -/
theorem portWord_and_indexMask (w : Bool) (a : RegIndex) (d : Data) :
    portWord w a d &&& 0x3F0000000000000000 = portWord w a 0 := by
  apply BitVec.eq_of_getLsbD_eq
  intro i hi
  have hm : ∀ i : Fin 70, (0x3F0000000000000000 : BitVec 70).getLsbD i = decide (64 ≤ i.val) := by
    decide
  have hmi := hm ⟨i, hi⟩
  simp only at hmi
  rw [BitVec.getLsbD_and, hmi]
  rw [portWord_getLsbD, portWord_getLsbD]
  rcases Nat.lt_or_ge i 64 with h | h
  · simp [h]
  · simp [show ¬ i < 64 by omega, h]

/-- The mask of `W` clears `A` and `D`. -/
theorem portWord_and_directionMask (w : Bool) (a : RegIndex) (d : Data) :
    portWord w a d &&& 0x200000000000000000 = portWord w 0 0 := by
  apply BitVec.eq_of_getLsbD_eq
  intro i hi
  have hm : ∀ i : Fin 70, (0x200000000000000000 : BitVec 70).getLsbD i = decide (69 ≤ i.val) := by
    decide
  have hmi := hm ⟨i, hi⟩
  simp only at hmi
  rw [BitVec.getLsbD_and, hmi]
  rw [portWord_getLsbD, portWord_getLsbD]
  rcases Nat.lt_or_ge i 69 with h | h
  · simp [h]
  · simp [show ¬ i < 64 by omega, show ¬ i < 69 by omega, h]

end Sys2Proof
end

