-- ==== Sys2Proof/Laws/Float.lean ====
section
/-! SUPPORT. The laws of the binary64 arithmetic: patterns, units, rounding that is exact on representable
values and monotone, and the bounds on each operation that follow. -/

namespace Sys2Proof.Machine

/-! ### Patterns -/

theorem fmag_lt (x : F64) : fmag x < 2 ^ 63 := Nat.mod_lt _ (by norm_num)

theorem fsign_eq (x : F64) : fsign x = decide (2 ^ 63 ≤ x.toNat) := by
  have hx := x.isLt
  rw [fsign, ← BitVec.msb_eq_getLsbD_last x, BitVec.msb_eq_decide]

theorem toNat_eq (x : F64) : x.toNat = (if fsign x then 2 ^ 63 else 0) + fmag x := by
  have hx := x.isLt
  simp only [fsign_eq, fmag, decide_eq_true_eq]
  split <;> omega

theorem fpack_toNat (s : Bool) {m : Nat} (h : m < 2 ^ 63) :
    (fpack s m).toNat = (if s then 2 ^ 63 else 0) + m := by
  simp only [fpack, BitVec.toNat_ofNat]
  cases s
  · simp; omega
  · simp; omega

@[simp] theorem fmag_fpack (s : Bool) {m : Nat} (h : m < 2 ^ 63) : fmag (fpack s m) = m := by
  rw [fmag, fpack_toNat s h]
  cases s
  · simp; omega
  · simp; omega

@[simp] theorem fsign_fpack (s : Bool) {m : Nat} (h : m < 2 ^ 63) : fsign (fpack s m) = s := by
  rw [fsign_eq, fpack_toNat s h]
  cases s
  · simp; omega
  · simp

@[simp] theorem fpack_sign_mag (x : F64) : fpack (fsign x) (fmag x) = x := by
  apply BitVec.eq_of_toNat_eq
  rw [fpack_toNat _ (fmag_lt x), ← toNat_eq]

@[simp] theorem fmag_fneg (x : F64) : fmag (fneg x) = fmag x := by
  rw [fneg, fmag_fpack _ (fmag_lt x)]

@[simp] theorem fsign_fneg (x : F64) : fsign (fneg x) = !fsign x := by
  rw [fneg, fsign_fpack _ (fmag_lt x)]

@[simp] theorem fval_fneg (x : F64) : fval (fneg x) = -fval x := by
  simp only [fval, fmag_fneg, fsign_fneg]
  cases fsign x <;> simp

theorem fval_fpack (s : Bool) {m : Nat} (h : m < 2 ^ 63) :
    fval (fpack s m) = if s then -(units m : Int) else (units m : Int) := by
  rw [fval, fmag_fpack s h, fsign_fpack s h]

theorem natAbs_fval (x : F64) : (fval x).natAbs = units (fmag x) := by
  rw [fval]; split <;> simp

/-! ### Units -/

theorem units_small {m : Nat} (h : m < 2 ^ 53) : units m = m := by
  unfold units
  split
  · rfl
  · have h1 : m / 2 ^ 52 = 1 := by omega
    rw [h1]; omega

/-- A pattern written as an exponent step and a significand of at most 53 bits. -/
theorem units_scaled {k q : Nat} (hq : q ≤ 2 ^ 53) (h : 2 ^ 52 ≤ q ∨ k = 0) :
    units (k * 2 ^ 52 + q) = q * 2 ^ k := by
  rcases Nat.lt_or_ge q (2 ^ 52) with hlt | hge
  · have hk : k = 0 := by omega
    subst hk
    simp only [Nat.zero_mul, Nat.zero_add, Nat.pow_zero, Nat.mul_one]
    exact units_small (by omega)
  · unfold units
    rw [if_neg (by omega)]
    rcases Nat.lt_or_ge q (2 ^ 53) with h53 | h53
    · have h1 : (k * 2 ^ 52 + q) / 2 ^ 52 - 1 = k := by omega
      have h2 : 2 ^ 52 + (k * 2 ^ 52 + q) % 2 ^ 52 = q := by omega
      rw [h1, h2]
    · have hq' : q = 2 ^ 53 := by omega
      have h1 : (k * 2 ^ 52 + q) / 2 ^ 52 - 1 = k + 1 := by omega
      have h2 : 2 ^ 52 + (k * 2 ^ 52 + q) % 2 ^ 52 = 2 ^ 52 := by omega
      rw [h1, h2, hq', pow_succ 2 k]
      ring

theorem exists_scaled (m : Nat) :
    ∃ k q, m = k * 2 ^ 52 + q ∧ q < 2 ^ 53 ∧ (2 ^ 52 ≤ q ∨ k = 0) ∧ units m = q * 2 ^ k := by
  rcases Nat.lt_or_ge m (2 ^ 53) with h | h
  · exact ⟨0, m, by omega, h, .inr rfl, by rw [units_small h]; simp⟩
  · refine ⟨m / 2 ^ 52 - 1, m % 2 ^ 52 + 2 ^ 52, by omega, by omega, .inl (by omega), ?_⟩
    unfold units
    rw [if_neg (by omega)]
    ring

theorem units_lt_succ (m : Nat) : units m < units (m + 1) := by
  obtain ⟨k, q, rfl, hq, hk, hu⟩ := exists_scaled m
  have h : units (k * 2 ^ 52 + q + 1) = (q + 1) * 2 ^ k := by
    rw [Nat.add_assoc]
    exact units_scaled (by omega) (by omega)
  rw [h, hu]
  exact Nat.mul_lt_mul_of_pos_right (by omega) (by positivity)

theorem units_strictMono : StrictMono units := strictMono_nat_of_lt_succ units_lt_succ

theorem units_le_iff {m m' : Nat} : units m ≤ units m' ↔ m ≤ m' := units_strictMono.le_iff_le

theorem units_lt_iff {m m' : Nat} : units m < units m' ↔ m < m' := units_strictMono.lt_iff_lt

@[simp] theorem units_zero : units 0 = 0 := rfl

/-! ### Rounding a quotient to an integer -/

theorem roundQuot_bounds (n d : Nat) : n / d ≤ roundQuot n d ∧ roundQuot n d ≤ n / d + 1 := by
  unfold roundQuot
  split
  · omega
  · split <;> omega

/-- Rounding is monotone in the quotient. -/
theorem roundQuot_mono {n d n' d' : Nat} (hd : 0 < d) (hd' : 0 < d') (h : n * d' ≤ n' * d) :
    roundQuot n d ≤ roundQuot n' d' := by
  have hle : n / d ≤ n' / d' := by
    rw [Nat.le_div_iff_mul_le hd']
    have h1 : n / d * d ≤ n := Nat.div_mul_le_self n d
    have h2 : n / d * d' * d ≤ n' * d := by
      calc n / d * d' * d = n / d * d * d' := by ring
        _ ≤ n * d' := Nat.mul_le_mul_right _ h1
        _ ≤ n' * d := h
    exact Nat.le_of_mul_le_mul_right h2 hd
  rcases Nat.lt_or_ge (n / d) (n' / d') with hlt | hge
  · have := roundQuot_bounds n d
    have := roundQuot_bounds n' d'
    omega
  · have heq : n / d = n' / d' := by omega
    have hn := Nat.div_add_mod n d
    have hn' := Nat.div_add_mod n' d'
    have hr : n % d * d' ≤ n' % d' * d := by
      have h3 : (d * (n' / d') + n % d) * d' ≤ (d' * (n' / d') + n' % d') * d := by
        rw [← heq] at *
        rw [hn, heq, hn']; exact h
      nlinarith
    unfold roundQuot
    rw [heq]
    split
    · split
      · omega
      · split <;> omega
    · rename_i h1
      split
      · rename_i h2
        rw [if_neg, if_pos]
        · nlinarith
        · nlinarith
      · rename_i h2
        have h4 : 2 * (n % d) = d := by omega
        split
        · exfalso; nlinarith
        · split
          · omega
          · omega

theorem roundQuot_exact (q : Nat) {d : Nat} (hd : 0 < d) : roundQuot (q * d) d = q := by
  simp [roundQuot, Nat.mul_div_cancel q hd, hd]

/-! ### Rounding to a pattern -/

/-- The exponent step of a quotient. -/
theorem step_cases (v : Nat) : (v.log2 - 52 = 0 ∧ v < 2 ^ 53) ∨
    (0 < v.log2 - 52 ∧ 2 ^ (52 + (v.log2 - 52)) ≤ v ∧ v < 2 ^ (53 + (v.log2 - 52))) := by
  rcases Nat.eq_zero_or_pos v with rfl | hv
  · left; simp
  have h1 : 2 ^ v.log2 ≤ v := Nat.log2_self_le (by omega)
  have h2 : v < 2 ^ (v.log2 + 1) := Nat.lt_log2_self
  rcases Nat.lt_or_ge v.log2 53 with h | h
  · left
    refine ⟨by omega, lt_of_lt_of_le h2 (Nat.pow_le_pow_right (by norm_num) (by omega))⟩
  · right
    refine ⟨by omega, ?_, ?_⟩
    · rwa [show 52 + (v.log2 - 52) = v.log2 by omega]
    · rwa [show 53 + (v.log2 - 52) = v.log2 + 1 by omega]

/-- The significand before the infinity cut: at most 53 bits, and full when the exponent moves. -/
theorem significand_bounds (n d : Nat) :
    roundQuot n (d * 2 ^ ((n / d).log2 - 52)) ≤ 2 ^ 53 ∧
    ((n / d).log2 - 52 = 0 ∨ 2 ^ 52 ≤ roundQuot n (d * 2 ^ ((n / d).log2 - 52))) := by
  have hb := roundQuot_bounds n (d * 2 ^ ((n / d).log2 - 52))
  rw [← Nat.div_div_eq_div_mul] at hb
  rcases step_cases (n / d) with ⟨h0, hlt⟩ | ⟨hpos, hge, hlt⟩
  · rw [h0, pow_zero, Nat.div_one, Nat.mul_one] at hb
    rw [h0, pow_zero, Nat.mul_one]
    exact ⟨by omega, .inl rfl⟩
  · set k := (n / d).log2 - 52 with hk
    have h1 : 2 ^ 52 ≤ n / d / 2 ^ k := by
      rw [Nat.le_div_iff_mul_le (by positivity), ← pow_add]
      exact hge
    have h2 : n / d / 2 ^ k < 2 ^ 53 := by
      rw [Nat.div_lt_iff_lt_mul (by positivity), ← pow_add]
      exact hlt
    exact ⟨by omega, .inr (by omega)⟩

/-- Rounding to a pattern is monotone in the quotient. -/
theorem roundMag_mono {n d n' d' : Nat} (hd : 0 < d) (hd' : 0 < d') (h : n * d' ≤ n' * d) :
    roundMag n d ≤ roundMag n' d' := by
  have hle : n / d ≤ n' / d' := by
    rw [Nat.le_div_iff_mul_le hd']
    have h2 : n / d * d' * d ≤ n' * d := by
      calc n / d * d' * d = n / d * d * d' := by ring
        _ ≤ n * d' := Nat.mul_le_mul_right _ (Nat.div_mul_le_self n d)
        _ ≤ n' * d := h
    exact Nat.le_of_mul_le_mul_right h2 hd
  have hk : (n / d).log2 - 52 ≤ (n' / d').log2 - 52 := by
    have : (n / d).log2 ≤ (n' / d').log2 := by
      rw [Nat.log2_eq_log_two, Nat.log2_eq_log_two]
      exact Nat.log_mono_right hle
    omega
  have hb := significand_bounds n d
  have hb' := significand_bounds n' d'
  unfold roundMag
  apply min_le_min_right
  rcases Nat.lt_or_ge ((n / d).log2 - 52) ((n' / d').log2 - 52) with hlt | hge
  · omega
  · have heq : (n / d).log2 - 52 = (n' / d').log2 - 52 := by omega
    rw [heq]
    have := roundQuot_mono (n := n) (d := d * 2 ^ ((n' / d').log2 - 52)) (n' := n')
      (d' := d' * 2 ^ ((n' / d').log2 - 52)) (by positivity) (by positivity) (by
        calc n * (d' * 2 ^ ((n' / d').log2 - 52)) = n * d' * 2 ^ ((n' / d').log2 - 52) := by ring
          _ ≤ n' * d * 2 ^ ((n' / d').log2 - 52) := Nat.mul_le_mul_right _ h
          _ = n' * (d * 2 ^ ((n' / d').log2 - 52)) := by ring)
    omega

theorem roundMag_le (n d : Nat) : roundMag n d ≤ infMag := Nat.min_le_right _ _

theorem roundMag_lt (n d : Nat) : roundMag n d < 2 ^ 63 :=
  lt_of_le_of_lt (roundMag_le n d) (by norm_num [infMag])

/-- A representable value rounds to itself. -/
theorem roundMag_exact {m d : Nat} (hd : 0 < d) (hm : m ≤ infMag) :
    roundMag (units m * d) d = m := by
  obtain ⟨k, q, rfl, hq, hk, hu⟩ := exists_scaled m
  have hdiv : units (k * 2 ^ 52 + q) * d / d = q * 2 ^ k := by
    rw [Nat.mul_div_cancel _ hd, hu]
  have hlog : (q * 2 ^ k).log2 - 52 = k := by
    rcases hk with h52 | rfl
    · have h1 : (q * 2 ^ k).log2 = 52 + k := by
        rw [Nat.log2_eq_iff (by positivity)]
        constructor
        · rw [pow_add]; exact Nat.mul_le_mul_right _ h52
        · rw [show 52 + k + 1 = 53 + k by omega, pow_add]
          exact Nat.mul_lt_mul_of_pos_right hq (by positivity)
      omega
    · rcases Nat.eq_zero_or_pos q with rfl | hq0
      · simp
      · have : (q * 2 ^ 0).log2 < 53 := by
          rw [Nat.log2_lt (by simp; omega)]
          simpa using hq
        omega
  unfold roundMag
  rw [hdiv, hlog, hu, Nat.mul_assoc, Nat.mul_comm (2 ^ k) d, roundQuot_exact _ (by positivity)]
  exact Nat.min_eq_left hm

/-- Below a representable value before rounding, below it after. -/
theorem roundMag_le_of_le {n d m : Nat} (hd : 0 < d) (hm : m ≤ infMag) (h : n ≤ units m * d) :
    roundMag n d ≤ m := by
  rw [← roundMag_exact hd hm]
  exact roundMag_mono hd hd (by nlinarith)

/-- Above a representable value before rounding, above it after. -/
theorem le_roundMag_of_le {n d m : Nat} (hd : 0 < d) (hm : m ≤ infMag) (h : units m * d ≤ n) :
    m ≤ roundMag n d := by
  rw [← roundMag_exact (m := m) hd hm]
  exact roundMag_mono hd hd (by nlinarith)

@[simp] theorem roundMag_zero (d : Nat) : roundMag 0 d = 0 := by
  simp [roundMag, roundQuot, infMag]

/-! ### Values -/

theorem isFinite_iff {x : F64} : isFinite x = true ↔ fmag x < infMag := by simp [isFinite]

theorem isNaN_of_finite {x : F64} (h : isFinite x = true) : isNaN x = false := by
  simp only [isFinite_iff] at h
  simp only [isNaN, decide_eq_false_iff_not]; omega

theorem isInf_of_finite {x : F64} (h : isFinite x = true) : isInf x = false := by
  simp only [isFinite_iff] at h
  simp only [isInf, beq_eq_false_iff_ne]; omega

@[simp] theorem isFinite_fneg (x : F64) : isFinite (fneg x) = isFinite x := by simp [isFinite]

/-- A finite value lies strictly inside the infinities' stand-ins. -/
theorem natAbs_fval_lt {x : F64} (h : isFinite x = true) : (fval x).natAbs < units infMag := by
  rw [natAbs_fval, units_lt_iff]
  exact isFinite_iff.mp h

/-- A signed magnitude rounded: bounded above by every representable value that bounds the exact one. -/
theorem fval_round_le {z : Int} {d : Nat} {c : F64} (hd : 0 < d) (hc : isFinite c = true)
    (h : z ≤ fval c * d) :
    fval (fpack (decide (z < 0)) (roundMag z.natAbs d)) ≤ fval c := by
  have hcm := isFinite_iff.mp hc
  rw [fval_fpack _ (roundMag_lt _ _)]
  rcases lt_or_ge z 0 with hz | hz
  · simp only [hz, decide_true, if_true]
    rcases le_or_gt 0 (fval c) with hc0 | hc0
    · have : (0 : Int) ≤ (units (roundMag z.natAbs d) : Int) := Int.natCast_nonneg _
      omega
    · have hs : fsign c = true := by
        by_contra hs
        simp only [fval, hs] at hc0
        have : (0 : Int) ≤ (units (fmag c) : Int) := Int.natCast_nonneg _
        simp at hc0
        omega
      have hv : fval c = -(units (fmag c) : Int) := by rw [fval, hs]; rfl
      have hle : fmag c ≤ roundMag z.natAbs d := by
        apply le_roundMag_of_le hd hcm.le
        rw [hv] at h
        have : (units (fmag c) : Int) * d ≤ -z := by linarith
        have h2 : (-z).natAbs = z.natAbs := by omega
        zify
        rw [abs_of_neg hz]
        exact this
      rw [hv, Int.neg_le_neg_iff]
      exact_mod_cast units_le_iff.mpr hle
  · have hz' : ¬ z < 0 := by omega
    simp only [hz', decide_false, Bool.false_eq_true, if_false]
    have hc0 : 0 ≤ fval c := by
      by_contra hneg
      have : fval c * d < 0 := mul_neg_of_neg_of_pos (by omega) (by exact_mod_cast hd)
      omega
    have hv : fval c = (units (fmag c) : Int) := by
      rw [fval] at hc0 ⊢
      split at hc0
      · have : units (fmag c) = 0 := by omega
        simp [this]
      · rename_i hs; simp [hs]
    rw [hv]
    have : roundMag z.natAbs d ≤ fmag c := by
      apply roundMag_le_of_le hd hcm.le
      rw [hv] at h
      zify
      rw [abs_of_nonneg hz]
      exact h
    exact_mod_cast units_le_iff.mpr this

/-- The same from below. -/
theorem le_fval_round {z : Int} {d : Nat} {c : F64} (hd : 0 < d) (hc : isFinite c = true)
    (h : fval c * d ≤ z) :
    fval c ≤ fval (fpack (decide (z < 0)) (roundMag z.natAbs d)) := by
  have hflip : fval (fpack (decide (z < 0)) (roundMag z.natAbs d)) =
      -fval (fpack (decide (-z < 0)) (roundMag (-z).natAbs d)) := by
    rw [fval_fpack _ (roundMag_lt _ _), fval_fpack _ (roundMag_lt _ _), Int.natAbs_neg]
    rcases lt_trichotomy z 0 with hz | rfl | hz
    · have : ¬ 0 < z := by omega
      simp [hz, this]
    · simp
    · have h1 : ¬ z < 0 := by omega
      simp [h1, hz]
  have := fval_round_le (z := -z) (c := fneg c) hd (by simpa using hc) (by
    rw [fval_fneg]; nlinarith)
  rw [fval_fneg] at this
  rw [hflip]
  omega

/-! ### Sums -/

/-- The sum of finite operands, as a rounded integer. -/
theorem fval_fadd {a b : F64} (ha : isFinite a = true) (hb : isFinite b = true) :
    fval (fadd a b) =
      fval (fpack (decide (fval a + fval b < 0)) (roundMag (fval a + fval b).natAbs 1)) := by
  simp only [fadd, faddWith, isNaN_of_finite ha, isNaN_of_finite hb, isInf_of_finite ha,
    isInf_of_finite hb, faddFinite]
  by_cases h : fval a + fval b = 0
  · rw [fval_fpack _ (roundMag_lt _ _)]
    simp only [Bool.or_self, Bool.false_eq_true, if_false, h, if_true]
    rw [fval_fpack _ (by norm_num)]
    simp
  · simp [h]

theorem fsub_eq_fadd_fneg {a b : F64} (ha : isFinite a = true) (hb : isFinite b = true) :
    fsub a b = fadd a (fneg b) := by
  have hb' : isFinite (fneg b) = true := by simpa using hb
  simp [fsub, fadd, faddWith, isNaN_of_finite ha, isNaN_of_finite hb, isNaN_of_finite hb',
    isInf_of_finite ha, isInf_of_finite hb']

/-- A sum is at most every representable value its exact value is at most. -/
theorem fval_fadd_le {a b c : F64} (ha : isFinite a = true) (hb : isFinite b = true)
    (hc : isFinite c = true) (h : fval a + fval b ≤ fval c) : fval (fadd a b) ≤ fval c := by
  rw [fval_fadd ha hb]
  exact fval_round_le one_pos hc (by simpa using h)

/-- A sum is at least every representable value its exact value is at least. -/
theorem le_fval_fadd {a b c : F64} (ha : isFinite a = true) (hb : isFinite b = true)
    (hc : isFinite c = true) (h : fval c ≤ fval a + fval b) : fval c ≤ fval (fadd a b) := by
  rw [fval_fadd ha hb]
  exact le_fval_round one_pos hc (by simpa using h)

/-! ### Products and quotients -/

theorem fmul_finite {a b : F64} (ha : isFinite a = true) (hb : isFinite b = true) :
    fmul a b = fpack (fsign a != fsign b) (roundMag (units (fmag a) * units (fmag b)) oneUnits) := by
  simp [fmul, isNaN_of_finite ha, isNaN_of_finite hb, isInf_of_finite ha, isInf_of_finite hb]

/-- A product's magnitude is at most every pattern whose value bounds the exact product. -/
theorem fmag_fmul_le {a b : F64} {m : Nat} (ha : isFinite a = true) (hb : isFinite b = true)
    (hm : m ≤ infMag) (h : units (fmag a) * units (fmag b) ≤ units m * oneUnits) :
    fmag (fmul a b) ≤ m := by
  rw [fmul_finite ha hb, fmag_fpack _ (roundMag_lt _ _)]
  exact roundMag_le_of_le (by norm_num [oneUnits]) hm h

theorem fdiv_finite {a b : F64} (ha : isFinite a = true) (hb : isFinite b = true)
    (h0 : isZero b = false) :
    fdiv a b = fpack (fsign a != fsign b) (roundMag (units (fmag a) * oneUnits) (units (fmag b))) := by
  simp [fdiv, isNaN_of_finite ha, isNaN_of_finite hb, isInf_of_finite ha, isInf_of_finite hb, h0]

/-- A quotient's magnitude is at most every pattern whose value bounds the exact quotient. -/
theorem fmag_fdiv_le {a b : F64} {m : Nat} (ha : isFinite a = true) (hb : isFinite b = true)
    (h0 : isZero b = false) (hm : m ≤ infMag)
    (h : units (fmag a) * oneUnits ≤ units m * units (fmag b)) : fmag (fdiv a b) ≤ m := by
  rw [fdiv_finite ha hb h0, fmag_fpack _ (roundMag_lt _ _)]
  refine roundMag_le_of_le ?_ hm h
  have : 0 < fmag b := by
    simp only [isZero, beq_eq_false_iff_ne] at h0
    omega
  calc 0 = units 0 := rfl
    _ < units (fmag b) := units_lt_iff.mpr this

/-! ### The integer square root -/

theorem isqrtGo_spec (n : Nat) : ∀ k r, r * r ≤ n → n < (r + 2 ^ k) * (r + 2 ^ k) →
    isqrtGo n k r * isqrtGo n k r ≤ n ∧ n < (isqrtGo n k r + 1) * (isqrtGo n k r + 1)
  | 0, r, h1, h2 => by simpa [isqrtGo] using ⟨h1, h2⟩
  | k + 1, r, h1, h2 => by
    unfold isqrtGo
    have hp : 2 ^ (k + 1) = 2 ^ k + 2 ^ k := by rw [pow_succ]; ring
    split
    · rename_i h
      exact isqrtGo_spec n k _ h (by rw [Nat.add_assoc, ← hp]; exact h2)
    · rename_i h
      exact isqrtGo_spec n k r h1 (by omega)

/-- `isqrt n` is the largest integer whose square is at most `n`. -/
theorem isqrt_spec (n : Nat) : isqrt n * isqrt n ≤ n ∧ n < (isqrt n + 1) * (isqrt n + 1) := by
  apply isqrtGo_spec n _ 0 (by simp)
  have h : n < 2 ^ (n.log2 + 1) := Nat.lt_log2_self
  calc n < 2 ^ (n.log2 + 1) := h
    _ ≤ 2 ^ ((n.log2 / 2 + 1) + (n.log2 / 2 + 1)) := Nat.pow_le_pow_right (by norm_num) (by omega)
    _ = (0 + 2 ^ (n.log2 / 2 + 1)) * (0 + 2 ^ (n.log2 / 2 + 1)) := by rw [pow_add]; simp

/-! ### NaN -/

/-- The NaN of an invalid operation is a NaN, whatever its free bits. -/
@[simp] theorem isNaN_nanOf (op : FOp) (a b : F64) : isNaN (nanOf op a b) = true := by
  generalize hn : nanOf op a b = n
  have hbits : n.extractLsb' 51 12 = 0xFFF := by
    rw [← hn]
    apply BitVec.eq_of_getLsbD_eq
    intro i hi
    simp only [nanOf, BitVec.getLsbD_extractLsb', BitVec.getLsbD_append, hi, decide_true,
      Bool.true_and, show ¬ 51 + i < 51 by omega, if_false, show 51 + i - 51 = i by omega, if_true]
  have h : n.toNat / 2 ^ 51 % 2 ^ 12 = 0xFFF := by
    have := congrArg BitVec.toNat hbits
    rwa [BitVec.extractLsb'_toNat, Nat.shiftRight_eq_div_pow] at this
  apply decide_eq_true
  show 0x7FF0000000000000 < n.toNat % 2 ^ 63
  omega

/-- A NaN operand gives a NaN. -/
theorem isNaN_fadd {a b : F64} (h : isNaN a = true ∨ isNaN b = true) : isNaN (fadd a b) = true := by
  have : (isNaN a || isNaN b) = true := by simpa using h
  simp [fadd, this]

theorem isNaN_fmul {a b : F64} (h : isNaN a = true ∨ isNaN b = true) : isNaN (fmul a b) = true := by
  have : (isNaN a || isNaN b) = true := by simpa using h
  simp [fmul, this]

theorem isFinite_of_isNaN {a : F64} (h : isNaN a = true) : isFinite a = false := by
  simp only [isNaN, decide_eq_true_eq] at h
  simp only [isFinite, decide_eq_false_iff_not]; omega

/-- A comparison with a NaN is false (00_scope.md rule R14). -/
theorem flt_of_isNaN {a b : F64} (h : isNaN a = true ∨ isNaN b = true) : flt a b = false := by
  rcases h with h | h <;> simp [flt, h]

end Sys2Proof.Machine
end

