-- ==== Sys2Proof/Laws/State.lean ====
section
/-! SUPPORT. One lemma per field per update of the state: no later proof unfolds a record update. -/

namespace Sys2Proof.Machine

/-! ### The port and the block -/

@[simp] theorem respond_block (v : Data) (s : State) : (respond v s).block = s.block := rfl
@[simp] theorem respond_pending (v : Data) (s : State) :
    (respond v s).port.pending = s.port.pending := rfl
@[simp] theorem respond_response (v : Data) (s : State) : (respond v s).port.response = some v := rfl
@[simp] theorem commit_block (b : Block) (s : State) : (commit b s).block = b := rfl
@[simp] theorem commit_pending (b : Block) (s : State) :
    (commit b s).port.pending = s.port.pending := rfl
@[simp] theorem commit_response (b : Block) (s : State) : (commit b s).port.response = none := rfl
@[simp] theorem commit_commit (b b' : Block) (s : State) : commit b (commit b' s) = commit b s := rfl
@[simp] theorem withPending_block (s : State) (r : List PortWord) :
    (s.withPending r).block = s.block := rfl
@[simp] theorem withPending_pending (s : State) (r : List PortWord) :
    (s.withPending r).port.pending = r := rfl
@[simp] theorem withPending_response (s : State) (r : List PortWord) :
    (s.withPending r).port.response = s.port.response := rfl
@[simp] theorem withPending_withPending (s : State) (r r' : List PortWord) :
    (s.withPending r).withPending r' = s.withPending r' := rfl
@[simp] theorem withPending_self (s : State) : s.withPending s.port.pending = s := rfl

/-! ### `setIllegal` -/

@[simp] theorem setIllegal_fifo (b : Block) : (setIllegal b).fifo = b.fifo := rfl
@[simp] theorem setIllegal_first (b : Block) : (setIllegal b).first = b.first := rfl
@[simp] theorem setIllegal_prevTs (b : Block) : (setIllegal b).prevTs = b.prevTs := rfl
@[simp] theorem setIllegal_compX (b : Block) : (setIllegal b).compX = b.compX := rfl
@[simp] theorem setIllegal_compY (b : Block) : (setIllegal b).compY = b.compY := rfl
@[simp] theorem setIllegal_valid (b : Block) : (setIllegal b).valid = b.valid := rfl
@[simp] theorem setIllegal_illegal (b : Block) : (setIllegal b).illegal = true := rfl
@[simp] theorem setIllegal_ovf (b : Block) : (setIllegal b).ovf = b.ovf := rfl
@[simp] theorem setIllegal_yawAxis (b : Block) : (setIllegal b).yawAxis = b.yawAxis := rfl
@[simp] theorem setIllegal_integAngle (b : Block) : (setIllegal b).integAngle = b.integAngle := rfl
@[simp] theorem setIllegal_gyroX (b : Block) : (setIllegal b).gyroX = b.gyroX := rfl
@[simp] theorem setIllegal_gyroY (b : Block) : (setIllegal b).gyroY = b.gyroY := rfl
@[simp] theorem setIllegal_gyroZ (b : Block) : (setIllegal b).gyroZ = b.gyroZ := rfl
@[simp] theorem setIllegal_accelX (b : Block) : (setIllegal b).accelX = b.accelX := rfl
@[simp] theorem setIllegal_accelY (b : Block) : (setIllegal b).accelY = b.accelY := rfl
@[simp] theorem setIllegal_accelZ (b : Block) : (setIllegal b).accelZ = b.accelZ := rfl
@[simp] theorem setIllegal_accAngleX (b : Block) : (setIllegal b).accAngleX = b.accAngleX := rfl
@[simp] theorem setIllegal_accAngleY (b : Block) : (setIllegal b).accAngleY = b.accAngleY := rfl
@[simp] theorem setIllegal_compAngleX (b : Block) : (setIllegal b).compAngleX = b.compAngleX := rfl
@[simp] theorem setIllegal_compAngleY (b : Block) : (setIllegal b).compAngleY = b.compAngleY := rfl

/-! ### `setOvf` -/

@[simp] theorem setOvf_fifo (b : Block) : (setOvf b).fifo = b.fifo := rfl
@[simp] theorem setOvf_first (b : Block) : (setOvf b).first = b.first := rfl
@[simp] theorem setOvf_prevTs (b : Block) : (setOvf b).prevTs = b.prevTs := rfl
@[simp] theorem setOvf_compX (b : Block) : (setOvf b).compX = b.compX := rfl
@[simp] theorem setOvf_compY (b : Block) : (setOvf b).compY = b.compY := rfl
@[simp] theorem setOvf_valid (b : Block) : (setOvf b).valid = b.valid := rfl
@[simp] theorem setOvf_illegal (b : Block) : (setOvf b).illegal = b.illegal := rfl
@[simp] theorem setOvf_ovf (b : Block) : (setOvf b).ovf = true := rfl
@[simp] theorem setOvf_yawAxis (b : Block) : (setOvf b).yawAxis = b.yawAxis := rfl
@[simp] theorem setOvf_integAngle (b : Block) : (setOvf b).integAngle = b.integAngle := rfl
@[simp] theorem setOvf_gyroX (b : Block) : (setOvf b).gyroX = b.gyroX := rfl
@[simp] theorem setOvf_gyroY (b : Block) : (setOvf b).gyroY = b.gyroY := rfl
@[simp] theorem setOvf_gyroZ (b : Block) : (setOvf b).gyroZ = b.gyroZ := rfl
@[simp] theorem setOvf_accelX (b : Block) : (setOvf b).accelX = b.accelX := rfl
@[simp] theorem setOvf_accelY (b : Block) : (setOvf b).accelY = b.accelY := rfl
@[simp] theorem setOvf_accelZ (b : Block) : (setOvf b).accelZ = b.accelZ := rfl
@[simp] theorem setOvf_accAngleX (b : Block) : (setOvf b).accAngleX = b.accAngleX := rfl
@[simp] theorem setOvf_accAngleY (b : Block) : (setOvf b).accAngleY = b.accAngleY := rfl
@[simp] theorem setOvf_compAngleX (b : Block) : (setOvf b).compAngleX = b.compAngleX := rfl
@[simp] theorem setOvf_compAngleY (b : Block) : (setOvf b).compAngleY = b.compAngleY := rfl

/-! ### `clearSticky` -/

@[simp] theorem clearSticky_fifo (d : Data) (b : Block) : (clearSticky d b).fifo = b.fifo := rfl
@[simp] theorem clearSticky_first (d : Data) (b : Block) : (clearSticky d b).first = b.first := rfl
@[simp] theorem clearSticky_prevTs (d : Data) (b : Block) :
    (clearSticky d b).prevTs = b.prevTs := rfl
@[simp] theorem clearSticky_compX (d : Data) (b : Block) : (clearSticky d b).compX = b.compX := rfl
@[simp] theorem clearSticky_compY (d : Data) (b : Block) : (clearSticky d b).compY = b.compY := rfl
@[simp] theorem clearSticky_valid (d : Data) (b : Block) : (clearSticky d b).valid = b.valid := rfl
@[simp] theorem clearSticky_illegal (d : Data) (b : Block) :
    (clearSticky d b).illegal = (b.illegal && !clearsIllegal d) := rfl
@[simp] theorem clearSticky_ovf (d : Data) (b : Block) :
    (clearSticky d b).ovf = (b.ovf && !clearsOvf d) := rfl
@[simp] theorem clearSticky_yawAxis (d : Data) (b : Block) :
    (clearSticky d b).yawAxis = b.yawAxis := rfl
@[simp] theorem clearSticky_integAngle (d : Data) (b : Block) :
    (clearSticky d b).integAngle = b.integAngle := rfl
@[simp] theorem clearSticky_gyroX (d : Data) (b : Block) : (clearSticky d b).gyroX = b.gyroX := rfl
@[simp] theorem clearSticky_gyroY (d : Data) (b : Block) : (clearSticky d b).gyroY = b.gyroY := rfl
@[simp] theorem clearSticky_gyroZ (d : Data) (b : Block) : (clearSticky d b).gyroZ = b.gyroZ := rfl
@[simp] theorem clearSticky_accelX (d : Data) (b : Block) :
    (clearSticky d b).accelX = b.accelX := rfl
@[simp] theorem clearSticky_accelY (d : Data) (b : Block) :
    (clearSticky d b).accelY = b.accelY := rfl
@[simp] theorem clearSticky_accelZ (d : Data) (b : Block) :
    (clearSticky d b).accelZ = b.accelZ := rfl
@[simp] theorem clearSticky_accAngleX (d : Data) (b : Block) :
    (clearSticky d b).accAngleX = b.accAngleX := rfl
@[simp] theorem clearSticky_accAngleY (d : Data) (b : Block) :
    (clearSticky d b).accAngleY = b.accAngleY := rfl
@[simp] theorem clearSticky_compAngleX (d : Data) (b : Block) :
    (clearSticky d b).compAngleX = b.compAngleX := rfl
@[simp] theorem clearSticky_compAngleY (d : Data) (b : Block) :
    (clearSticky d b).compAngleY = b.compAngleY := rfl

/-! ### `fifoClear` -/

@[simp] theorem fifoClear_fifo (b : Block) : (fifoClear b).fifo = [] := rfl
@[simp] theorem fifoClear_first (b : Block) : (fifoClear b).first = b.first := rfl
@[simp] theorem fifoClear_prevTs (b : Block) : (fifoClear b).prevTs = b.prevTs := rfl
@[simp] theorem fifoClear_compX (b : Block) : (fifoClear b).compX = b.compX := rfl
@[simp] theorem fifoClear_compY (b : Block) : (fifoClear b).compY = b.compY := rfl
@[simp] theorem fifoClear_valid (b : Block) : (fifoClear b).valid = b.valid := rfl
@[simp] theorem fifoClear_illegal (b : Block) : (fifoClear b).illegal = b.illegal := rfl
@[simp] theorem fifoClear_ovf (b : Block) : (fifoClear b).ovf = b.ovf := rfl
@[simp] theorem fifoClear_yawAxis (b : Block) : (fifoClear b).yawAxis = b.yawAxis := rfl
@[simp] theorem fifoClear_integAngle (b : Block) : (fifoClear b).integAngle = b.integAngle := rfl
@[simp] theorem fifoClear_gyroX (b : Block) : (fifoClear b).gyroX = b.gyroX := rfl
@[simp] theorem fifoClear_gyroY (b : Block) : (fifoClear b).gyroY = b.gyroY := rfl
@[simp] theorem fifoClear_gyroZ (b : Block) : (fifoClear b).gyroZ = b.gyroZ := rfl
@[simp] theorem fifoClear_accelX (b : Block) : (fifoClear b).accelX = b.accelX := rfl
@[simp] theorem fifoClear_accelY (b : Block) : (fifoClear b).accelY = b.accelY := rfl
@[simp] theorem fifoClear_accelZ (b : Block) : (fifoClear b).accelZ = b.accelZ := rfl
@[simp] theorem fifoClear_accAngleX (b : Block) : (fifoClear b).accAngleX = b.accAngleX := rfl
@[simp] theorem fifoClear_accAngleY (b : Block) : (fifoClear b).accAngleY = b.accAngleY := rfl
@[simp] theorem fifoClear_compAngleX (b : Block) : (fifoClear b).compAngleX = b.compAngleX := rfl
@[simp] theorem fifoClear_compAngleY (b : Block) : (fifoClear b).compAngleY = b.compAngleY := rfl

section Publish
variable (p : Params) (f : DecodedFrame) (sc : ScaledFrame) (integ : F64) (o : FilterOut) (b : Block)

/-! ### `publish` -/

@[simp] theorem publish_fifo : (publish p f sc integ o b).fifo = b.fifo := rfl
@[simp] theorem publish_first : (publish p f sc integ o b).first = false := rfl
@[simp] theorem publish_prevTs : (publish p f sc integ o b).prevTs = f.timestamp := rfl
@[simp] theorem publish_compX : (publish p f sc integ o b).compX = o.compX := rfl
@[simp] theorem publish_compY : (publish p f sc integ o b).compY = o.compY := rfl
@[simp] theorem publish_valid : (publish p f sc integ o b).valid = true := rfl
@[simp] theorem publish_illegal : (publish p f sc integ o b).illegal = b.illegal := rfl
@[simp] theorem publish_ovf : (publish p f sc integ o b).ovf = b.ovf := rfl
@[simp] theorem publish_yawAxis : (publish p f sc integ o b).yawAxis = b.yawAxis := rfl
@[simp] theorem publish_integAngle : (publish p f sc integ o b).integAngle = integ := rfl
@[simp] theorem publish_gyroX : (publish p f sc integ o b).gyroX = sc.gd.x := rfl
@[simp] theorem publish_gyroY : (publish p f sc integ o b).gyroY = sc.gd.y := rfl
@[simp] theorem publish_gyroZ : (publish p f sc integ o b).gyroZ = sc.gd.z := rfl
@[simp] theorem publish_accelX : (publish p f sc integ o b).accelX = sc.ag.x := rfl
@[simp] theorem publish_accelY : (publish p f sc integ o b).accelY = sc.ag.y := rfl
@[simp] theorem publish_accelZ : (publish p f sc integ o b).accelZ = sc.ag.z := rfl
@[simp] theorem publish_accAngleX :
    (publish p f sc integ o b).accAngleX = fmul o.accX p.rad2deg := rfl
@[simp] theorem publish_accAngleY :
    (publish p f sc integ o b).accAngleY = fmul o.accY p.rad2deg := rfl
@[simp] theorem publish_compAngleX :
    (publish p f sc integ o b).compAngleX = fmul o.compX p.rad2deg := rfl
@[simp] theorem publish_compAngleY :
    (publish p f sc integ o b).compAngleY = fmul o.compY p.rad2deg := rfl

end Publish

end Sys2Proof.Machine
end

