-- ==== Sys2Proof/Laws/Ops.lean ====
section
/-! SUPPORT. What each shared operation can do, said once. -/

namespace Sys2Proof.Machine

open Sys2Proof.Config

/-! ### The FIFO -/

theorem fifoPush_of_lt {p : Params} {w : FifoWord} {b : Block} (h : b.fifo.length < p.fifoDepth) :
    fifoPush p w b = { b with fifo := b.fifo ++ [w] } := by simp [fifoPush, fifoCount, h]

theorem fifoPush_of_le {p : Params} {w : FifoWord} {b : Block} (h : p.fifoDepth ≤ b.fifo.length) :
    fifoPush p w b = setOvf b := by simp [fifoPush, fifoCount, Nat.not_lt.mpr h]

/-- A push touches the FIFO and `OVF`, nothing else. -/
theorem fifoPush_cases (p : Params) (w : FifoWord) (b : Block) :
    (b.fifo.length < p.fifoDepth ∧ fifoPush p w b = { b with fifo := b.fifo ++ [w] }) ∨
    (p.fifoDepth ≤ b.fifo.length ∧ fifoPush p w b = setOvf b) := by
  rcases Nat.lt_or_ge b.fifo.length p.fifoDepth with h | h
  · exact .inl ⟨h, fifoPush_of_lt h⟩
  · exact .inr ⟨h, fifoPush_of_le h⟩

theorem fifoPush_length_le {p : Params} {w : FifoWord} {b : Block}
    (h : b.fifo.length ≤ p.fifoDepth) : (fifoPush p w b).fifo.length ≤ p.fifoDepth := by
  rcases fifoPush_cases p w b with ⟨hlt, he⟩ | ⟨_, he⟩ <;> rw [he]
  · simpa using hlt
  · exact h

/-- Pops with enough words buffered give the first `n` words and leave the rest. -/
theorem popWords_ok : ∀ {n : Nat} {fifo : List FifoWord}, n ≤ fifo.length →
    ∃ ws : Vector FifoWord n, popWords n fifo = .ok (ws, fifo.drop n) ∧ ws.toList = fifo.take n
  | 0, fifo, _ => ⟨#v[], rfl, by simp⟩
  | n + 1, fifo, h => by
    obtain ⟨ws, hp, hl⟩ := popWords_ok (n := n) (fifo := fifo) (by omega)
    have hn : n < fifo.length := by omega
    refine ⟨ws.push fifo[n], ?_, ?_⟩
    · simp only [popWords, hp]
      rw [List.drop_eq_getElem_cons hn]
      rfl
    · rw [Vector.toList_push, hl, List.take_succ_eq_append_getElem hn]

/-! ### How a transaction ends -/

/-- A command ends in the block it computed or in the model fault it raised. -/
theorem finish_next {r : Except Fault Block} {s t : State} (h : finish r s = .next t) :
    ∃ b, r = .ok b ∧ t = commit b s := by
  cases r with
  | ok b => exact ⟨b, rfl, by simpa [finish] using h.symm⟩
  | error e => simp [finish] at h

theorem finish_fault {r : Except Fault Block} {s : State} {e : Fault} (h : finish r s = .fault e) :
    r = .error e := by
  cases r with
  | ok b => simp [finish] at h
  | error e' => simpa [finish] using h

/-- A guarded read answers the value once a frame has been processed, and the fault before. -/
theorem readOutput_cases (v : F64) (s : State) :
    (s.block.valid = true ∧ readOutput v s = .next (respond v s)) ∨
    (s.block.valid = false ∧ readOutput v s = .fault .unwrittenRead) := by
  cases h : s.block.valid
  · exact .inr ⟨rfl, by simp [readOutput, h]⟩
  · exact .inl ⟨rfl, by simp [readOutput, h]⟩

/-! ### The frame step -/

/-- A first frame seeds: no fault (43_complementary_filter.md rule R200). -/
theorem filterStep_first (p : Params) (cX cY : F64) (a gs : Vec3) (dt : F64) :
    filterStep p true cX cY a gs dt =
      .ok ⟨accAngleOfX p a, accAngleOfY p a, accAngleOfX p a, accAngleOfY p a⟩ := rfl

/-- What a processed frame is: the filter's result, published. -/
theorem processFrame_ok {p : Params} {w : FrameWords} {b b' : Block} (h : processFrame p w b = .ok b') :
    ∃ o, frameFilter p (scaleFrame p (decodeFrame w) b.prevTs) b = .ok o ∧
      b' = publish p (decodeFrame w) (scaleFrame p (decodeFrame w) b.prevTs)
        (frameInteg p (decodeFrame w) (scaleFrame p (decodeFrame w) b.prevTs) b) o b := by
  unfold processFrame at h
  split at h
  · cases h
  · rename_i o ho
    exact ⟨o, ho, by simpa using h.symm⟩

/-- With a frame buffered, `takeFrame` processes its first 19 words and leaves the rest. -/
theorem takeFrame_eq {p : Params} {b : Block} (h : frameLen ≤ b.fifo.length) :
    ∃ w : FrameWords, w.toList = b.fifo.take 19 ∧
      takeFrame p b = processFrame p w { b with fifo := b.fifo.drop 19 } := by
  obtain ⟨w, hp, hl⟩ := popWords_ok (n := 19) (fifo := b.fifo) h
  exact ⟨w, hl, by unfold takeFrame; rw [hp]⟩

/-- A taken frame removes its 19 words. -/
theorem takeFrame_fifo {p : Params} {b b' : Block} (h : frameLen ≤ b.fifo.length)
    (hb : takeFrame p b = .ok b') : b'.fifo = b.fifo.drop 19 := by
  obtain ⟨w, _, he⟩ := takeFrame_eq (p := p) h
  rw [he] at hb
  obtain ⟨o, _, rfl⟩ := processFrame_ok hb
  rfl

end Sys2Proof.Machine
end

