-- ==== Sys2Proof/Laws/Params.lean ====
section
/-! SUPPORT. Every parameter of the machine meets its constraint, whatever the uninterpreted values are;
`shapeAtan2` meets rule R21 of 00_scope.md whatever function it is made from, and keeps every function that
already does. -/

namespace Sys2Proof.Machine

open Sys2Proof.Config

theorem isFinite_of_isZero {x : F64} (h : isZero x = true) : isFinite x = true := by
  simp only [isZero, beq_iff_eq] at h
  rw [isFinite_iff, h]
  norm_num [infMag]

theorem fval_of_isZero {x : F64} (h : isZero x = true) : fval x = 0 := by
  simp only [isZero, beq_iff_eq] at h
  simp [fval, h]

theorem flt_iff {a b : F64} (ha : isFinite a = true) (hb : isFinite b = true) :
    flt a b = decide (fval a < fval b) := by
  simp [flt, isNaN_of_finite ha, isNaN_of_finite hb]

theorem fle_iff {a b : F64} (ha : isFinite a = true) (hb : isFinite b = true) :
    fle a b = decide (fval a ≤ fval b) := by
  simp [fle, isNaN_of_finite ha, isNaN_of_finite hb]

theorem fval_pi_pos : 0 < fval pi := by decide +kernel
theorem fval_halfPi_pos : 0 < fval halfPi := by decide +kernel
theorem isFinite_pi : isFinite pi = true := by decide
theorem isFinite_halfPi : isFinite halfPi = true := by decide
theorem isFinite_zero : isFinite 0 = true := by decide
theorem fval_zero : fval 0 = 0 := by decide
theorem fval_halfPi_le_pi : fval halfPi ≤ fval pi := by decide +kernel

/-! ### Parameters inside their constraints -/

/-- A parameter kept inside its constraint meets it. -/
theorem legalOr_legal {ok : F64 → Bool} (raw : F64) {inside : F64} (h : ok inside = true) :
    ok (legalOr ok raw inside) = true := by
  unfold legalOr
  split
  · assumption
  · exact h

/-- A legal value is kept: no legal machine is lost. -/
theorem legalOr_of_legal {ok : F64 → Bool} {raw : F64} (inside : F64) (h : ok raw = true) :
    legalOr ok raw inside = raw := if_pos h

/-- A value between two positive finite ones is finite and positive. -/
theorem finite_pos_of_between {lo hi x : F64} (hlo : 0 < fval lo) (hhi : isFinite hi = true)
    (h1 : fle lo x = true) (h2 : fle x hi = true) : isFinite x = true ∧ fsign x = false := by
  simp only [fle, Bool.and_eq_true, Bool.not_eq_true', decide_eq_true_eq] at h1 h2
  obtain ⟨⟨_, hn⟩, h1⟩ := h1
  obtain ⟨_, h2⟩ := h2
  have hs : fsign x = false := by
    by_contra hs
    have : fval x = -(units (fmag x) : Int) := by simp [fval, hs]
    omega
  refine ⟨?_, hs⟩
  have hv : fval x = (units (fmag x) : Int) := by simp [fval, hs]
  have hb := natAbs_fval_lt hhi
  rw [isFinite_iff, ← units_lt_iff]
  omega

/-- Zero in degrees is zero, for every legal `RAD2DEG`. -/
theorem fmul_zero_rad2deg : fmul 0 machineParams.rad2deg = 0 := by
  have hl : rad2degLegal machineParams.rad2deg = true := legalOr_legal _ (by decide +kernel)
  rw [rad2degLegal, Bool.and_eq_true] at hl
  obtain ⟨hf, hs⟩ := finite_pos_of_between (by decide +kernel) (by decide +kernel) hl.1 hl.2
  rw [fmul_finite isFinite_zero hf, hs, show fmag 0 = 0 from rfl, units_zero, Nat.zero_mul, roundMag_zero]
  rfl

/-! ### `ATAN2` -/

/-- Rule R21 as facts about values. -/
theorem atan2Allows_iff {y x r : F64} (hy : isFinite y = true) (hx : isFinite x = true) :
    atan2Allows y x r = true ↔
      isFinite r = true ∧ -fval pi ≤ fval r ∧ fval r ≤ fval pi ∧
      (atan2ZeroCase y x = true → r = y) ∧ (atan2UpCase y x = true → r = halfPi) ∧
      (0 ≤ fval x → (fval r < 0 ↔ fval y < 0) ∧ -fval halfPi ≤ fval r ∧ fval r ≤ fval halfPi) := by
  by_cases hr : isFinite r = true
  · simp only [atan2Allows, hr, fle_iff, flt_iff, fge, hx, hy, isFinite_pi, isFinite_halfPi,
      isFinite_zero, isFinite_fneg, fval_fneg, fval_zero]
    by_cases h1 : atan2ZeroCase y x = true <;> by_cases h2 : atan2UpCase y x = true <;>
      by_cases h3 : 0 ≤ fval x <;> simp [h1, h2, h3, and_assoc]
  · simp [atan2Allows, hr]

/-- The shape meets rule R21. -/
theorem shapeAtan2_allowed (raw : F64 → F64 → F64) {y x : F64} (hy : isFinite y = true)
    (hx : isFinite x = true) : atan2Allows y x (shapeAtan2 raw y x) = true := by
  have hpi := fval_pi_pos
  have hhp := fval_halfPi_pos
  have hle := fval_halfPi_le_pi
  unfold shapeAtan2
  simp only [hy, hx, Bool.and_self, Bool.not_true, Bool.false_eq_true, if_false]
  by_cases hz : atan2ZeroCase y x = true
  · rw [if_pos hz, atan2Allows_iff hy hx]
    have hyz : isZero y = true := by
      simp only [atan2ZeroCase, Bool.and_eq_true] at hz; exact hz.1
    have hv := fval_of_isZero hyz
    refine ⟨hy, by omega, by omega, fun _ => rfl, fun hu => ?_, fun _ => ⟨Iff.rfl, by omega, by omega⟩⟩
    simp only [atan2UpCase, flt_iff isFinite_zero hy, fval_zero, hv, Bool.and_eq_true,
      decide_eq_true_eq, lt_irrefl, and_false] at hu
  · rw [if_neg hz]
    by_cases hu : atan2UpCase y x = true
    · rw [if_pos hu, atan2Allows_iff hy hx]
      have hyp : 0 < fval y := by
        simp only [atan2UpCase, flt_iff isFinite_zero hy, fval_zero, Bool.and_eq_true,
          decide_eq_true_eq] at hu
        exact hu.2
      refine ⟨isFinite_halfPi, by omega, hle, fun h => absurd h hz, fun _ => rfl, fun _ => ⟨?_, by omega, le_rfl⟩⟩
      constructor <;> intro h <;> omega
    · rw [if_neg hu]
      by_cases ha : atan2Allows y x (raw y x) = true
      · rw [if_pos ha]; exact ha
      · rw [if_neg ha]
        simp only [fge, fle_iff isFinite_zero hx, flt_iff hy isFinite_zero, fval_zero]
        split
        · rename_i h
          simp only [Bool.and_eq_true, decide_eq_true_eq] at h
          rw [atan2Allows_iff hy hx]
          refine ⟨by rw [isFinite_fneg]; exact isFinite_halfPi, ?_, ?_, fun h => absurd h hz,
            fun h => absurd h hu, fun _ => ⟨?_, ?_, ?_⟩⟩ <;> rw [fval_fneg] <;>
            omega
        · rename_i h
          simp only [Bool.and_eq_true, decide_eq_true_eq, not_and, not_lt] at h
          rw [atan2Allows_iff hy hx]
          refine ⟨isFinite_zero, ?_, ?_, fun h => absurd h hz, fun h => absurd h hu,
            fun h0 => ⟨?_, ?_, ?_⟩⟩ <;> rw [fval_zero] <;>
            omega

/-- A function that meets rule R21 is its own shape: the shape loses no block. -/
theorem shapeAtan2_of_allowed {f : F64 → F64 → F64}
    (hf : ∀ y x, isFinite y = true → isFinite x = true → atan2Allows y x (f y x) = true) :
    shapeAtan2 f = f := by
  funext y x
  unfold shapeAtan2
  by_cases h : (isFinite y && isFinite x) = true
  · have hyx := h
    simp only [Bool.and_eq_true] at hyx
    have ha := hf y x hyx.1 hyx.2
    have hi := (atan2Allows_iff hyx.1 hyx.2).mp ha
    simp only [h, Bool.not_true, Bool.false_eq_true, if_false]
    split
    · rename_i hz; exact (hi.2.2.2.1 hz).symm
    · split
      · rename_i hu; exact (hi.2.2.2.2.1 hu).symm
      · rfl
  · simp [h]

end Sys2Proof.Machine
end

