-- ==== Sys2Proof/Laws/PerInstr.lean ====
section
/-! SUPPORT. Statements about every instruction, one lemma per constructor. -/

namespace Sys2Proof.Laws.EncodeInRow

/-- The port word of a well-formed instruction selects the row of the opcode table the instruction stands
for (30_encoding.md rule R90). -/
def Statement (i : Instr) : Prop := i.wf = true → (rowOf i).matches (encode i) = true

theorem index_matches (m : String) (w : Bool) (a : RegIndex) (d : Data) :
    (indexRow m w a).matches (portWord w a d) = true :=
  beq_iff_eq.mpr (portWord_and_indexMask w a d)

theorem direction_matches (m : String) (w : Bool) (a : RegIndex) (d : Data) :
    (directionRow m w).matches (portWord w a d) = true :=
  beq_iff_eq.mpr (portWord_and_directionMask w a d)

theorem command_matches (m : String) (op : BitVec 4) :
    (commandRow m op).matches (encodeCommand op) = true := by
  revert op
  simp only [OpcodeRow.matches, commandRow]
  decide

theorem rdCmd : Statement .rdCmd := fun _ => index_matches _ _ _ _
theorem rdStatus : Statement .rdStatus := fun _ => index_matches _ _ _ _
theorem rdConfig : Statement .rdConfig := fun _ => index_matches _ _ _ _
theorem rdFifoData : Statement .rdFifoData := fun _ => index_matches _ _ _ _
theorem rdFifoCount : Statement .rdFifoCount := fun _ => index_matches _ _ _ _
theorem rdIntegAngle : Statement .rdIntegAngle := fun _ => index_matches _ _ _ _
theorem rdGyroX : Statement .rdGyroX := fun _ => index_matches _ _ _ _
theorem rdGyroY : Statement .rdGyroY := fun _ => index_matches _ _ _ _
theorem rdGyroZ : Statement .rdGyroZ := fun _ => index_matches _ _ _ _
theorem rdAccelX : Statement .rdAccelX := fun _ => index_matches _ _ _ _
theorem rdAccelY : Statement .rdAccelY := fun _ => index_matches _ _ _ _
theorem rdAccelZ : Statement .rdAccelZ := fun _ => index_matches _ _ _ _
theorem rdAccAngleX : Statement .rdAccAngleX := fun _ => index_matches _ _ _ _
theorem rdAccAngleY : Statement .rdAccAngleY := fun _ => index_matches _ _ _ _
theorem rdCompAngleX : Statement .rdCompAngleX := fun _ => index_matches _ _ _ _
theorem rdCompAngleY : Statement .rdCompAngleY := fun _ => index_matches _ _ _ _
theorem wrStatus (d : Data) : Statement (.wrStatus d) := fun _ => index_matches _ _ _ _
theorem wrConfig (d : Data) : Statement (.wrConfig d) := fun _ => index_matches _ _ _ _
theorem wrFifoData (d : Data) : Statement (.wrFifoData d) := fun _ => index_matches _ _ _ _
theorem nop : Statement .nop := fun _ => command_matches _ _
theorem start : Statement .start := fun _ => command_matches _ _
theorem reset : Statement .reset := fun _ => command_matches _ _
theorem step : Statement .step := fun _ => command_matches _ _
theorem drain : Statement .drain := fun _ => command_matches _ _
theorem cmdIllegal (d : Data) : Statement (.cmdIllegal d) := fun _ => index_matches _ _ _ _
theorem rdRsv (a : RegIndex) : Statement (.rdRsv a) := fun _ => direction_matches _ _ _ _
theorem wrIgn (a : RegIndex) (d : Data) : Statement (.wrIgn a d) :=
  fun _ => direction_matches _ _ _ _

end Sys2Proof.Laws.EncodeInRow
end

