-- ==== Sys2Proof/Laws/Runs.lean ====
section
/-! SUPPORT. Runs of a host's transactions: appending runs, and pushes that fit. -/

namespace Sys2Proof.Machine

/-- A run of two parts is the second from where the first ends. -/
theorem execAll_append (is js : List Instr) (s : State) :
    execAll (is ++ js) s =
      match execAll is s with
      | .next t => execAll js t
      | .fault e => .fault e
      | .refused r => .refused r := by
  induction is generalizing s with
  | nil => rfl
  | cons i is ih =>
    simp only [List.cons_append, execAll]
    cases exec i s with
    | next t => exact ih t
    | fault e => rfl
    | refused r => rfl

/-- What the model does with an instruction, hardware can do. -/
theorem hardwareNext_of_exec {i : Instr} {s t : State} (h : exec i s = .next t) : hardwareNext i s t := .inl h

@[simp] theorem hardwareStep_idle {s t : State} (h : s.port.pending = []) : hardwareStep s t ↔ t = s := by
  simp [hardwareStep, h]

@[simp] theorem hardwareStep_cons {s t : State} {pw : PortWord} {rest : List PortWord}
    (h : s.port.pending = pw :: rest) :
    hardwareStep s t ↔ hardwareNext (decode pw) (s.withPending rest) t := by
  simp [hardwareStep, h]

/-- `D[31:0]` of a word written as 64 bits is the word (30_encoding.md rule R94). -/
@[simp] theorem fifoOperand_setWidth (w : FifoWord) : fifoOperand (w.setWidth 64) = w := by
  apply BitVec.eq_of_getLsbD_eq
  intro i hi
  simp [fifoOperand, hi, show i < 64 by omega]

@[simp] theorem pushedWords_nil : pushedWords [] = [] := rfl
@[simp] theorem pushedWords_push (d : Data) (is : List Instr) :
    pushedWords (.wrFifoData d :: is) = fifoOperand d :: pushedWords is := rfl
@[simp] theorem pushedWords_step (is : List Instr) : pushedWords (.step :: is) = pushedWords is := rfl
@[simp] theorem pushedWords_drain (is : List Instr) : pushedWords (.drain :: is) = pushedWords is := rfl

/-- The words of a run of pushes are the words pushed. -/
@[simp] theorem pushedWords_pushes (ws : List FifoWord) : pushedWords (pushes ws) = ws := by
  induction ws with
  | nil => rfl
  | cons w ws ih =>
    rw [pushes, List.map_cons, pushedWords_push, fifoOperand_setWidth]
    exact congrArg (w :: ·) ih

/-- Pushes that fit append their words, in order, and change nothing else (20_memory.md rule R75). -/
theorem execAll_pushes (ws : List FifoWord) (s : State)
    (h : s.block.fifo.length + ws.length ≤ machineParams.fifoDepth) :
    execAll (pushes ws) { s with port := { s.port with response := none } } =
      .next (commit { s.block with fifo := s.block.fifo ++ ws } s) := by
  induction ws generalizing s with
  | nil => simp [pushes, execAll, commit]
  | cons w ws ih =>
    simp only [List.length_cons] at h
    have hp : fifoPush machineParams w s.block = { s.block with fifo := s.block.fifo ++ [w] } :=
      fifoPush_of_lt (by omega)
    have he : exec (.wrFifoData (w.setWidth 64)) { s with port := { s.port with response := none } } =
        .next (commit { s.block with fifo := s.block.fifo ++ [w] } s) := by
      simp only [exec, execWrFifoData, fifoOperand_setWidth, hp]
      rfl
    simp only [pushes, List.map_cons, execAll]
    rw [he]
    have := ih (commit { s.block with fifo := s.block.fifo ++ [w] } s) (by simp; omega)
    simpa [commit, pushes] using this

end Sys2Proof.Machine
end

