-- ==== Sys2Proof/Tests/Slice0.lean ====
section
/-! SUPPORT. Tests of the model, their expected results from 95_test_vectors.md (V…, P…) or from the rule named,
and one witness for each statement that has hypotheses. -/

namespace Sys2Proof.Tests

open Sys2Proof.Machine Sys2Proof.Config

/-! ### Helpers -/

/-- The test configuration of 95_test_vectors.md section 1, with an `ATAN2` of which the tests use only the
exact cases of rule R21. -/
def testParams : Params where
  tau          := 0x3FF0000000000000
  deltaAngleSf := 0x3EF0000000000000
  refRate      := 0x409F400000000000
  gravity      := gravityDefault
  deg2rad      := deg2radDefault
  rad2deg      := rad2degDefault
  atan2        := shapeAtan2 fun _ _ => 0
  fifoDepth    := 64

/-- Byte `k` of an integer, as the byte slot the `FRAME` pseudo pushes (30_encoding.md rule R104). -/
def slot (v : Int) (k : Nat) : FifoWord := BitVec.ofNat 32 (v / 256 ^ k % 256).toNat

/-- `FRAME ts, raw, gx, gy, gz, ax, ay, az` (rule R104). -/
def frame (ts : Nat) (raw gx gy gz ax ay az : Int) : FrameWords :=
  #v[BitVec.ofNat 32 ts, 0, 0, slot raw 3, slot raw 2, slot raw 1, slot raw 0,
    slot gx 1, slot gx 0, slot gy 1, slot gy 0, slot gz 1, slot gz 0,
    slot ax 1, slot ax 0, slot ay 1, slot ay 0, slot az 1, slot az 0]

/-- A level device. -/
def levelFrame : FrameWords := frame 1000 4096 0 0 0 0 0 800

/-- A block as a machine with no transaction waiting. -/
def stateOf (b : Block) : State := ⟨b, [], none⟩

/-- What an outcome's block holds, if the outcome is a next state. -/
def blockOf (o : Host.Outcome State Fault Refusal) : Option Block :=
  match o with
  | .next t => some t.block
  | .fault _ => none
  | .refused _ => none

/-- What a transaction returned. -/
def valueOf (o : Host.Outcome State Fault Refusal) : Option Data :=
  match o with
  | .next t => t.port.response
  | .fault _ => none
  | .refused _ => none

/-- The fault an outcome is. -/
def faultOf (o : Host.Outcome State Fault Refusal) : Option Fault :=
  match o with
  | .next _ => none
  | .fault e => some e
  | .refused _ => none

/-- The block after a frame, if no fault is raised. -/
def okBlock (r : Except Fault Block) : Option Block :=
  match r with
  | .ok b => some b
  | .error _ => none

/-- A value, if no fault is raised. -/
def okValue (r : Except Fault F64) : Option F64 :=
  match r with
  | .ok x => some x
  | .error _ => none

/-- A block after a level first frame, with a FIFO of the test's choice. -/
def running (fifo : List FifoWord) : Block := { Block.powerOn with first := false, valid := true, fifo := fifo }

/-- The block before a first frame, with that frame buffered. -/
def atFirstFrame : Block := { Block.powerOn with fifo := levelFrame.toList }

/-! ### WellFormed: each check refuses an ill-formed term -/

theorem test_wf_rdRsv_refuses_fifo_count : (Instr.rdRsv 0x04).wf = false := by decide
theorem test_wf_rdRsv_refuses_outputs : (Instr.rdRsv 0x08).wf = false ∧ (Instr.rdRsv 0x12).wf = false := by
  decide
theorem test_wf_wrIgn_refuses_writable_indices :
    (Instr.wrIgn 0 0).wf = false ∧ (Instr.wrIgn 3 0).wf = false := by decide
theorem test_wf_cmdIllegal_refuses_legal_words :
    (Instr.cmdIllegal 0).wf = false ∧ (Instr.cmdIllegal 4).wf = false := by decide

/-! ### Decoding: V30.1 to V30.22, and each other row's word from rules R90, R91 and R93 -/

theorem test_decode_commands :
    decode 0x200000000000000000 = .nop ∧ decode 0x200000000000000001 = .start ∧
    decode 0x200000000000000002 = .reset ∧ decode 0x200000000000000003 = .step ∧
    decode 0x200000000000000004 = .drain := by decide

theorem test_decode_illegal_commands :
    decode 0x200000000000000005 = .cmdIllegal 5 ∧ decode 0x20000000000000000F = .cmdIllegal 0xF ∧
    decode 0x200000000000000011 = .cmdIllegal 0x11 ∧
    decode 0x208000000000000001 = .cmdIllegal 0x8000000000000001 := by decide

theorem test_decode_control_reads :
    decode 0x000000000000000000 = .rdCmd ∧ decode 0x01FFFFFFFFFFFFFFFF = .rdStatus ∧
    decode 0x020000000000000000 = .rdConfig ∧ decode 0x030000000000000000 = .rdFifoData ∧
    decode 0x040000000000000000 = .rdFifoCount ∧ decode 0x080000000000000000 = .rdIntegAngle := by
  decide

theorem test_decode_output_reads :
    decode 0x090000000000000000 = .rdGyroX ∧ decode 0x0A0000000000000000 = .rdGyroY ∧
    decode 0x0B0000000000000000 = .rdGyroZ ∧ decode 0x0C0000000000000000 = .rdAccelX ∧
    decode 0x0D0000000000000000 = .rdAccelY ∧ decode 0x0E0000000000000000 = .rdAccelZ ∧
    decode 0x0F0000000000000000 = .rdAccAngleX ∧ decode 0x100000000000000000 = .rdAccAngleY ∧
    decode 0x110000000000000000 = .rdCompAngleX ∧ decode 0x120000000000000000 = .rdCompAngleY := by
  decide

theorem test_decode_reserved_reads :
    decode 0x050000000000000000 = .rdRsv 0x05 ∧ decode 0x130000000000000000 = .rdRsv 0x13 ∧
    decode 0x1F0000000000000000 = .rdRsv 0x1F := by decide

theorem test_decode_writes :
    decode 0x21000000000000000C = .wrStatus 0xC ∧ decode 0x220000000000000001 = .wrConfig 1 ∧
    decode 0x2300000000000003E8 = .wrFifoData 1000 := by decide

theorem test_decode_ignored_writes :
    decode 0x240000000000000007 = .wrIgn 0x04 7 ∧ decode 0x280000000000000000 = .wrIgn 0x08 0 ∧
    decode 0x3F0000000000000000 = .wrIgn 0x1F 0 := by decide

/-- The encoder on words of 95_test_vectors.md. -/
theorem test_encode_words :
    encode .drain = 0x200000000000000004 ∧ encode .rdFifoCount = 0x040000000000000000 ∧
    encode (.wrFifoData 1000) = 0x2300000000000003E8 ∧ encode (.wrIgn 0x13 0x1234) = 0x330000000000001234 := by
  decide

/-- The table row of V30.8 is not START's, and a number above 70 bits is no port word. -/
theorem test_decodeTableWord :
    decodeTableWord 72 0x200000000000000001 = some .start ∧
    decodeTableWord 72 0x200000000000000011 = some (.cmdIllegal 0x11) ∧
    decodeTableWord 72 (2 ^ 70) = none := by decide

/-- Mask and match of three rows, copied from spec/opcode_table.json. -/
theorem test_rows :
    rowOf .step = ⟨"STEP", 0x200000000000000003, 0x3FFFFFFFFFFFFFFFFF⟩ ∧
    rowOf .rdGyroX = ⟨"RD.GYRO_X", 0x090000000000000000, 0x3F0000000000000000⟩ ∧
    rowOf (.wrIgn 4 0) = ⟨"WR.IGN", 0x200000000000000000, 0x200000000000000000⟩ := by decide

/-! ### Arithmetic: vectors whose expected value IEEE 754 fixes -/

/-- V41.3 and V41.13a: a division, not a multiply by a reciprocal. -/
theorem test_division_rounds_once :
    scaleGyro 3 = 0x3FD3333333333333 ∧ scaleAccel 35 = 0x3FA6666666666666 := by decide +kernel

/-- Infinity past the largest value, a subnormal product, and the zero signs of a sum. -/
theorem test_edges :
    fadd 0x7FEFFFFFFFFFFFFF 0x7FEFFFFFFFFFFFFF = 0x7FF0000000000000 ∧
    fmul 0x0010000000000000 0x3FE0000000000000 = 0x0008000000000000 ∧
    fadd 0x8000000000000000 0 = 0 ∧
    fadd 0x8000000000000000 0x8000000000000000 = 0x8000000000000000 := by decide +kernel

/-- The square roots of 4 and of 2. -/
theorem test_sqrt : fsqrt 0x4010000000000000 = 0x4000000000000000 ∧
    fsqrt 0x4000000000000000 = 0x3FF6A09E667F3BCD := by decide +kernel

/-! ### sensor_scaler -/

/-- V41.5, V41.6, V41.8, V41.12. -/
theorem test_scale_extremes :
    scaleGyro 32767 = 0x40A9996666666666 ∧ scaleGyro (-32768) = 0xC0A999999999999A ∧
    scaleAccel 800 = 0x3FF0000000000000 ∧ scaleAccel (-32768) = 0xC0447AE147AE147B := by decide +kernel

/-- V41.14 and V41.15. -/
theorem test_si_units : gyroSI testParams 0x4024000000000000 = 0x3FC657184AE74487 ∧
    accelSI testParams 0x3FF0000000000000 = 0x40239D013A92A305 := by decide +kernel

/-- V41.17 and V41.19. -/
theorem test_ticks_wrap : deltaTicks 0x100 0xFFFFFF00 = 512 ∧ deltaTicks 999 1000 = 4294967295 := by decide

/-- V41.21 and V41.23. -/
theorem test_dt : dtOf 512 = 0x3F40C6F7A0B5ED8D ∧ dtOf 4294967295 = 0x40B0C6F7A0A52696 := by
  decide +kernel

/-- V20.5: 30_encoding.md rule R105's frame, with every bit that no field reads disturbed. -/
theorem test_frame_ignores_other_bits :
    decodeFrame #v[1000, 0xDEADBEEF, 0x12345678, 0xABCDEF00, 0xABCDEF00, 0xABCDEF10, 0xABCDEF00,
      0xABCDEF00, 0xABCDEF00, 0xABCDEF00, 0xABCDEF00, 0xABCDEF00, 0xABCDEF00, 0xABCDEF00, 0xABCDEF00,
      0xABCDEF00, 0xABCDEF00, 0xABCDEF03, 0xABCDEF20] = ⟨1000, 4096, 0, 0, 0, 0, 0, 800⟩ := by decide

/-- V20.6, V20.9 to V20.12: signs and byte order, from the words of program P6. -/
theorem test_frame_signed_fields :
    decodeFrame #v[0xFFFFFFFF, 0, 0, 0xFF, 0xFF, 0xE0, 0, 0, 0, 0xFF, 0xFB, 0x7F, 0xFF, 0, 0, 0x80, 0, 3, 0x20]
      = ⟨4294967295, -8192, 0, -5, 32767, 0, -32768, 800⟩ := by decide

/-! ### angle_integrator -/

/-- V42.4 and V42.5: the nested ratio, in its order. -/
theorem test_delta_order : scaleDelta testParams 8192 512 = 0x3FA0624DD2F1A9FC ∧
    scaleDelta testParams 3 7 = 0x3E85810624DD2F1A := by decide +kernel

/-- V42.9 and V42.10: equal timestamps. -/
theorem test_delta_no_ticks : scaleDelta testParams 8192 0 = 0 ∧
    scaleDelta testParams (-8192) 0 = 0x8000000000000000 := by decide +kernel

/-- V42.13 and V42.14. -/
theorem test_integrate : integrate 0x4029000000000000 0x3FA0000000000000 true = 0 ∧
    integrate 0 0x8000000000000000 false = 0 := by decide +kernel

/-! ### complementary_filter_iir -/

/-- V43.2: a 90-degree tilt, and no tilt about the other axis. -/
theorem test_tilt : tiltX testParams ⟨gravityDefault, 0, 0⟩ = halfPi ∧
    tiltY testParams ⟨gravityDefault, 0, 0⟩ = 0 := by decide +kernel

/-- V43.9a and V43.9c: no correction when `az` is zero, `PI` when the device is inverted. -/
theorem test_accel_range : formatAccelRange 0xBFE0000000000000 0 = 0xBFE0000000000000 ∧
    formatAccelRange 0 (fneg gravityDefault) = pi := by decide +kernel

/-- V43.12 and V43.14: no shift at a difference of exactly `PI`; `4.0 - TWO_PI` = -2.2831853071795862. -/
theorem test_fast_converge : formatFastConverge 0 pi = 0 ∧
    formatFastConverge 0x4010000000000000 0x3FE0000000000000 = 0xC00243F6A8885A30 := by decide +kernel

/-- V43.18 and V43.18a, V43.18b. -/
theorem test_alpha : alphaOf testParams 0x3F50624DD2F1A9FC = 0x3FEFF7D0F16C2E0A ∧
    fsub one (alphaOf testParams 0x3F50624DD2F1A9FC) = 0x3F505E1D27A3EC00 ∧
    alphaOf testParams 0 = one := by decide +kernel

/-- V43.19b and V43.19c. -/
theorem test_filter :
    okValue (compFilterProcess testParams 0 0 0x3FC657184AE74487 0x3F50624DD2F1A9FC) = some 0x3F26DA80AED48AA6 ∧
    okValue (compFilterProcess testParams 0 0 0xBFC657184AE74487 0x3F50624DD2F1A9FC) = some 0x401921CD9F42CF6F := by
  decide +kernel

/-- V43.20, V43.21 and V43.29. -/
theorem test_normalise :
    okValue (formatRange0to2PI 0x401C000000000000) = some 0x3FE6F0255DDE9740 ∧
    okValue (formatRange0to2PI 0xC01C000000000000) = some 0x401643F6A8885A30 ∧
    okValue (formatRange0to2PI 0xBC670EF54646D497) = some 0 := by decide +kernel

/-- V43.32: `2^53`, an infinity and a NaN are outside the domain. -/
theorem test_normalise_domain : okValue (formatRange0to2PI 0x4340000000000000) = none ∧
    okValue (formatRange0to2PI 0x7FF0000000000000) = none ∧
    okValue (formatRange0to2PI 0x7FF8000000000000) = none := by decide +kernel

/-! ### Commands, by `exec` -/

/-- V44.1. -/
theorem test_nop : blockOf (exec .nop (stateOf (running [7]))) = some (running [7]) := by decide

/-- V44.2, without the 25 words: the filter state and the sticky bits are kept. -/
theorem test_start : blockOf (exec .start (stateOf
      { running [1, 2] with prevTs := 1500, integAngle := 0x4029000000000000, illegal := true, ovf := true })) =
    some { running [] with first := true, illegal := true, ovf := true } := by decide

/-- V44.4. -/
theorem test_reset : blockOf (exec .reset (stateOf
      { running [1, 2] with prevTs := 1500, integAngle := 0x4029000000000000 })) =
    some { running [1, 2] with prevTs := 1500 } := by decide

/-- V44.6: 18 words are no frame. -/
theorem test_step_incomplete : blockOf (exec .step (stateOf (running (List.replicate 18 0)))) =
    some (running (List.replicate 18 0)) := by decide

/-- V44.15, on the machine itself: a first frame integrates nothing, and its two extra words stay. -/
theorem test_step_first_frame :
    (blockOf (exec .step (stateOf { atFirstFrame with fifo := levelFrame.toList ++ [1, 2] }))).map
      (fun b => (b.fifo, b.prevTs, b.first, b.valid, b.integAngle, b.accelZ)) =
    some ([1, 2], 1000, false, true, 0, 0x3FF0000000000000) := by decide +kernel

/-- V44.9 and, for 18 words, rule R102. -/
theorem test_drain_incomplete : blockOf (exec .drain (stateOf (running (List.replicate 18 0)))) =
    some (running (List.replicate 18 0)) := by decide

/-- V44.10: 25 words are one frame and 6 words. -/
theorem test_drain_leaves_remainder :
    (blockOf (exec .drain (stateOf { atFirstFrame with fifo := levelFrame.toList ++ [1, 2, 3, 4, 5, 6] }))).map
      (fun b => (b.fifo, statusWord b)) = some ([1, 2, 3, 4, 5, 6], 1) := by decide +kernel

/-- V44.14: OP = 3 with RSV = 1 is no STEP. -/
theorem test_illegal_command :
    (blockOf (exec (decode 0x200000000000000013) (stateOf (running levelFrame.toList)))).map
      (fun b => (statusWord b, b.fifo.length)) = some (5, 19) := by decide

/-! ### Programs, with the test configuration -/

/-- P3, frame 2: a gyro step on X moves the Y comp angle alone. -/
theorem test_p3 :
    (okBlock (processFrame testParams (frame 1000 0 100 0 0 0 0 800) (running []))).map
      (fun b => (b.gyroX, b.integAngle, b.compX, b.compY, b.compAngleX, b.compAngleY)) =
    some (0x4024000000000000, 0, 0, 0x3F26DA80AED48AA6, 0, 0x3F8475A4718CEA45) := by decide +kernel

/-- P5, frame 3: an inverted device after a 90-degree tilt. -/
theorem test_p5 :
    (okBlock (processFrame testParams (frame 1000 8192 0 0 0 0 0 (-800))
      { running [] with prevTs := 500, compX := halfPi })).map
      (fun b => (b.integAngle, b.accelZ, b.accAngleX, b.compX, b.compY, b.compAngleX)) =
    some (0x3FA0000000000000, 0xBFF0000000000000, 0x4066800000000000, 0x3FF92532779E67B6,
      0x3F59B91AD1D4EFCC, 0x405682E0E95AF668) := by decide +kernel

/-- V42.16: equal timestamps leave the angle and the filter state alone. -/
theorem test_equal_timestamps :
    (okBlock (processFrame testParams (frame 1000 (-8192) 0 0 0 0 0 800)
      { running [] with prevTs := 1000, compX := 0x3FE0000000000000 })).map
      (fun b => (b.integAngle, b.compX)) = some (0, 0x3FE0000000000000) := by decide +kernel

/-! ### Register access -/

/-- V45.1 and P6. -/
theorem test_rdStatus : valueOf (exec .rdStatus State.reset) = some 2 ∧
    valueOf (exec .rdStatus (stateOf { Block.powerOn with illegal := true, ovf := true })) = some 0xE := by
  decide

/-- V45.8 and V45.9. -/
theorem test_rdZero : valueOf (exec .rdCmd (stateOf (running [7]))) = some 0 ∧
    valueOf (exec .rdFifoData (stateOf (running [7]))) = some 0 ∧
    blockOf (exec .rdFifoData (stateOf (running [7]))) = some (running [7]) ∧
    valueOf (exec (.rdRsv 0x1F) (stateOf (running [7]))) = some 0 := by decide

/-- V70.1 and rule R40's code of X. -/
theorem test_rdConfig : valueOf (exec .rdConfig State.reset) = some 2 ∧
    valueOf (exec .rdConfig (stateOf { Block.powerOn with yawAxis := .x })) = some 0 := by decide

theorem test_rdFifoCount : valueOf (exec .rdFifoCount (stateOf (running (List.replicate 38 0)))) = some 0x26 := by
  decide

/-- V45.12. -/
theorem test_rdIntegAngle : valueOf (exec .rdIntegAngle State.reset) = some 0 := by decide

/-- V45.11, for every one of the ten reads. -/
theorem test_unwrittenRead : ∀ r ∈ outputReads Block.powerOn, faultOf (exec r.1 State.reset) = some .unwrittenRead := by
  decide

/-- Each of the ten reads returns its own register. -/
theorem test_outputReads :
    let b : Block := ⟨[], false, 0, 21, 22, true, false, false, .z, 8, 9, 10, 11, 12, 13, 14, 15, 16, 17, 18⟩
    [Instr.rdGyroX, .rdGyroY, .rdGyroZ, .rdAccelX, .rdAccelY, .rdAccelZ, .rdAccAngleX, .rdAccAngleY,
      .rdCompAngleX, .rdCompAngleY].map (fun i => valueOf (exec i (stateOf b))) =
    [some 9, some 10, some 11, some 12, some 13, some 14, some 15, some 16, some 17, some 18] := by decide

/-- V45.3 and V45.4. -/
theorem test_wrStatus :
    (blockOf (exec (.wrStatus 8) (stateOf { running [] with illegal := true, ovf := true }))).map statusWord = some 5 ∧
    (blockOf (exec (.wrStatus 3) (stateOf { running [] with first := true, illegal := true, ovf := true }))).map
      statusWord = some 0xF := by decide

/-- V45.5 and V45.7. -/
theorem test_wrConfig : (blockOf (exec (.wrConfig 3) State.reset)).map (fun b => yawCode b.yawAxis) = some 2 ∧
    (blockOf (exec (.wrConfig 0xFFFFFFFFFFFFFFFD) State.reset)).map (fun b => yawCode b.yawAxis) = some 1 := by
  decide

/-- V20.2 and V20.3. -/
theorem test_push_when_full :
    (fifoPush { testParams with fifoDepth := 19 } 0x55 (running (List.replicate 19 0))) =
      { running (List.replicate 19 0) with ovf := true } ∧
    (fifoPush { testParams with fifoDepth := 19 } 0x55 (running (List.replicate 18 0))).fifo.length = 19 := by
  decide

/-- V20.1, on the machine. -/
theorem test_wrFifoData : ∃ t, exec (.wrFifoData 0xFFFFFFFF000003E8) State.reset = .next t ∧
    t.block.fifo = [0x000003E8] := by
  refine ⟨_, rfl, ?_⟩
  rw [commit_block, fifoPush_of_lt (Nat.succ_le_of_lt (Nat.lt_add_left _ (by decide)))]
  decide

/-- V45.10. -/
theorem test_wrIgn : blockOf (exec (.wrIgn 0x08 0x4000000000000000) State.reset) = some Block.powerOn := by
  decide

/-! ### Steps -/

/-- `withFetchWord` issues the transaction the next step takes. -/
theorem test_step_runs_the_word : blockOf (step (State.reset.withFetchWord 72 0x200000000000000007)) =
    some { Block.powerOn with illegal := true } := by decide

theorem test_step_idle : blockOf (step State.reset) = some Block.powerOn := by decide

/-! ### Witnesses: for each statement with hypotheses, inputs that meet all of them, at the ends of each range

The name of a witness is `witness_` and the name of the statement. -/

theorem testParams_legal : legalParams testParams := by
  refine ⟨by decide +kernel, by decide +kernel, by decide +kernel, by decide +kernel, by decide +kernel,
    by decide +kernel, by decide, fun y x hy hx => ?_⟩
  show atan2Allows y x (shapeAtan2 (fun _ _ => 0) y x) = true
  exact shapeAtan2_allowed (fun _ _ => 0) hy hx

/-- A safe state after the first frame, with one level frame buffered and a transaction waiting. -/
def safeState (pending : List PortWord) : State := ⟨running levelFrame.toList, pending, none⟩

theorem safeState_inv (pending : List PortWord) : Inv (safeState pending) := by
  show safeBlock machineParams (running levelFrame.toList)
  refine ⟨Nat.le_add_left _ _, by decide, by decide +kernel, fun _ => ⟨by decide +kernel, by decide +kernel,
    fmul_zero_rad2deg.symm, fmul_zero_rad2deg.symm, fun x hx => ?_⟩⟩
  rw [show x = 0 by simpa [readings, running, Block.powerOn] using hx]
  exact isFinite_zero

/-- A full FIFO, whatever the depth. -/
def fullBlock : Block := { Block.powerOn with fifo := List.replicate machineParams.fifoDepth 0 }

theorem witness_DecodeOfEncodeIsTheInstruction :
    (Instr.drain).wf = true ∧ (Instr.wrStatus (-1)).wf = true ∧
    (Instr.cmdIllegal 5).wf = true ∧ (Instr.cmdIllegal (-1)).wf = true ∧
    (Instr.rdRsv 0x05).wf = true ∧ (Instr.rdRsv 0x07).wf = true ∧ (Instr.rdRsv 0x13).wf = true ∧
    (Instr.rdRsv 0x1F).wf = true ∧ (Instr.wrIgn 0x04 0).wf = true ∧ (Instr.wrIgn 0x1F (-1)).wf = true := by
  decide

/-- START's word matches three rows. -/
theorem witness_DecodeSelectsTheMostSpecificRow :
    (opcodeTable.filter fun r => r.matches 0x200000000000000001).map OpcodeRow.mnemonic =
      ["START", "CMD.ILLEGAL", "WR.IGN"] := by decide

theorem witness_EveryPortWordIsTheCodeOfItsInstruction :
    PortWord.w 0x200000000000000000 = true ∧ PortWord.w 0x1FFFFFFFFFFFFFFFFF = false := by decide

theorem witness_StepRunsTheOldestTransaction :
    (safeState [0x08FFFFFFFFFFFFFFFF, 0]).port.pending = [0x08FFFFFFFFFFFFFFFF, 0] ∧
    (safeState [encode .step, 0]).port.pending = [encode .step, 0] ∧ Instr.step.wf = true ∧
    State.reset.port.pending = [] ∧ 2 ^ 70 - 1 < 2 ^ 70 := by decide

theorem witness_ReadsReturnAValueAndWritesNothing :
    (∃ t, exec .rdStatus State.reset = .next t) ∧ ∃ t, exec .start State.reset = .next t :=
  ⟨⟨_, rfl⟩, ⟨_, rfl⟩⟩

theorem witness_OutputReadsReturnTheirRegister :
    (safeState []).block.valid = true ∧ (.rdCompAngleY, 0) ∈ outputReads (safeState []).block ∧
    State.reset.block.valid = false ∧ (.rdGyroX, 0) ∈ outputReads State.reset.block := by decide

theorem witness_UnwrittenReadIsRaisedExactlyBeforeTheFirstFrame :
    State.reset.block.valid = false ∧ ∃ r ∈ outputReads State.reset.block, r.1 = .rdGyroX := by decide

theorem witness_ReadsChangeNoBlockState :
    (encode .rdGyroX).w = false ∧ ∃ t, exec .rdGyroX (safeState []) = .next t := ⟨by decide, _, rfl⟩

theorem witness_ConfigWriteSetsALegalAxis :
    (BitVec.toNat (3 : Data)) % 4 = 3 ∧ (BitVec.toNat (-1 : Data)) % 4 = 3 ∧
    (BitVec.toNat (2 : Data)) % 4 ≠ 3 ∧ (BitVec.toNat (0 : Data)) % 4 ≠ 3 := by decide

/-- One word less than full, and full. -/
theorem witness_FifoWriteAppendsOrSetsOverflow :
    (List.replicate (machineParams.fifoDepth - 1) (0 : FifoWord)).length < machineParams.fifoDepth ∧
    machineParams.fifoDepth ≤ fullBlock.fifo.length := by
  have h : 19 ≤ machineParams.fifoDepth := Nat.le_add_left _ _
  constructor
  · rw [List.length_replicate]; omega
  · simp [fullBlock]

/-- The least and the greatest illegal `OP`, and the least and the greatest illegal `RSV`. -/
theorem witness_IllegalCommandSetsOnlyItsBit :
    5 ≤ BitVec.toNat (5 : Data) % 16 ∧ 5 ≤ BitVec.toNat (15 : Data) % 16 ∧
    BitVec.toNat (16 : Data) / 16 ≠ 0 ∧ BitVec.toNat (0xFFFFFFFFFFFFFFF4 : Data) / 16 ≠ 0 := by decide

/-- A NaN in the filter state of a later frame leaves the domain of the normalisation, whatever the parameters:
the fault clause of STEP is met, though in no safe state. -/
theorem filterStep_nan (p : Params) {cX : F64} (cY : F64) (a gs : Vec3) (dt : F64) (h : isNaN cX = true) :
    filterStep p false cX cY a gs dt = .error .normOutOfDomain := by
  have hc : formatFastConverge cX (accAngleOfX p a) = cX := by
    simp [formatFastConverge, fgt, flt_of_isNaN (.inr h), flt_of_isNaN (.inl (isNaN_fadd (.inl h)))]
  have hb : isNaN (filterBlend p cX (accAngleOfX p a) (omegaX gs) dt) = true := by
    rw [filterBlend, hc]
    exact isNaN_fadd (.inl (isNaN_fmul (.inr (isNaN_fadd (.inl h)))))
  simp [filterStep, compFilterProcess, formatRange0to2PI, normDomain, isFinite_of_isNaN hb]

theorem witness_StepProcessesOneCompleteFrame :
    (running (List.replicate 18 0)).fifo.length < 19 ∧ 19 ≤ (running (List.replicate 19 0)).fifo.length ∧
    (∃ b, processFrame machineParams levelFrame { atFirstFrame with fifo := [] } = .ok b) ∧
    processFrame machineParams levelFrame { running [] with compX := 0x7FF8000000000000 } =
      .error .normOutOfDomain := by
  refine ⟨by decide, by decide, ⟨_, rfl⟩, ?_⟩
  have h := filterStep_nan machineParams (cX := 0x7FF8000000000000) 0
    (scaleFrame machineParams (decodeFrame levelFrame) 0).accSI
    (scaleFrame machineParams (decodeFrame levelFrame) 0).gs
    (scaleFrame machineParams (decodeFrame levelFrame) 0).dt (by decide)
  simp only [processFrame, frameFilter, running, Block.powerOn, h]

/-- One complete frame and six words, and 18 words. -/
theorem witness_DrainLeavesTheRemainder :
    (∃ t, exec .drain (stateOf { atFirstFrame with fifo := levelFrame.toList ++ [1, 2, 3, 4, 5, 6] }) = .next t) ∧
    (∃ t, exec .drain (stateOf (running (List.replicate 18 0))) = .next t) ∧
    (running (List.replicate 18 0)).fifo.length < 19 := ⟨⟨_, rfl⟩, ⟨_, rfl⟩, by decide⟩

theorem witness_FrameCommandsLeaveTheRestAlone :
    (∃ t, exec .step (stateOf atFirstFrame) = .next t) ∧ (∃ t, exec .drain (stateOf atFirstFrame) = .next t) ∧
    (∃ t, exec .step State.reset = .next t) ∧ State.reset.block.fifo.length < 19 :=
  ⟨⟨_, rfl⟩, ⟨_, rfl⟩, ⟨_, rfl⟩, by decide⟩

theorem witness_StepCompletesOnAFirstFrame :
    (stateOf atFirstFrame).block.first = true ∧ 19 ≤ (stateOf atFirstFrame).block.fifo.length := by decide

theorem witness_StepCompletesOnALaterFrame :
    Inv (safeState []) ∧ (safeState []).block.first = false ∧ 19 ≤ (safeState []).block.fifo.length :=
  ⟨safeState_inv _, by decide, by decide⟩

/-- Two blocks that differ in `CONFIG` and an output register. -/
theorem witness_FrameStepReadsOnlyItsInputs :
    let b₂ : Block := { atFirstFrame with yawAxis := .x, gyroX := 1, illegal := true }
    atFirstFrame ≠ b₂ ∧ atFirstFrame.fifo = b₂.fifo ∧ atFirstFrame.first = b₂.first ∧
    atFirstFrame.prevTs = b₂.prevTs ∧ atFirstFrame.integAngle = b₂.integAngle ∧
    atFirstFrame.compX = b₂.compX ∧ atFirstFrame.compY = b₂.compY ∧
    ∃ c, processFrame testParams levelFrame atFirstFrame = .ok c :=
  ⟨by decide, rfl, rfl, rfl, rfl, rfl, rfl, _, rfl⟩

/-- A frame that differs from the level one in its gyro and accel words, and one that differs in its delta-angle
and Z-rate words. -/
theorem witness_IntegratorAndFilterUseSeparateChannels :
    (∀ k : Fin 19, k.val ∈ [0, 3, 4, 5, 6] → levelFrame[k] = (frame 1000 4096 1 2 3 4 5 6)[k]) ∧
    (∀ k : Fin 19, k.val ∉ [1, 2, 3, 4, 5, 6, 11, 12] → levelFrame[k] = (frame 1000 (-1) 0 0 77 0 0 800)[k]) ∧
    (∃ c, processFrame testParams levelFrame atFirstFrame = .ok c) ∧
    (∃ c, processFrame testParams (frame 1000 4096 1 2 3 4 5 6) atFirstFrame = .ok c) ∧
    ∃ c, processFrame testParams (frame 1000 (-1) 0 0 77 0 0 800) atFirstFrame = .ok c :=
  ⟨by decide, by decide, ⟨_, rfl⟩, ⟨_, rfl⟩, ⟨_, rfl⟩⟩

/-- A push to a full FIFO, an illegal command, and a write of 1 to both bits. -/
theorem witness_StickyBitsHaveOneCauseEach :
    (∃ t, exec (.wrFifoData 0) (stateOf fullBlock) = .next t) ∧
    (∃ t, exec (.cmdIllegal 5) State.reset = .next t) ∧
    ∃ t, exec (.wrStatus 0xC) (stateOf { Block.powerOn with illegal := true, ovf := true }) = .next t :=
  ⟨⟨_, rfl⟩, ⟨_, rfl⟩, ⟨_, rfl⟩⟩

theorem witness_OnlyFramesSetValidAndOnlyStartSetsFirst :
    processesFrame .drain atFirstFrame = true ∧ (∃ t, exec .drain (stateOf atFirstFrame) = .next t) ∧
    ∃ t, exec .start (safeState []) = .next t := ⟨by decide, ⟨_, rfl⟩, ⟨_, rfl⟩⟩

theorem witness_OnlyFramesStartAndResetWriteTheIntegratedAngle :
    (∃ t, exec .start (safeState []) = .next t) ∧ (∃ t, exec .reset (safeState []) = .next t) ∧
    processesFrame .step (running (List.replicate 18 0)) = false ∧
    ∃ t, exec .step (stateOf (running (List.replicate 18 0))) = .next t :=
  ⟨⟨_, rfl⟩, ⟨_, rfl⟩, by decide, ⟨_, rfl⟩⟩

theorem witness_RepeatingATransactionChangesNothing :
    (∀ d, Instr.drain ≠ .wrFifoData d) ∧ processesFrame .drain (running (List.replicate 18 0)) = false ∧
    (∃ t, exec .drain (stateOf (running (List.replicate 18 0))) = .next t) ∧
    (∀ d, Instr.start ≠ .wrFifoData d) ∧ ∃ t, exec .start (safeState []) = .next t :=
  ⟨by simp, by decide, ⟨_, rfl⟩, by simp, ⟨_, rfl⟩⟩

/-- A frame pushed and processed after power-on publishes. -/
theorem run_from_reset : ∃ t, execAll (pushes levelFrame.toList ++ [.step]) State.reset = .next t ∧
    t.block.valid = true := by
  rw [execAll_append]
  have h := execAll_pushes levelFrame.toList State.reset (Nat.le_add_left _ _)
  rw [show { State.reset with port := { State.reset.port with response := none } } = State.reset from rfl] at h
  rw [h]
  exact ⟨_, rfl, rfl⟩

/-- That run holds no guarded read, and completes after power-on; after a START in the middle of a session too. -/
theorem witness_StartIsAsGoodAsPowerOn :
    (∀ i ∈ pushes levelFrame.toList ++ [.step], ∀ r ∈ outputReads (safeState []).block, i ≠ r.1) ∧
    (∃ t, execAll (.start :: (pushes levelFrame.toList ++ [.step])) (safeState []) = .next t) ∧
    ∃ t, execAll (pushes levelFrame.toList ++ [.step]) State.reset = .next t ∧ t.block.valid = true := by
  refine ⟨?_, ?_, run_from_reset⟩
  · intro i hi
    rcases List.mem_append.mp hi with h | h
    · obtain ⟨w, _, rfl⟩ := List.mem_map.mp h
      simp [outputReads]
    · rw [List.mem_singleton.mp h]
      simp [outputReads]
  · have h := execAll_pushes levelFrame.toList
      (stateOf { running [] with first := true, prevTs := 0, integAngle := 0 }) (Nat.le_add_left _ _)
    rw [show execAll (.start :: (pushes levelFrame.toList ++ [.step])) (safeState []) =
      execAll (pushes levelFrame.toList ++ [.step])
        (stateOf { running [] with first := true, prevTs := 0, integAngle := 0 }) from rfl, execAll_append]
    rw [show execAll (pushes levelFrame.toList)
      (stateOf { running [] with first := true, prevTs := 0, integAngle := 0 }) = _ from h]
    exact ⟨_, rfl⟩

/-- Another sequence without guarded reads, and a guarded read, which stops after power-on. -/
theorem witness_StartIsAsGoodAsPowerOn_reads :
    (∀ i ∈ [Instr.rdStatus, .drain], ∀ r ∈ outputReads State.reset.block, i ≠ r.1) ∧
    (∃ t, execAll [.rdStatus, .drain] State.reset = .next t) ∧
    execAll [.rdGyroX] State.reset = .fault .unwrittenRead := ⟨by decide, ⟨_, rfl⟩, rfl⟩

/-- A push, a STEP, eighteen pushes and a DRAIN: together as many words as the smallest FIFO holds. -/
theorem witness_PacingDoesNotChangeTheResults :
    let is := Instr.wrFifoData 7 :: .step :: (List.replicate 18 (.wrFifoData 0) ++ [.drain])
    (∀ i ∈ is, i = .step ∨ i = .drain ∨ ∃ d, i = .wrFifoData d) ∧
    State.reset.block.fifo.length + (pushedWords is).length ≤ machineParams.fifoDepth := by
  refine ⟨?_, Nat.le_add_left _ _⟩
  intro i hi
  simp only [List.mem_cons, List.mem_append, List.mem_replicate, List.not_mem_nil, or_false] at hi
  rcases hi with rfl | rfl | ⟨_, rfl⟩ | rfl <;> simp

theorem witness_EveryStepKeepsTheInvariant :
    Inv (safeState [encode .start]) ∧ ∃ t, step (safeState [encode .start]) = .next t :=
  ⟨safeState_inv _, _, rfl⟩

theorem witness_SafeStatesCompleteEveryInstruction :
    Inv (safeState []) ∧ (safeState []).block.valid = true ∧
    ∀ r ∈ outputReads (safeState []).block, Instr.step ≠ r.1 := ⟨safeState_inv _, by decide, by decide⟩

theorem witness_DrainCompletesInSafeStates : Inv (safeState []) := safeState_inv _

theorem witness_PublishedValuesAreFinite :
    ∃ t, execAll (pushes levelFrame.toList ++ [.step]) State.reset = .next t ∧ t.block.valid = true :=
  run_from_reset

/-- A function that meets rule R21. -/
theorem witness_MachineParametersMeetTheirConstraints :
    ∀ y x, isFinite y = true → isFinite x = true → atan2Allows y x (testParams.atan2 y x) = true :=
  testParams_legal.2.2.2.2.2.2.2

/-- The ends of the domain and of the range. -/
theorem witness_NormalisationEndsInRange :
    normDomain 0x433FFFFFFFFFFFFF = true ∧ normDomain 0xC33FFFFFFFFFFFFF = true ∧
    normalised 0 = true ∧ normalised 0x8000000000000000 = true ∧ normalised 0x401921FB54442D17 = true ∧
    normDomain 0x4340000000000000 = false ∧ normDomain 0xFFF0000000000000 = false := by decide +kernel

/-- The ends of the range: `-PI/2` and `TWO_PI`. -/
theorem witness_FastConvergenceShiftsAtMostOneTurn :
    inTurn (fneg halfPi) = true ∧ inTurn twoPi = true := by decide +kernel

theorem witness_AccelAnglesAreInRange : legalParams testParams := testParams_legal

/-- A zero time step and the longest one. -/
theorem witness_AlphaIsAWeight :
    legalParams testParams ∧ isFinite (dtOf 0) = true ∧ 0 ≤ fval (dtOf 0) ∧ isZero (dtOf 0) = true ∧
    isFinite (dtOf 4294967295) = true ∧ 0 ≤ fval (dtOf 4294967295) :=
  ⟨testParams_legal, by decide +kernel, by decide +kernel, by decide +kernel, by decide +kernel,
    by decide +kernel⟩

/-- The least and the greatest raw sample. -/
theorem witness_EqualTimestampsAddNothing :
    legalParams testParams ∧ -2 ^ 31 ≤ (-2147483648 : Int) ∧ (2147483647 : Int) < 2 ^ 31 ∧
    isFinite 0xFFEFFFFFFFFFFFFF = true := ⟨testParams_legal, by decide, by decide, by decide⟩

theorem witness_EachFrameAddsLessThan2To192 :
    legalParams testParams ∧ -2 ^ 31 ≤ (-2147483648 : Int) ∧ (2147483647 : Int) < 2 ^ 31 :=
  ⟨testParams_legal, by decide, by decide⟩

/-- Opposite values, equal values, and a sum on each side of the overflow bound. -/
theorem witness_SumsAreCorrectlyRounded :
    isFinite 0x7FEFFFFFFFFFFFFF = true ∧ isFinite 0xFFEFFFFFFFFFFFFF = true ∧
    fval 0x7FEFFFFFFFFFFFFF + fval 0xFFEFFFFFFFFFFFFF = 0 ∧
    overflowUnits * 1 ≤ (fval 0x7FEFFFFFFFFFFFFF + fval 0x7FEFFFFFFFFFFFFF).natAbs ∧
    (fval 0x7FEFFFFFFFFFFFFF + fval 1).natAbs < overflowUnits * 1 := by decide +kernel

/-- A product and a quotient on each side of the overflow bound. -/
theorem witness_ProductsAndQuotientsAreCorrectlyRounded :
    isFinite 0x7FEFFFFFFFFFFFFF = true ∧ isFinite 0x4000000000000000 = true ∧ isFinite one = true ∧
    isFinite 0x3FE0000000000000 = true ∧ isZero 0x3FE0000000000000 = false ∧ isZero one = false ∧
    overflowUnits * oneUnits ≤ (fval 0x7FEFFFFFFFFFFFFF * fval 0x4000000000000000).natAbs ∧
    (fval 0x7FEFFFFFFFFFFFFF * fval one).natAbs < overflowUnits * oneUnits ∧
    overflowUnits * (fval 0x3FE0000000000000).natAbs ≤
      (fval 0x7FEFFFFFFFFFFFFF * (fval 0x3FE0000000000000).sign * oneUnits).natAbs ∧
    (fval 0x7FEFFFFFFFFFFFFF * (fval one).sign * oneUnits).natAbs < overflowUnits * (fval one).natAbs := by
  decide +kernel

/-- The square root of 2 lies between 1 and 2. -/
theorem witness_SquareRootsAreCorrectlyRounded :
    isFinite 0x4000000000000000 = true ∧ fsign 0x4000000000000000 = false ∧ isFinite one = true ∧
    fsign one = false ∧ fval one < fval (fsqrt 0x4000000000000000) ∧
    fval (fsqrt 0x4000000000000000) < fval 0x4000000000000000 := by decide +kernel

theorem witness_SmallIntegersConvertExactly :
    (2 ^ 53 : Int).natAbs ≤ 2 ^ 53 ∧ (-2 ^ 53 : Int).natAbs ≤ 2 ^ 53 := by decide

/-- A NaN, both infinities, both zeros, a finite value and a negative one. -/
theorem witness_SpecialOperandsFollowIEEE754 :
    isNaN 0x7FF8000000000000 = true ∧ isInf 0x7FF0000000000000 = true ∧ fsign 0x7FF0000000000000 = false ∧
    isInf 0xFFF0000000000000 = true ∧ fsign 0xFFF0000000000000 = true ∧ isNaN 0xFFF0000000000000 = false ∧
    isZero 0 = true ∧ isZero 0x8000000000000000 = true ∧ isFinite one = true ∧ isZero one = false ∧
    fsign 0x8000000000000001 = true ∧ isZero 0x8000000000000001 = false ∧ isNaN 0x8000000000000001 = false := by
  decide

/-- Right after reset, where the model stops and hardware returns a pattern. -/
theorem witness_HardwareReturnsAnUnspecifiedPatternBeforeTheFirstFrame :
    State.reset.block.valid = false ∧ hardwareNext .rdGyroX State.reset ⟨Block.powerOn, [], some 7⟩ ∧
    hardwareNext .rdIntegAngle State.reset ⟨Block.powerOn, [], some 0⟩ :=
  ⟨rfl, .inr ⟨rfl, 7, rfl⟩, .inl rfl⟩

theorem witness_HardwareGoesOnFromEverySafeState :
    Inv (safeState []) ∧ Inv State.reset ∧ hardwareNext .rdGyroX State.reset ⟨Block.powerOn, [], some 7⟩ :=
  ⟨safeState_inv _, ⟨Nat.zero_le _, by decide, by decide +kernel, fun h => absurd h (by decide)⟩,
    .inr ⟨rfl, 7, rfl⟩⟩

/-- A guarded read as the first transaction after reset, and a step of the machine. -/
theorem witness_HardwareTransactionsNeverFail :
    (∃ t, step (safeState [encode .start]) = .next t) ∧ Inv (State.reset.withPending [encode .rdGyroX]) ∧
    (State.reset.withPending [encode .rdGyroX]).port.pending = [encode .rdGyroX] ∧
    hardwareStep (State.reset.withPending [encode .rdGyroX]) ⟨Block.powerOn, [], some 7⟩ :=
  ⟨⟨_, rfl⟩, ⟨Nat.zero_le _, by decide, by decide +kernel, fun h => absurd h (by decide)⟩, rfl,
    .inr ⟨rfl, 7, rfl⟩⟩

end Sys2Proof.Tests
end

section
/-! ## Rounding to nearest, ties to even (00_scope.md rule R14)

A pattern is nearest to a quotient when the quotient lies between the midpoints to its neighbours. The lemmas of
this part say so of `roundMag` below the overflow bound, and carry it over to signed values. -/

namespace Sys2Proof.Machine

/-! ### Midpoints -/

/-- The pattern `r` is nearest to `n / d` units: the quotient is on the near side of the midpoint to every other
pattern, and on a midpoint only if `r` is even. -/
structure NearestMag (n d r : Nat) : Prop where
  below : ∀ m < r, d * (units m + units r) ≤ 2 * n ∧ (d * (units m + units r) = 2 * n → r % 2 = 0)
  above : ∀ m, r < m → 2 * n ≤ d * (units r + units m) ∧ (2 * n = d * (units r + units m) → r % 2 = 0)

/-- The midpoints to the two neighbours decide. -/
theorem nearestMag_of_neighbours {n d r : Nat}
    (hlo : 0 < r → d * (units (r - 1) + units r) ≤ 2 * n ∧
      (d * (units (r - 1) + units r) = 2 * n → r % 2 = 0))
    (hhi : 2 * n ≤ d * (units r + units (r + 1)) ∧ (2 * n = d * (units r + units (r + 1)) → r % 2 = 0)) :
    NearestMag n d r where
  below m hm := by
    obtain ⟨h1, h2⟩ := hlo (by omega)
    have hle : d * (units m + units r) ≤ d * (units (r - 1) + units r) :=
      Nat.mul_le_mul_left d (Nat.add_le_add_right (units_le_iff.mpr (by omega)) _)
    exact ⟨by omega, fun h => h2 (by omega)⟩
  above m hm := by
    obtain ⟨h1, h2⟩ := hhi
    have hle : d * (units r + units (r + 1)) ≤ d * (units r + units m) :=
      Nat.mul_le_mul_left d (Nat.add_le_add_left (units_le_iff.mpr (by omega)) _)
    exact ⟨by omega, fun h => h2 (by omega)⟩

/-- Rounding to an integer leaves at most half the divisor, and half of it only at an even integer. -/
theorem roundQuot_nearest {n d : Nat} (hd : 0 < d) :
    (2 * n ≤ 2 * (roundQuot n d * d) + d ∧
      (2 * n = 2 * (roundQuot n d * d) + d → roundQuot n d % 2 = 0)) ∧
    (2 * (roundQuot n d * d) ≤ 2 * n + d ∧
      (2 * (roundQuot n d * d) = 2 * n + d → roundQuot n d % 2 = 0)) := by
  have hn := Nat.div_add_mod' n d
  have hr := Nat.mod_lt n hd
  unfold roundQuot
  split
  · omega
  · split
    · rw [Nat.add_mul, Nat.one_mul]
      omega
    · rcases Nat.mod_two_eq_zero_or_one (n / d) with h | h
      · rw [h, Nat.add_zero]
        omega
      · rw [h, Nat.add_mul, Nat.one_mul]
        omega

/-- The pattern of `n / d` before the cut at infinity. -/
def roundRaw (n d : Nat) : Nat :=
  ((n / d).log2 - 52) * 2 ^ 52 + roundQuot n (d * 2 ^ ((n / d).log2 - 52))

theorem roundMag_eq_min (n d : Nat) : roundMag n d = min (roundRaw n d) infMag := rfl

/-- The next pattern after a scaled one is at least one last place away. -/
theorem le_units_scaled_succ {k q : Nat} (hq : q ≤ 2 ^ 53) (h : 2 ^ 52 ≤ q ∨ k = 0) :
    (q + 1) * 2 ^ k ≤ units (k * 2 ^ 52 + q + 1) := by
  rcases Nat.lt_or_ge q (2 ^ 53) with hlt | hge
  · rw [Nat.add_assoc, units_scaled (by omega) (by omega)]
  · rw [show k * 2 ^ 52 + q + 1 = (k + 1) * 2 ^ 52 + (2 ^ 52 + 1) by omega,
      units_scaled (by norm_num) (.inl (by norm_num)), pow_succ' 2 k, ← Nat.mul_assoc]
    exact Nat.mul_le_mul_right _ (by omega)

/-- The pattern before a scaled one is one last place away, unless the exponent moves there. -/
theorem units_scaled_pred {k q : Nat} (hq : q ≤ 2 ^ 53) (h0 : 0 < q) (h : 2 ^ 52 < q ∨ k = 0) :
    units (k * 2 ^ 52 + q - 1) + 2 ^ k = q * 2 ^ k := by
  rw [Nat.add_sub_assoc h0, units_scaled (by omega) (by omega), ← Nat.succ_mul, Nat.succ_eq_add_one,
    Nat.sub_add_cancel h0]

/-- Rounding gives a nearest pattern. -/
theorem roundRaw_nearest {n d : Nat} (hd : 0 < d) : NearestMag n d (roundRaw n d) := by
  obtain ⟨hq, hfull⟩ := significand_bounds n d
  have hD : 0 < d * 2 ^ ((n / d).log2 - 52) := by positivity
  obtain ⟨⟨hup, hupe⟩, hdn, hdne⟩ := roundQuot_nearest (n := n) hD
  -- where the exponent moves, the quotient is not below the power of two
  have hge : (n / d).log2 - 52 ≠ 0 → 2 ^ 52 * (d * 2 ^ ((n / d).log2 - 52)) ≤ n := by
    intro hk
    rcases step_cases (n / d) with ⟨h0, _⟩ | ⟨_, h1, _⟩
    · exact absurd h0 hk
    · rw [Nat.le_div_iff_mul_le hd, pow_add] at h1
      linarith
  unfold roundRaw
  generalize roundQuot n (d * 2 ^ ((n / d).log2 - 52)) = q at *
  generalize (n / d).log2 - 52 = k at *
  have hu : d * units (k * 2 ^ 52 + q) = q * (d * 2 ^ k) := by
    rw [units_scaled hq hfull.symm, Nat.mul_left_comm]
  have heven : q % 2 = 0 → (k * 2 ^ 52 + q) % 2 = 0 := by omega
  apply nearestMag_of_neighbours
  · intro hpos
    rw [Nat.mul_add, hu]
    by_cases hm : 2 ^ 52 < q ∨ k = 0
    · have hp := congrArg (d * ·) (units_scaled_pred hq (by omega) hm)
      simp only [Nat.mul_add, Nat.mul_left_comm d q] at hp
      exact ⟨by omega, fun h => heven (hdne (by omega))⟩
    · have hlt : d * units (k * 2 ^ 52 + q - 1) < q * (d * 2 ^ k) := by
        rw [← hu]
        exact Nat.mul_lt_mul_of_pos_left (units_lt_iff.mpr (by omega)) hd
      have := hge (by omega)
      rw [show 2 ^ 52 = q by omega] at this
      omega
  · have hs := Nat.mul_le_mul_left d (le_units_scaled_succ hq hfull.symm)
    rw [Nat.mul_left_comm, Nat.add_mul, Nat.one_mul] at hs
    rw [Nat.mul_add, hu]
    exact ⟨by omega, fun h => heven (hupe (by omega))⟩

/-! ### The overflow bound -/

/-- The overflow bound is the midpoint of the largest finite pattern and infinity's. -/
theorem two_mul_overflowUnits : 2 * overflowUnits = units (infMag - 1) + units infMag := by
  decide +kernel

theorem roundRaw_lt_infMag {n d : Nat} (hd : 0 < d) (h : n < overflowUnits * d) : roundRaw n d < infMag := by
  by_contra hge
  have hinf : 0 < infMag := by decide
  have hb := ((roundRaw_nearest (n := n) hd).below (infMag - 1) (by omega)).1
  have hm : d * (2 * overflowUnits) ≤ d * (units (infMag - 1) + units (roundRaw n d)) := by
    rw [two_mul_overflowUnits]
    exact Nat.mul_le_mul_left d (Nat.add_le_add_left (units_le_iff.mpr (by omega)) _)
  linarith

theorem infMag_le_roundRaw {n d : Nat} (hd : 0 < d) (h : overflowUnits * d ≤ n) : infMag ≤ roundRaw n d := by
  by_contra hlt
  obtain ⟨ha, he⟩ := (roundRaw_nearest (n := n) hd).above infMag (by omega)
  have hm : d * (units (roundRaw n d) + units infMag) ≤ d * (2 * overflowUnits) := by
    rw [two_mul_overflowUnits]
    exact Nat.mul_le_mul_left d (Nat.add_le_add_right (units_le_iff.mpr (by omega)) _)
  have heq : units (roundRaw n d) = units (infMag - 1) := by
    have : d * (units (roundRaw n d) + units infMag) = d * (2 * overflowUnits) := by linarith
    have := Nat.eq_of_mul_eq_mul_left hd this
    rw [two_mul_overflowUnits] at this
    omega
  have hr : roundRaw n d = infMag - 1 := units_strictMono.injective heq
  have := he (by linarith)
  rw [hr] at this
  exact absurd this (by decide)

/-- Below the overflow bound `roundMag` gives a finite pattern, and it is nearest. -/
theorem roundMag_nearest {n d : Nat} (hd : 0 < d) (h : n < overflowUnits * d) :
    roundMag n d < infMag ∧ NearestMag n d (roundMag n d) := by
  have hlt := roundRaw_lt_infMag hd h
  rw [roundMag_eq_min, Nat.min_eq_left hlt.le]
  exact ⟨hlt, roundRaw_nearest hd⟩

/-- From the overflow bound on `roundMag` gives infinity. -/
theorem roundMag_overflow {n d : Nat} (hd : 0 < d) (h : overflowUnits * d ≤ n) : roundMag n d = infMag := by
  rw [roundMag_eq_min, Nat.min_eq_right (infMag_le_roundRaw hd h)]

/-! ### Signed values -/

/-- A nearest pattern is nearest among signed values too: `w` is any signed value with a pattern `m`. -/
theorem NearestMag.dist_le {n d r m : Nat} {w : Int} (h : NearestMag n d r) (hd : 0 < d)
    (hw : w.natAbs = units m) :
    |(d : Int) * units r - n| ≤ |(d : Int) * w - n| ∧
    (|(d : Int) * units r - n| = |(d : Int) * w - n| → w ≠ units r → r % 2 = 0) := by
  have hmul : ∀ {i j : Nat}, i < j → d * units i < d * units j := fun hij =>
    Nat.mul_lt_mul_of_pos_left (units_lt_iff.mpr hij) hd
  rw [← Nat.cast_mul, Int.abs_eq_natAbs, Int.abs_eq_natAbs]
  rcases le_or_gt 0 w with hpos | hneg
  · rw [show w = units m by omega, ← Nat.cast_mul]
    rcases lt_trichotomy m r with hlt | rfl | hgt
    · have hb := h.below m hlt
      have := hmul hlt
      rw [Nat.mul_add] at hb
      omega
    · exact ⟨le_rfl, fun _ hne => absurd rfl hne⟩
    · have ha := h.above m hgt
      have := hmul hgt
      rw [Nat.mul_add] at ha
      omega
  · have hr : d * units r ≤ 2 * n := by
      rcases Nat.eq_zero_or_pos r with rfl | h0
      · simp
      · simpa using (h.below 0 h0).1
    have hm : 0 < d * units m := Nat.mul_pos hd (by omega)
    rw [show w = -units m by omega, mul_neg, ← Nat.cast_mul]
    omega

theorem isFinite_fpack (s : Bool) {m : Nat} (h : m < infMag) : isFinite (fpack s m) = true := by
  rw [isFinite_iff, fmag_fpack _ (h.trans (by norm_num [infMag]))]
  exact h

theorem fneg_fpack (s : Bool) {m : Nat} (h : m < 2 ^ 63) : fneg (fpack s m) = fpack (!s) m := by
  rw [fneg, fsign_fpack _ h, fmag_fpack _ h]

/-- Below the overflow bound the rounded magnitude is the nearest value. -/
theorem nearestEven_fpack {n d : Nat} (hd : 0 < d) (h : n < overflowUnits * d) :
    nearestEven n d (fpack false (roundMag n d)) := by
  obtain ⟨hfin, hn⟩ := roundMag_nearest hd h
  refine ⟨isFinite_fpack _ hfin, fun y _ => ?_⟩
  rw [fmag_fpack _ (roundMag_lt _ _), fval_fpack _ (roundMag_lt _ _), if_neg Bool.false_ne_true]
  exact hn.dist_le hd (natAbs_fval y)

/-- Rounding to nearest is symmetric in the sign. -/
theorem nearestEven_fneg {z : Int} {d : Nat} {r : F64} (h : nearestEven z d r) : nearestEven (-z) d (fneg r) := by
  obtain ⟨hfin, hnear⟩ := h
  have hflip : ∀ u : Int, |(d : Int) * -u - z| = |(d : Int) * u - -z| := fun u => by
    rw [← abs_neg]
    congr 1
    ring
  refine ⟨by rwa [isFinite_fneg], fun y hy => ?_⟩
  have hy' := hnear (fneg y) (by rwa [isFinite_fneg])
  rw [fval_fneg, hflip] at hy'
  rw [fval_fneg, fmag_fneg, ← hflip, neg_neg]
  exact ⟨hy'.1, fun he hne => hy'.2 he fun h => hne (by rw [← h, neg_neg])⟩

/-- A rounded magnitude under the sign of the exact value is that value correctly rounded. -/
theorem correctlyRounded_fpack {z : Int} {d : Nat} {s : Bool} (hd : 0 < d) (hneg : z < 0 → s = true)
    (hpos : 0 < z → s = false) : correctlyRounded z d (fpack s (roundMag z.natAbs d)) := by
  constructor
  · intro h
    have hnear := nearestEven_fpack hd h
    cases s with
    | false =>
      have hz : ¬ z < 0 := fun h => by simpa using hneg h
      rwa [show (z.natAbs : Int) = z by omega] at hnear
    | true =>
      have hz : ¬ 0 < z := fun h => by simpa using hpos h
      have hflip := nearestEven_fneg hnear
      rwa [fneg_fpack _ (roundMag_lt _ _), show -(z.natAbs : Int) = z by omega] at hflip
  · intro h
    have hz : z.natAbs ≠ 0 := by
      have : 0 < overflowUnits * d := Nat.mul_pos (by decide +kernel) hd
      omega
    rw [roundMag_overflow hd h]
    congr 1
    rcases lt_or_gt_of_ne (Int.natAbs_ne_zero.mp hz) with hlt | hgt
    · simp [hneg hlt, hlt]
    · simp [hpos hgt, hgt.le]

end Sys2Proof.Machine
end

section
/-! ## Binary64 arithmetic (00_scope.md rules R14 and R20) -/

namespace Sys2Proof.Machine

/-! ### Signs and zeros -/

theorem oneUnits_pos : 0 < oneUnits := by decide +kernel

theorem units_pos {m : Nat} : 0 < units m ↔ 0 < m := units_lt_iff (m := 0)

theorem isZero_iff {x : F64} : isZero x = true ↔ fmag x = 0 := by simp [isZero]

theorem fmag_pos_of_not_isZero {x : F64} (h : isZero x = false) : 0 < fmag x := by
  simp only [isZero, beq_eq_false_iff_ne] at h
  omega

/-- A signed value as its sign and its units. -/
theorem fval_eq_sign_mul (x : F64) : fval x = (if fsign x then -1 else 1) * (units (fmag x) : Int) := by
  rw [fval]
  split <;> simp

theorem fval_of_pos {x : F64} (h : fsign x = false) : fval x = units (fmag x) := by simp [fval, h]

theorem fsign_of_pos {x : F64} (h : 0 < fval x) : fsign x = false := by
  by_contra hs
  have : fval x = -(units (fmag x) : Int) := by simp [fval, hs]
  omega

/-! ### Sums -/

theorem fadd_finite {a b : F64} (ha : isFinite a = true) (hb : isFinite b = true) :
    fadd a b = faddFinite a b := by
  simp [fadd, faddWith, isNaN_of_finite ha, isNaN_of_finite hb, isInf_of_finite ha, isInf_of_finite hb]

/-- An exact zero is `-0.0` only when both operands are negative. -/
theorem fadd_of_sum_zero {a b : F64} (ha : isFinite a = true) (hb : isFinite b = true)
    (h : fval a + fval b = 0) : fadd a b = fpack (fsign a && fsign b) 0 := by
  rw [fadd_finite ha hb, faddFinite, if_pos h]

theorem fadd_of_sum_ne_zero {a b : F64} (ha : isFinite a = true) (hb : isFinite b = true)
    (h : fval a + fval b ≠ 0) :
    fadd a b = fpack (decide (fval a + fval b < 0)) (roundMag (fval a + fval b).natAbs 1) := by
  rw [fadd_finite ha hb, faddFinite, if_neg h]

theorem fadd_correctlyRounded {a b : F64} (ha : isFinite a = true) (hb : isFinite b = true) :
    correctlyRounded (fval a + fval b) 1 (fadd a b) := by
  by_cases h : fval a + fval b = 0
  · have := correctlyRounded_fpack (z := 0) (s := fsign a && fsign b) one_pos (by simp) (by simp)
    rwa [fadd_of_sum_zero ha hb h, h, ← roundMag_zero 1]
  · rw [fadd_of_sum_ne_zero ha hb h]
    exact correctlyRounded_fpack one_pos (by simp) (fun h => by simpa using h.le)

/-- Settles O51: a sum is the rounded exact sum, and a difference is the sum with the operand's sign flipped. -/
theorem sumsAreCorrectlyRounded : Obligations.SumsAreCorrectlyRounded := by
  intro a b ha hb
  have hnb : isFinite (fneg b) = true := by rwa [isFinite_fneg]
  rw [fsub_eq_fadd_fneg ha hb]
  refine ⟨fadd_correctlyRounded ha hb, ?_, fadd_of_sum_zero ha hb, fun h => ?_⟩
  · simpa [sub_eq_add_neg] using fadd_correctlyRounded ha hnb
  · simpa using fadd_of_sum_zero ha hnb (by rw [fval_fneg]; omega)

/-! ### Products and quotients -/

/-- The sign of a product or quotient agrees with the value it rounds. -/
theorem sign_of_mul_sign {s t : Bool} {n : Nat} {z : Int}
    (hz : z = (if s then -1 else 1) * (if t then -1 else 1) * (n : Int)) :
    (z < 0 → (s != t) = true) ∧ (0 < z → (s != t) = false) := by
  subst hz
  cases s <;> cases t <;> simp

theorem fmul_correctlyRounded {a b : F64} (ha : isFinite a = true) (hb : isFinite b = true) :
    correctlyRounded (fval a * fval b) oneUnits (fmul a b) := by
  have hs := sign_of_mul_sign (s := fsign a) (t := fsign b) (z := fval a * fval b)
    (n := units (fmag a) * units (fmag b)) (by rw [fval_eq_sign_mul a, fval_eq_sign_mul b]; push_cast; ring)
  rw [fmul_finite ha hb, ← natAbs_fval, ← natAbs_fval, ← Int.natAbs_mul]
  exact correctlyRounded_fpack oneUnits_pos hs.1 hs.2

theorem fdiv_correctlyRounded {a b : F64} (ha : isFinite a = true) (hb : isFinite b = true)
    (h0 : isZero b = false) :
    correctlyRounded (fval a * (fval b).sign * oneUnits) (fval b).natAbs (fdiv a b) := by
  have hpos : 0 < units (fmag b) := units_pos.mpr (fmag_pos_of_not_isZero h0)
  have hsign : (fval b).sign = if fsign b then -1 else 1 := by
    rw [fval]
    split
    · exact Int.sign_eq_neg_one_of_neg (by omega)
    · exact Int.sign_eq_one_of_pos (by omega)
  have hs := sign_of_mul_sign (s := fsign a) (t := fsign b) (z := fval a * (fval b).sign * oneUnits)
    (n := units (fmag a) * oneUnits) (by rw [fval_eq_sign_mul a, hsign]; push_cast; ring)
  have hn : (fval a * (fval b).sign * oneUnits).natAbs = units (fmag a) * oneUnits := by
    rw [Int.natAbs_mul, Int.natAbs_mul, natAbs_fval, Int.natAbs_sign_of_ne_zero, Nat.mul_one,
      Int.natAbs_natCast]
    rw [← Int.natAbs_ne_zero, natAbs_fval]
    omega
  rw [fdiv_finite ha hb h0, natAbs_fval, ← hn]
  exact correctlyRounded_fpack hpos hs.1 hs.2

/-- Settles O52: each is a rounded magnitude under the product of the signs. -/
theorem productsAndQuotientsAreCorrectlyRounded : Obligations.ProductsAndQuotientsAreCorrectlyRounded := by
  intro a b ha hb
  refine ⟨fmul_correctlyRounded ha hb, ?_, fun h0 => ⟨fdiv_correctlyRounded ha hb h0, ?_⟩⟩
  · rw [fmul_finite ha hb, fsign_fpack _ (roundMag_lt _ _)]
  · rw [fdiv_finite ha hb h0, fsign_fpack _ (roundMag_lt _ _)]

/-! ### Powers of two and integers -/

/-- The pattern of a power of two. -/
theorem units_pow_two {e : Nat} (h : 52 ≤ e) : units ((e - 51) * 2 ^ 52) = 2 ^ e := by
  rw [show (e - 51) * 2 ^ 52 = (e - 52) * 2 ^ 52 + 2 ^ 52 by omega,
    units_scaled (by norm_num) (.inl le_rfl), ← pow_add, Nat.add_sub_cancel' h]

/-- What is at most a power of two is so after rounding. -/
theorem roundMag_le_pow_two {n d e : Nat} (hd : 0 < d) (h52 : 52 ≤ e) (hmax : e < 2098) (h : n ≤ 2 ^ e * d) :
    roundMag n d < infMag ∧ units (roundMag n d) ≤ 2 ^ e := by
  have hpat : (e - 51) * 2 ^ 52 < infMag := by
    unfold infMag
    omega
  have hle : roundMag n d ≤ (e - 51) * 2 ^ 52 := roundMag_le_of_le hd hpat.le (by rwa [units_pow_two h52])
  exact ⟨by omega, units_pow_two h52 ▸ units_le_iff.mpr hle⟩

/-- What is at least a power of two has at least its pattern after rounding. -/
theorem pattern_le_roundMag {n d e : Nat} (hd : 0 < d) (h52 : 52 ≤ e) (hmax : e ≤ 2098) (h : 2 ^ e * d ≤ n) :
    (e - 51) * 2 ^ 52 ≤ roundMag n d := by
  refine le_roundMag_of_le hd ?_ (by rwa [units_pow_two h52])
  unfold infMag
  omega

/-- An integer of at most 53 bits, shifted far enough, is the units of a pattern. -/
theorem exists_units_eq {j k : Nat} (hj : j ≤ 2 ^ 53) (hk : 52 ≤ k) : ∃ m, units m = j * 2 ^ k := by
  rcases Nat.eq_zero_or_pos j with rfl | h0
  · exact ⟨0, by simp⟩
  rcases Nat.lt_or_ge j (2 ^ 53) with hlt | hge
  · have hlog : j.log2 < 53 := (Nat.log2_lt h0.ne').mpr hlt
    have hfull : 2 ^ 52 ≤ j * 2 ^ (52 - j.log2) := by
      calc 2 ^ 52 = 2 ^ j.log2 * 2 ^ (52 - j.log2) := by rw [← pow_add, Nat.add_sub_cancel' (by omega)]
        _ ≤ j * 2 ^ (52 - j.log2) := Nat.mul_le_mul_right _ (Nat.log2_self_le h0.ne')
    have hmax : j * 2 ^ (52 - j.log2) ≤ 2 ^ 53 := by
      calc j * 2 ^ (52 - j.log2) ≤ 2 ^ (j.log2 + 1) * 2 ^ (52 - j.log2) :=
            Nat.mul_le_mul_right _ Nat.lt_log2_self.le
        _ = 2 ^ 53 := by rw [← pow_add, show j.log2 + 1 + (52 - j.log2) = 53 by omega]
    refine ⟨(k - (52 - j.log2)) * 2 ^ 52 + j * 2 ^ (52 - j.log2), ?_⟩
    rw [units_scaled hmax (.inl hfull), Nat.mul_assoc, ← pow_add, Nat.add_sub_cancel' (by omega)]
  · exact ⟨k * 2 ^ 52 + j, units_scaled hj (.inl (by omega))⟩

/-- An integer of at most 53 bits converts without rounding. -/
theorem i2f_exact {n : Int} (h : n.natAbs ≤ 2 ^ 53) :
    isFinite (i2f n) = true ∧ units (fmag (i2f n)) = n.natAbs * oneUnits := by
  obtain ⟨m, hm⟩ := exists_units_eq h (k := 1074) (by norm_num)
  have hfin : m < infMag := by
    rw [← units_lt_iff, hm]
    calc n.natAbs * 2 ^ 1074 ≤ 2 ^ 53 * 2 ^ 1074 := Nat.mul_le_mul_right _ h
      _ < units infMag := by decide +kernel
  have hround : roundMag (n.natAbs * oneUnits) 1 = m := by
    have := roundMag_exact one_pos hfin.le
    rwa [hm, Nat.mul_one] at this
  have hmag : fmag (i2f n) = m := by rw [i2f, fmag_fpack _ (roundMag_lt _ _), hround]
  exact ⟨isFinite_fpack _ (hround.trans_lt hfin), by rw [hmag, hm]; rfl⟩

@[simp] theorem fsign_i2f (n : Int) : fsign (i2f n) = decide (n < 0) := fsign_fpack _ (roundMag_lt _ _)

/-- Settles O54: the pattern is exact, and the sign is the integer's. -/
theorem smallIntegersConvertExactly : Obligations.SmallIntegersConvertExactly := by
  refine ⟨fun n h => ?_, by decide +kernel⟩
  obtain ⟨hfin, hu⟩ := i2f_exact h
  refine ⟨hfin, ?_⟩
  rw [fval_eq_sign_mul, hu, fsign_i2f, Nat.cast_mul, ← mul_assoc]
  refine congrArg (· * (oneUnits : Int)) ?_
  rcases lt_or_ge n 0 with hn | hn
  · simp [hn, abs_of_neg hn]
  · simp [not_lt.mpr hn, abs_of_nonneg hn]

/-! ### Square roots -/

/-- Twice the integer root, made odd where the root is inexact. -/
def stickyRoot (n : Nat) : Nat := 2 * isqrt n + if isqrt n * isqrt n = n then 0 else 1

theorem sqrtMag_eq (u : Nat) : sqrtMag u = roundMag (stickyRoot (u * oneUnits)) 2 := rfl

/-- The sticky root decides on which side of every integer the square root is, from above. -/
theorem stickyRoot_le_iff {n h : Nat} : stickyRoot n ≤ h * 2 ↔ n ≤ h * h := by
  obtain ⟨hle, hlt⟩ := isqrt_spec n
  unfold stickyRoot
  split
  · rename_i heq
    rw [Nat.add_zero, Nat.mul_comm, Nat.mul_le_mul_right_iff (by norm_num), ← heq,
      Nat.mul_self_le_mul_self_iff, heq]
  · rename_i hne
    constructor
    · intro h'
      have := Nat.mul_self_le_mul_self (show isqrt n + 1 ≤ h by omega)
      omega
    · intro h'
      have := Nat.mul_self_lt_mul_self_iff.mp (show isqrt n * isqrt n < h * h by omega)
      omega

/-- And from below. -/
theorem le_stickyRoot_iff {n h : Nat} : h * 2 ≤ stickyRoot n ↔ h * h ≤ n := by
  obtain ⟨hle, hlt⟩ := isqrt_spec n
  have hhalf : h * 2 ≤ stickyRoot n ↔ h ≤ isqrt n := by
    unfold stickyRoot
    split <;> omega
  rw [hhalf]
  constructor
  · exact fun h' => (Nat.mul_self_le_mul_self h').trans hle
  · intro h'
    exact Nat.lt_succ_iff.mp (Nat.mul_self_lt_mul_self_iff.mp (h'.trans_lt hlt))

/-- Past the first binades every value is an even number of units. -/
theorem units_even {m : Nat} (h : 2 ^ 53 ≤ m) : units m % 2 = 0 := by
  obtain ⟨j, hj⟩ : ∃ j, m / 2 ^ 52 - 1 = j + 1 := ⟨m / 2 ^ 52 - 2, by omega⟩
  rw [units, if_neg (by omega), hj, pow_succ' 2 j, Nat.mul_left_comm]
  exact Nat.mul_mod_right 2 _

theorem oneUnits_eq_mul_self : oneUnits = 2 ^ 537 * 2 ^ 537 := by decide +kernel

theorem units_infMag_mul_oneUnits : units infMag * oneUnits = 2 ^ 1586 * 2 ^ 1586 := by decide +kernel

theorem sticky_bound_lt_overflow : 2 ^ 1586 * 2 < overflowUnits * 2 := by decide +kernel

/-- The rounded sticky root is finite, and no pattern is on the near side of the midpoint. The sums of neighbours
are even there, so the sticky bit moves none of them to the other side. -/
theorem roundMag_stickyRoot_nearest {n r : Nat} (hr : r = roundMag (stickyRoot n) 2)
    (hlow : 2 ^ 537 * 2 ^ 537 ≤ n) (hhigh : n ≤ 2 ^ 1586 * 2 ^ 1586) :
    r < infMag ∧ ∀ m, (r < m → 4 * n ≤ (units r + units m) ^ 2) ∧
      (m < r → (units r + units m) ^ 2 ≤ 4 * n) := by
  rw [← le_stickyRoot_iff] at hlow
  rw [← stickyRoot_le_iff] at hhigh
  have hbig : 2 ^ 53 < r := by
    have := pattern_le_roundMag Nat.two_pos (by norm_num) (by norm_num) hlow
    rw [← hr] at this
    exact lt_of_lt_of_le (by norm_num) this
  obtain ⟨hfin, hn⟩ := roundMag_nearest Nat.two_pos (hhigh.trans_lt sticky_bound_lt_overflow)
  rw [← hr] at hfin hn
  have heven : ∀ m, 2 ^ 53 ≤ m → ∃ h, units r + units m = 2 * h := fun m hm =>
    ⟨(units r + units m) / 2, by
      have := units_even hbig.le
      have := units_even hm
      omega⟩
  clear hlow hhigh
  refine ⟨hfin, fun m => ⟨fun hm => ?_, fun hm => ?_⟩⟩
  · obtain ⟨h, hh⟩ := heven m (by omega)
    have habove := (hn.above m hm).1
    rw [hh] at habove ⊢
    have := stickyRoot_le_iff.mp (show stickyRoot n ≤ h * 2 by omega)
    nlinarith
  · obtain ⟨h, hh⟩ := heven (r - 1) (by omega)
    have hbelow := (hn.below (r - 1) (by omega)).1
    rw [Nat.add_comm, hh] at hbelow
    have := le_stickyRoot_iff.mp (show h * 2 ≤ stickyRoot n by omega)
    have hle : units m ≤ units (r - 1) := units_le_iff.mpr (by omega)
    calc (units r + units m) ^ 2 ≤ (2 * h) ^ 2 := Nat.pow_le_pow_left (by omega) 2
      _ = 4 * (h * h) := by ring
      _ ≤ 4 * n := Nat.mul_le_mul_left 4 this

/-- The root of a finite positive value is finite, and no pattern is on the near side of the midpoint. -/
theorem sqrtMag_nearest {u : Nat} (h0 : 0 < u) (hu : u ≤ units infMag) :
    sqrtMag u < infMag ∧ ∀ m,
      (sqrtMag u < m → 4 * (u * oneUnits) ≤ (units (sqrtMag u) + units m) ^ 2) ∧
      (m < sqrtMag u → (units (sqrtMag u) + units m) ^ 2 ≤ 4 * (u * oneUnits)) :=
  roundMag_stickyRoot_nearest (sqrtMag_eq u)
    (oneUnits_eq_mul_self.symm.trans_le (Nat.le_mul_of_pos_left _ h0))
    ((Nat.mul_le_mul_right _ hu).trans_eq units_infMag_mul_oneUnits)

theorem fsqrt_of_isZero {x : F64} (h : isZero x = true) : fsqrt x = x := by
  simp [fsqrt, isNaN_of_finite (isFinite_of_isZero h), h]

theorem fsqrt_of_pos {x : F64} (hf : isFinite x = true) (hs : fsign x = false) (h0 : isZero x = false) :
    fsqrt x = fpack false (sqrtMag (units (fmag x))) := by
  simp [fsqrt, isNaN_of_finite hf, isInf_of_finite hf, hs, h0]

/-- Settles O53: the sticky bit keeps the rounded root on the right side of every midpoint. -/
theorem squareRootsAreCorrectlyRounded : Obligations.SquareRootsAreCorrectlyRounded := by
  intro x hf hs
  cases h0 : isZero x with
  | true =>
    rw [fsqrt_of_isZero h0, fval_of_isZero h0]
    refine ⟨hf, hs, fun y _ hy => ⟨fun _ => ?_, fun hlt => ?_⟩⟩
    · rw [zero_mul, mul_zero]
      exact sq_nonneg _
    · rw [fval_of_pos hy] at hlt
      omega
  | false =>
    have hlt : units (fmag x) < units infMag := units_lt_iff.mpr (isFinite_iff.mp hf)
    obtain ⟨hfin, hn⟩ := sqrtMag_nearest (units_pos.mpr (fmag_pos_of_not_isZero h0)) hlt.le
    have h63 : sqrtMag (units (fmag x)) < 2 ^ 63 := roundMag_lt _ _
    rw [fsqrt_of_pos hf hs h0, fval_of_pos (fsign_fpack _ h63), fmag_fpack _ h63, fval_of_pos hs]
    refine ⟨isFinite_fpack _ hfin, fsign_fpack _ h63, fun y _ hy => ?_⟩
    obtain ⟨habove, hbelow⟩ := hn (fmag y)
    rw [fval_of_pos hy, Nat.cast_lt, Nat.cast_lt, units_lt_iff, units_lt_iff]
    simp only [← Nat.cast_le (α := Int), Nat.cast_mul, Nat.cast_pow, Nat.cast_add, Nat.cast_ofNat]
      at habove hbelow
    exact ⟨habove, hbelow⟩

end Sys2Proof.Machine
end

section
/-! ## Infinities, NaNs and zero divisors (00_scope.md rule R14) -/

namespace Sys2Proof.Machine

/-! ### The classes of a pattern exclude each other -/

theorem isInf_iff {x : F64} : isInf x = true ↔ fmag x = infMag := by simp [isInf]

theorem isNaN_of_isInf {x : F64} (h : isInf x = true) : isNaN x = false := by
  simp [isNaN, isInf_iff.mp h]

theorem isZero_of_isInf {x : F64} (h : isInf x = true) : isZero x = false := by
  simp [isZero, isInf_iff.mp h, infMag]

@[simp] theorem isInf_fneg (x : F64) : isInf (fneg x) = isInf x := by simp [isInf]

/-! ### NaN operands -/

theorem isNaN_fsub {a b : F64} (h : isNaN a = true ∨ isNaN b = true) : isNaN (fsub a b) = true := by
  have : (isNaN a || isNaN b) = true := by simpa using h
  simp [fsub, this]

theorem isNaN_fdiv {a b : F64} (h : isNaN a = true ∨ isNaN b = true) : isNaN (fdiv a b) = true := by
  have : (isNaN a || isNaN b) = true := by simpa using h
  simp [fdiv, this]

/-! ### Infinite operands -/

section
variable {a b : F64} (ha : isInf a = true)
include ha

/-- An infinity and a finite operand: the sum keeps the infinity. -/
theorem fadd_inf_finite (hb : isFinite b = true) : fadd a b = a ∧ fadd b a = a := by
  simp [fadd, faddWith, ha, isNaN_of_isInf ha, isNaN_of_finite hb, isInf_of_finite hb]

theorem fsub_inf_finite (hb : isFinite b = true) : fsub a b = a ∧ fsub b a = fneg a := by
  simp [fsub, faddWith, ha, isNaN_of_isInf ha, isNaN_of_finite hb, isInf_of_finite hb]

theorem fdiv_inf_finite (hb : isFinite b = true) :
    fdiv a b = fpack (fsign a != fsign b) infMag ∧ fdiv b a = fpack (fsign b != fsign a) 0 := by
  simp [fdiv, ha, isNaN_of_isInf ha, isZero_of_isInf ha, isNaN_of_finite hb, isInf_of_finite hb]

/-- Two infinities of one sign add up, and their difference is invalid. -/
theorem inf_inf_same_sign (hb : isInf b = true) (hs : fsign a = fsign b) :
    fadd a b = a ∧ isNaN (fsub a b) = true := by
  simp [fadd, fsub, faddWith, ha, hb, isNaN_of_isInf ha, isNaN_of_isInf hb, hs]

/-- Two infinities of different signs have an invalid sum, and their difference is the first. -/
theorem inf_inf_different_sign (hb : isInf b = true) (hs : fsign a ≠ fsign b) :
    isNaN (fadd a b) = true ∧ fsub a b = a := by
  simp [fadd, fsub, faddWith, ha, hb, isNaN_of_isInf ha, isNaN_of_isInf hb, hs]

theorem isNaN_fdiv_inf_inf (hb : isInf b = true) : isNaN (fdiv a b) = true := by
  simp [fdiv, ha, hb]

/-- An infinity times a zero is invalid. -/
theorem isNaN_fmul_inf_zero (hb : isZero b = true) : isNaN (fmul a b) = true ∧ isNaN (fmul b a) = true := by
  simp [fmul, ha, hb]

/-- An infinity times anything else that is no NaN is an infinity. -/
theorem fmul_inf (hb : isNaN b = false) (h0 : isZero b = false) :
    fmul a b = fpack (fsign a != fsign b) infMag ∧ fmul b a = fpack (fsign a != fsign b) infMag := by
  simp [fmul, ha, hb, h0, isNaN_of_isInf ha, isZero_of_isInf ha, bne_comm (a := fsign b)]

end

/-! ### Zero divisors and square roots -/

theorem isNaN_fdiv_zero_zero {a b : F64} (ha : isZero a = true) (hb : isZero b = true) :
    isNaN (fdiv a b) = true := by
  simp [fdiv, ha, hb]

theorem fdiv_zero {a b : F64} (ha : isFinite a = true) (h0 : isZero a = false) (hb : isZero b = true) :
    fdiv a b = fpack (fsign a != fsign b) infMag := by
  have hfb := isFinite_of_isZero hb
  simp [fdiv, h0, hb, isNaN_of_finite ha, isInf_of_finite ha, isNaN_of_finite hfb]

theorem isNaN_fsqrt {a : F64} (h : isNaN a = true) : isNaN (fsqrt a) = true := by
  simp [fsqrt, h]

theorem isNaN_fsqrt_of_neg {a : F64} (hn : isNaN a = false) (h0 : isZero a = false) (hs : fsign a = true) :
    isNaN (fsqrt a) = true := by
  simp [fsqrt, hn, h0, hs]

theorem fsqrt_inf {a : F64} (hi : isInf a = true) (hs : fsign a = false) : fsqrt a = a := by
  simp [fsqrt, hi, isNaN_of_isInf hi, isZero_of_isInf hi, hs]

/-- Settles O55, clause by clause. -/
theorem specialOperandsFollowIEEE754 : Obligations.SpecialOperandsFollowIEEE754 := by
  intro a b
  refine ⟨fun h => ⟨isNaN_fadd h, isNaN_fsub h, isNaN_fmul h, isNaN_fdiv h⟩, fun ha hb => ?_,
    fun ha hb => ⟨isNaN_fdiv_inf_inf ha hb, inf_inf_same_sign ha hb, inf_inf_different_sign ha hb⟩,
    fun ha hb => ⟨isNaN_fmul_inf_zero ha, fmul_inf ha hb⟩,
    fun ha hb => ⟨fun h0 => isNaN_fdiv_zero_zero h0 hb, fun h0 => fdiv_zero ha h0 hb⟩,
    isNaN_fsqrt, fsqrt_of_isZero, isNaN_fsqrt_of_neg, fsqrt_inf⟩
  obtain ⟨hab, hba⟩ := fadd_inf_finite ha hb
  obtain ⟨sab, sba⟩ := fsub_inf_finite ha hb
  obtain ⟨dab, dba⟩ := fdiv_inf_finite ha hb
  exact ⟨hab, hba, sab, sba, dab, dba⟩

end Sys2Proof.Machine
end

section
/-! ## Bounds on the datapath (00_scope.md rules R8 and R16) -/

namespace Sys2Proof.Machine

open Sys2Proof.Config

/-! ### Powers of two as bounds -/

/-- Finite, with a magnitude of at most `2 ^ e` units, that is `2 ^ (e - 1074)`. -/
def AtMost (e : Nat) (x : F64) : Prop := isFinite x = true ∧ units (fmag x) ≤ 2 ^ e

theorem AtMost.mono {i e : Nat} {x : F64} (h : AtMost i x) (hie : i ≤ e) : AtMost e x :=
  ⟨h.1, h.2.trans (Nat.pow_le_pow_right Nat.two_pos hie)⟩

/-- A rounded magnitude keeps a bound of the exact one. -/
theorem atMost_fpack {n d e : Nat} (s : Bool) (hd : 0 < d) (h52 : 52 ≤ e) (hmax : e < 2098)
    (h : n ≤ 2 ^ e * d) : AtMost e (fpack s (roundMag n d)) := by
  obtain ⟨hfin, hle⟩ := roundMag_le_pow_two hd h52 hmax h
  exact ⟨isFinite_fpack s hfin, by rwa [fmag_fpack _ (roundMag_lt _ _)]⟩

theorem oneUnits_eq : oneUnits = 2 ^ 1074 := rfl

theorem AtMost.fmul {i j e : Nat} {a b : F64} (ha : AtMost i a) (hb : AtMost j b) (h52 : 52 ≤ e)
    (hmax : e < 2098) (he : i + j ≤ e + 1074) : AtMost e (fmul a b) := by
  rw [fmul_finite ha.1 hb.1]
  refine atMost_fpack _ oneUnits_pos h52 hmax ?_
  calc units (fmag a) * units (fmag b) ≤ 2 ^ i * 2 ^ j := Nat.mul_le_mul ha.2 hb.2
    _ ≤ 2 ^ (e + 1074) := by
      rw [← pow_add]
      exact Nat.pow_le_pow_right Nat.two_pos he
    _ = 2 ^ e * oneUnits := by rw [oneUnits_eq, pow_add]

theorem isZero_of_le_units {j : Nat} {x : F64} (h : 2 ^ j ≤ units (fmag x)) : isZero x = false := by
  have := units_pos.mp ((Nat.two_pow_pos j).trans_le h)
  simp only [isZero, beq_eq_false_iff_ne]
  omega

theorem AtMost.fdiv {i j e : Nat} {a b : F64} (ha : AtMost i a) (hb : isFinite b = true)
    (hlow : 2 ^ j ≤ units (fmag b)) (h52 : 52 ≤ e) (hmax : e < 2098) (he : i + 1074 ≤ e + j) :
    AtMost e (fdiv a b) := by
  rw [fdiv_finite ha.1 hb (isZero_of_le_units hlow)]
  refine atMost_fpack _ ((Nat.two_pow_pos j).trans_le hlow) h52 hmax ?_
  calc units (fmag a) * oneUnits ≤ 2 ^ i * 2 ^ 1074 := Nat.mul_le_mul ha.2 oneUnits_eq.le
    _ ≤ 2 ^ (e + j) := by
      rw [← pow_add]
      exact Nat.pow_le_pow_right Nat.two_pos he
    _ ≤ 2 ^ e * units (fmag b) := by
      rw [pow_add]
      exact Nat.mul_le_mul_left _ hlow

/-- A quotient is at least what the bounds of its operands say. -/
theorem pow_two_le_units_fdiv {i j e : Nat} {a b : F64} (ha : isFinite a = true) (hlow : 2 ^ i ≤ units (fmag a))
    (hb : AtMost j b) (h0 : isZero b = false) (h52 : 52 ≤ e) (hmax : e ≤ 2098) (he : e + j ≤ i + 1074) :
    2 ^ e ≤ units (fmag (fdiv a b)) := by
  have hpat : (e - 51) * 2 ^ 52 ≤ roundMag (units (fmag a) * oneUnits) (units (fmag b)) := by
    refine pattern_le_roundMag (units_pos.mpr (fmag_pos_of_not_isZero h0)) h52 hmax ?_
    calc 2 ^ e * units (fmag b) ≤ 2 ^ e * 2 ^ j := Nat.mul_le_mul_left _ hb.2
      _ ≤ 2 ^ (i + 1074) := by
        rw [← pow_add]
        exact Nat.pow_le_pow_right Nat.two_pos he
      _ ≤ units (fmag a) * oneUnits := by
        rw [pow_add, oneUnits_eq]
        exact Nat.mul_le_mul_right _ hlow
  rw [fdiv_finite ha hb.1 h0, fmag_fpack _ (roundMag_lt _ _), ← units_pow_two h52, units_le_iff]
  exact hpat

/-- An integer of at most `t` bits, converted. -/
theorem atMost_i2f {n : Int} {t : Nat} (ht : t ≤ 53) (h : n.natAbs ≤ 2 ^ t) : AtMost (t + 1074) (i2f n) := by
  obtain ⟨hf, hu⟩ := i2f_exact (h.trans (Nat.pow_le_pow_right Nat.two_pos ht))
  refine ⟨hf, ?_⟩
  rw [hu, pow_add, oneUnits_eq]
  exact Nat.mul_le_mul_right _ h

/-- A nonzero integer converts to at least 1. -/
theorem oneUnits_le_i2f {n : Int} (h0 : n ≠ 0) (h : n.natAbs ≤ 2 ^ 53) :
    2 ^ 1074 ≤ units (fmag (i2f n)) := by
  rw [(i2f_exact h).2, oneUnits_eq]
  exact Nat.le_mul_of_pos_left _ (Int.natAbs_pos.mpr h0)

/-! ### The parameters (rule R8) -/

/-- A value between two powers of two. -/
theorem atMost_of_between {i j : Nat} {lo hi x : F64} (hhi : isFinite hi = true)
    (hi' : fval lo = ((2 ^ i : Nat) : Int)) (hj : fval hi = ((2 ^ j : Nat) : Int))
    (h : (fle lo x && fle x hi) = true) : 2 ^ i ≤ units (fmag x) ∧ AtMost j x := by
  rw [Bool.and_eq_true] at h
  obtain ⟨hlo, hup⟩ := h
  obtain ⟨hf, hs⟩ := finite_pos_of_between (by rw [hi', Nat.cast_pos]; exact Nat.two_pow_pos i) hhi hlo hup
  simp only [fle, Bool.and_eq_true, decide_eq_true_eq] at hlo hup
  have hlo := hlo.2
  have hup := hup.2
  rw [fval_of_pos hs] at hlo hup
  rw [hi', Nat.cast_le] at hlo
  rw [hj, Nat.cast_le] at hup
  exact ⟨hlo, hf, hup⟩

theorem refRate_bounds {x : F64} (h : refRateLegal x = true) : 2 ^ 1010 ≤ units (fmag x) ∧ AtMost 1138 x :=
  atMost_of_between (by decide) (by decide +kernel) (by decide +kernel) h

theorem atMost_gravity {x : F64} (h : gravityLegal x = true) : AtMost 1174 x :=
  (atMost_of_between (i := 974) (by decide) (by decide +kernel) (by decide +kernel) h).2

theorem atMost_rad2deg {x : F64} (h : rad2degLegal x = true) : AtMost 1174 x := atMost_gravity h

theorem fsign_fabs (x : F64) : fsign (fabs x) = false := fsign_fpack _ (fmag_lt x)

theorem fmag_fabs (x : F64) : fmag (fabs x) = fmag x := fmag_fpack _ (fmag_lt x)

/-- A bound on the magnitude, as the model writes it. -/
theorem atMost_iff {j : Nat} {c x : F64} (hc : isFinite c = true) (hj : fval c = ((2 ^ j : Nat) : Int)) :
    (isFinite x && fle (fabs x) c) = true ↔ AtMost j x := by
  rw [Bool.and_eq_true, AtMost, and_congr_right_iff]
  intro hx
  have habs : isFinite (fabs x) = true := by rwa [isFinite_iff, fmag_fabs, ← isFinite_iff]
  rw [fle_iff habs hc, decide_eq_true_eq, hj, fval_of_pos (fsign_fabs x), Nat.cast_le, fmag_fabs]

theorem atMost_deltaAngleSf {x : F64} (h : deltaAngleSfLegal x = true) : AtMost 1138 x :=
  (atMost_iff (by decide) (by decide +kernel)).mp h

/-- Settles O43: each parameter is kept inside its constraint, and a function that meets rule R21 is its own
shape. -/
theorem machineParametersMeetTheirConstraints : Obligations.MachineParametersMeetTheirConstraints := by
  refine ⟨⟨legalOr_legal _ ?_, legalOr_legal _ ?_, legalOr_legal _ ?_, legalOr_legal _ ?_, legalOr_legal _ ?_,
    legalOr_legal _ ?_, decide_eq_true (Nat.le_add_left _ _), fun _ _ => shapeAtan2_allowed _⟩,
    fun _ => shapeAtan2_of_allowed⟩
  all_goals decide +kernel

/-! ### The integrated angle (rules R16 and R180) -/

theorem atMost_of_isZero {x : F64} (e : Nat) (h : isZero x = true) : AtMost e x :=
  ⟨isFinite_of_isZero h, by rw [isZero_iff.mp h, units_zero]; exact Nat.zero_le _⟩

/-- A finite value over an infinity is a zero. -/
theorem isZero_fdiv_inf {a b : F64} (ha : isFinite a = true) (hb : isInf b = true) : isZero (fdiv a b) = true := by
  rw [(fdiv_inf_finite hb ha).2, isZero_iff, fmag_fpack _ (by norm_num)]

/-- The compensated delta is at most `2^191`: at most `2^31` times `2^64`, over a ratio of at least `2^-96`. With
equal timestamps the ratio is infinite and the delta a zero (rule R181). -/
theorem atMost_scaleDelta {p : Params} (hsf : deltaAngleSfLegal p.deltaAngleSf = true)
    (hrr : refRateLegal p.refRate = true) {raw : Int} (hraw : raw.natAbs ≤ 2 ^ 31) (ticks : BitVec 32) :
    AtMost 1265 (scaleDelta p raw ticks) := by
  have hnum : AtMost 1169 (fmul (i2f raw) p.deltaAngleSf) :=
    (atMost_i2f (by norm_num) hraw).fmul (atMost_deltaAngleSf hsf) (by norm_num) (by norm_num) (by norm_num)
  obtain ⟨hlow, hrate⟩ := refRate_bounds hrr
  have hr0 := isZero_of_le_units hlow
  have hticks : ticks.toNat ≤ 2 ^ 32 := ticks.isLt.le
  have hden : AtMost 1106 (i2f ticks.toNat) := atMost_i2f (t := 32) (by norm_num) hticks
  unfold scaleDelta
  rcases Nat.eq_zero_or_pos ticks.toNat with h0 | hpos
  · have hz : isZero (i2f ticks.toNat) = true := by
      rw [h0]
      decide +kernel
    refine atMost_of_isZero _ (isZero_fdiv_inf hnum.1 ?_)
    rw [fdiv_zero hrate.1 hr0 hz, isInf_iff, fmag_fpack _ (by norm_num [infMag])]
  · have hone := oneUnits_le_i2f (n := ticks.toNat) (by omega) (by omega)
    have hratio : AtMost 1138 (fdiv p.refRate (i2f ticks.toNat)) :=
      hrate.fdiv hden.1 hone (by norm_num) (by norm_num) (by norm_num)
    exact hnum.fdiv hratio.1 (pow_two_le_units_fdiv (e := 978) hrate.1 hlow hden (isZero_of_le_units hone)
      (by norm_num) (by norm_num) (by norm_num)) (by norm_num) (by norm_num) (by norm_num)

/-- Settles O50: the delta is at most `2^191`. -/
theorem eachFrameAddsLessThan2To192 : Obligations.EachFrameAddsLessThan2To192 := by
  intro p raw ticks hp hlo hhi
  obtain ⟨_, hsf, hrr, _⟩ := hp
  obtain ⟨hf, hu⟩ := atMost_scaleDelta hsf hrr (raw := raw) (by omega) ticks
  refine ⟨hf, ?_⟩
  rw [natAbs_fval, oneUnits_eq, ← pow_add]
  exact hu.trans_lt (pow_lt_pow_right₀ (by norm_num) (by norm_num))

end Sys2Proof.Machine
end

section
/-! ## Ranges of the filter's angles (41_sensor_scaler.md, 43_complementary_filter.md) -/

namespace Sys2Proof.Machine

open Sys2Proof.Config

/-! ### Bounded sums -/

theorem fmag_fadd {a b : F64} (ha : isFinite a = true) (hb : isFinite b = true) :
    fmag (fadd a b) = roundMag (fval a + fval b).natAbs 1 := by
  by_cases h : fval a + fval b = 0
  · rw [fadd_of_sum_zero ha hb h, h, fmag_fpack _ (by norm_num), Int.natAbs_zero, roundMag_zero]
  · rw [fadd_of_sum_ne_zero ha hb h, fmag_fpack _ (roundMag_lt _ _)]

/-- A sum keeps a bound of the exact sum. -/
theorem atMost_fadd {a b : F64} {e : Nat} (ha : isFinite a = true) (hb : isFinite b = true) (h52 : 52 ≤ e)
    (hmax : e < 2098) (h : (fval a + fval b).natAbs ≤ 2 ^ e) : AtMost e (fadd a b) := by
  rw [AtMost, isFinite_iff, fmag_fadd ha hb]
  exact roundMag_le_pow_two one_pos h52 hmax (by rwa [Nat.mul_one])

theorem AtMost.fadd {i : Nat} {a b : F64} (ha : AtMost i a) (hb : AtMost i b) (h52 : 51 ≤ i)
    (hmax : i < 2097) : AtMost (i + 1) (fadd a b) := by
  refine atMost_fadd ha.1 hb.1 (by omega) (by omega) ?_
  calc (fval a + fval b).natAbs ≤ (fval a).natAbs + (fval b).natAbs := Int.natAbs_add_le _ _
    _ ≤ 2 ^ i + 2 ^ i := by
      rw [natAbs_fval, natAbs_fval]
      exact Nat.add_le_add ha.2 hb.2
    _ = 2 ^ (i + 1) := by rw [pow_succ, Nat.mul_two]

/-- A bound stated of the value. -/
theorem atMost_of_fval {e : Nat} {x : F64} (hf : isFinite x = true) (h : (fval x).natAbs ≤ 2 ^ e) : AtMost e x :=
  ⟨hf, natAbs_fval x ▸ h⟩

theorem AtMost.fneg {e : Nat} {x : F64} (h : AtMost e x) : AtMost e (fneg x) := by
  rwa [AtMost, isFinite_fneg, fmag_fneg]

/-! ### `PI` -/

theorem fval_pi_eq : fval pi = 2 * fval halfPi := by decide +kernel
theorem fval_twoPi_eq : fval twoPi = 4 * fval halfPi := by decide +kernel
theorem fval_twoPi_le_eight : fval twoPi ≤ ((2 ^ 1077 : Nat) : Int) := by decide +kernel
theorem fval_twoPi_le_two53 : fval twoPi ≤ ((2 ^ 1127 : Nat) : Int) := by decide +kernel
theorem isFinite_twoPi : isFinite twoPi = true := by decide

theorem inTurn_iff {x : F64} :
    inTurn x = true ↔ isFinite x = true ∧ -fval halfPi ≤ fval x ∧ fval x ≤ fval twoPi := by
  by_cases hx : isFinite x = true
  · rw [inTurn, fle_iff (by simpa using isFinite_halfPi) hx, fle_iff hx isFinite_twoPi, fval_fneg]
    simp [hx]
  · simp [inTurn, hx]

theorem normalised_iff {x : F64} :
    normalised x = true ↔ isFinite x = true ∧ 0 ≤ fval x ∧ fval x < fval twoPi := by
  by_cases hx : isFinite x = true
  · rw [normalised, fle_iff isFinite_zero hx, flt_iff hx isFinite_twoPi, fval_zero]
    simp [hx]
  · simp [normalised, hx]

theorem inTurn_of_normalised {x : F64} (h : normalised x = true) : inTurn x = true := by
  obtain ⟨hf, h0, h1⟩ := normalised_iff.mp h
  have := fval_halfPi_pos
  exact inTurn_iff.mpr ⟨hf, by omega, by omega⟩

/-- An angle in range is at most 8. -/
theorem atMost_of_inTurn {x : F64} (h : inTurn x = true) : AtMost 1077 x := by
  obtain ⟨hf, h0, h1⟩ := inTurn_iff.mp h
  have hp := fval_halfPi_pos
  have h2 := fval_twoPi_le_eight
  have h4 := fval_twoPi_eq
  refine atMost_of_fval hf ?_
  generalize 2 ^ 1077 = c at *
  omega

/-! ### Raw samples and their scaling -/

theorem sint16_natAbs_le (b1 b0 : FifoWord) : (sint16 b1 b0).natAbs ≤ 2 ^ 15 := by
  have h1 := BitVec.two_mul_toInt_lt (x := slotByte b1 ++ slotByte b0)
  have h2 := BitVec.le_two_mul_toInt (x := slotByte b1 ++ slotByte b0)
  unfold sint16
  omega

theorem sint32_natAbs_le (b3 b2 b1 b0 : FifoWord) : (sint32 b3 b2 b1 b0).natAbs ≤ 2 ^ 31 := by
  have h1 := BitVec.two_mul_toInt_lt (x := slotByte b3 ++ slotByte b2 ++ slotByte b1 ++ slotByte b0)
  have h2 := BitVec.le_two_mul_toInt (x := slotByte b3 ++ slotByte b2 ++ slotByte b1 ++ slotByte b0)
  unfold sint32
  omega

/-- The acceleration samples of a frame have 16 bits (30_encoding.md rule R101). -/
theorem decodeFrame_accel_natAbs_le (w : FrameWords) :
    (decodeFrame w).ax.natAbs ≤ 2 ^ 15 ∧ (decodeFrame w).ay.natAbs ≤ 2 ^ 15 ∧
    (decodeFrame w).az.natAbs ≤ 2 ^ 15 :=
  ⟨sint16_natAbs_le _ _, sint16_natAbs_le _ _, sint16_natAbs_le _ _⟩

theorem decodeFrame_gyro_natAbs_le (w : FrameWords) :
    (decodeFrame w).gx.natAbs ≤ 2 ^ 15 ∧ (decodeFrame w).gy.natAbs ≤ 2 ^ 15 ∧
    (decodeFrame w).gz.natAbs ≤ 2 ^ 15 :=
  ⟨sint16_natAbs_le _ _, sint16_natAbs_le _ _, sint16_natAbs_le _ _⟩

theorem decodeFrame_deltaAngle_natAbs_le (w : FrameWords) : (decodeFrame w).deltaAngleRaw.natAbs ≤ 2 ^ 31 :=
  sint32_natAbs_le _ _ _ _

theorem one_le_gyroDiv : 2 ^ 1074 ≤ units (fmag gyroDiv) := by decide +kernel
theorem one_le_accelDiv : 2 ^ 1074 ≤ units (fmag accelDiv) := by decide +kernel

theorem atMost_scaleGyro {g : Int} (h : g.natAbs ≤ 2 ^ 15) : AtMost 1089 (scaleGyro g) :=
  (atMost_i2f (by norm_num) h).fdiv (by decide) one_le_gyroDiv (by norm_num) (by norm_num) (by norm_num)

theorem atMost_scaleAccel {a : Int} (h : a.natAbs ≤ 2 ^ 15) : AtMost 1089 (scaleAccel a) :=
  (atMost_i2f (by norm_num) h).fdiv (by decide) one_le_accelDiv (by norm_num) (by norm_num) (by norm_num)

/-- Each component of the filter's accelerometer input is at most `2^115`. -/
theorem atMost_accelSIVec {p : Params} (hp : legalParams p) (w : FrameWords) :
    AtMost 1189 (accelSIVec p (accelG (decodeFrame w))).x ∧
    AtMost 1189 (accelSIVec p (accelG (decodeFrame w))).y ∧
    AtMost 1189 (accelSIVec p (accelG (decodeFrame w))).z := by
  obtain ⟨_, _, _, hg, _⟩ := hp
  have hsi : ∀ {a : Int}, a.natAbs ≤ 2 ^ 15 → AtMost 1189 (accelSI p (scaleAccel a)) := fun h =>
    (atMost_scaleAccel h).fmul (atMost_gravity hg) (by norm_num) (by norm_num) (by norm_num)
  obtain ⟨hx, hy, hz⟩ := decodeFrame_accel_natAbs_le w
  dsimp only [accelSIVec, accelG]
  exact ⟨hsi hx, hsi hy, hsi hz⟩

/-! ### The accelerometer tilt -/

/-- A square is not negative. -/
theorem fsign_fmul_self {x : F64} (h : isFinite x = true) : fsign (fmul x x) = false := by
  rw [fmul_finite h h, fsign_fpack _ (roundMag_lt _ _), bne_self_eq_false]

theorem fval_nonneg_of_pos {x : F64} (h : fsign x = false) : 0 ≤ fval x := by
  rw [fval_of_pos h]
  exact Int.natCast_nonneg _

theorem fsqrt_nonneg {x : F64} (hf : isFinite x = true) (h : 0 ≤ fval x) :
    isFinite (fsqrt x) = true ∧ 0 ≤ fval (fsqrt x) := by
  cases h0 : isZero x with
  | true => rw [fsqrt_of_isZero h0]; exact ⟨hf, h⟩
  | false =>
    have hne : 0 < (fval x).natAbs := by
      rw [natAbs_fval]
      exact units_pos.mpr (fmag_pos_of_not_isZero h0)
    obtain ⟨hfin, hs, _⟩ := squareRootsAreCorrectlyRounded x hf (fsign_of_pos (by omega))
    exact ⟨hfin, fval_nonneg_of_pos hs⟩

theorem norm2_nonneg {u v : F64} (hu : AtMost 1189 u) (hv : AtMost 1189 v) :
    isFinite (norm2 u v) = true ∧ 0 ≤ fval (norm2 u v) := by
  have hsq : ∀ {x : F64}, AtMost 1189 x → AtMost 1304 (fmul x x) ∧ 0 ≤ fval (fmul x x) := fun hx =>
    ⟨hx.fmul hx (by norm_num) (by norm_num) (by norm_num), fval_nonneg_of_pos (fsign_fmul_self hx.1)⟩
  obtain ⟨hu2, hu0⟩ := hsq hu
  obtain ⟨hv2, hv0⟩ := hsq hv
  refine fsqrt_nonneg (hu2.fadd hv2 (by norm_num) (by norm_num)).1 ?_
  have := le_fval_fadd hu2.1 hv2.1 isFinite_zero (by rw [fval_zero]; omega)
  rwa [fval_zero] at this

/-- `ATAN2` in the half-plane that the norm lies in (rule R21). -/
theorem atan2_halfPlane {p : Params} (hp : legalParams p) {y x : F64} (hy : isFinite y = true)
    (hx : isFinite x = true) (h0 : 0 ≤ fval x) :
    isFinite (p.atan2 y x) = true ∧ -fval halfPi ≤ fval (p.atan2 y x) ∧
      fval (p.atan2 y x) ≤ fval halfPi := by
  obtain ⟨_, _, _, _, _, _, _, hatan⟩ := hp
  obtain ⟨hf, _, _, _, _, hhalf⟩ := (atan2Allows_iff hy hx).mp (hatan y x hy hx)
  exact ⟨hf, (hhalf h0).2⟩

/-- The range of an accel angle from that of the tilt (rules R191 and R192). -/
theorem formatAccelRange_inTurn {angle : F64} (az : F64) (hf : isFinite angle = true)
    (hlo : -fval halfPi ≤ fval angle) (hhi : fval angle ≤ fval halfPi) :
    inTurn (formatAccelRange angle az) = true := by
  have hp := fval_halfPi_pos
  have h2 := fval_pi_eq
  have h4 := fval_twoPi_eq
  have h0 := fval_zero
  have hnf : isFinite (fneg angle) = true := by rwa [isFinite_fneg]
  have hn := fval_fneg angle
  have hsum : ∀ {a b : F64}, AtMost 1077 a → AtMost 1077 b → 0 ≤ fval a + fval b →
      fval a + fval b ≤ fval twoPi → inTurn (fadd a b) = true := fun ha hb hge hle => by
    have hge' := le_fval_fadd ha.1 hb.1 isFinite_zero (by omega)
    have hle' := fval_fadd_le ha.1 hb.1 isFinite_twoPi hle
    exact inTurn_iff.mpr ⟨(ha.fadd hb (by norm_num) (by norm_num)).1, by omega, hle'⟩
  have hangle : inTurn angle = true := inTurn_iff.mpr ⟨hf, hlo, by omega⟩
  unfold formatAccelRange
  split
  · rw [fsub_eq_fadd_fneg isFinite_pi hf]
    exact hsum (atMost_of_inTurn (by decide +kernel)) (atMost_of_inTurn hangle).fneg (by omega) (by omega)
  · split
    · rename_i hneg
      simp only [Bool.and_eq_true, flt_iff hf isFinite_zero, decide_eq_true_eq] at hneg
      exact hsum (atMost_of_inTurn hangle) (atMost_of_inTurn (by decide +kernel)) (by omega) (by omega)
    · exact hangle

/-- Both accel angles of bounded accelerations are in range. -/
theorem accAngle_inTurn {p : Params} (hp : legalParams p) {a : Vec3} (hx : AtMost 1189 a.x)
    (hy : AtMost 1189 a.y) (hz : AtMost 1189 a.z) :
    inTurn (accAngleOfX p a) = true ∧ inTurn (accAngleOfY p a) = true := by
  have htilt : ∀ {t u v : F64}, AtMost 1189 t → AtMost 1189 u → AtMost 1189 v →
      inTurn (formatAccelRange (p.atan2 t (norm2 u v)) a.z) = true := fun ht hu hv => by
    obtain ⟨hf, h0⟩ := norm2_nonneg hu hv
    obtain ⟨hr, hlo, hhi⟩ := atan2_halfPlane hp ht.1 hf h0
    exact formatAccelRange_inTurn _ hr hlo hhi
  exact ⟨htilt hx hy hz, htilt hy hx hz⟩

/-- Both accel angles of every frame are in range (rule R192). -/
theorem frame_accAngle_inTurn {p : Params} (hp : legalParams p) (w : FrameWords) :
    inTurn (accAngleOfX p (accelSIVec p (accelG (decodeFrame w)))) = true ∧
      inTurn (accAngleOfY p (accelSIVec p (accelG (decodeFrame w)))) = true := by
  obtain ⟨hx, hy, hz⟩ := atMost_accelSIVec hp w
  exact accAngle_inTurn hp hx hy hz

/-! ### The normalisation -/

theorem atMost_of_normDomain {x : F64} (h : normDomain x = true) : AtMost 1127 x := by
  rw [normDomain, Bool.and_eq_true] at h
  obtain ⟨hf, hlt⟩ := h
  have hv : fval two53 = ((2 ^ 1127 : Nat) : Int) := by decide +kernel
  rw [flt_iff (by rwa [isFinite_iff, fmag_fabs, ← isFinite_iff]) (by decide), decide_eq_true_eq, hv,
    fval_of_pos (fsign_fabs x), Nat.cast_lt, fmag_fabs] at hlt
  exact ⟨hf, hlt.le⟩

/-- A pass of the loop keeps the bound of its domain; where it ends the value is in range (rule R197). -/
theorem normLoop_normalised : ∀ {fuel : Nat} {x r : F64}, AtMost 1127 x → normLoop fuel x = .ok r →
    normalised r = true
  | 0, x, r, _, h => by cases h
  | fuel + 1, x, r, hx, h => by
    have hp := fval_halfPi_pos
    have h4 := fval_twoPi_eq
    have hT := fval_twoPi_le_two53
    have hxv := hx.2
    rw [← natAbs_fval] at hxv
    unfold normLoop at h
    rw [fge, fle_iff isFinite_twoPi hx.1, flt_iff hx.1 isFinite_zero, fval_zero] at h
    simp only [decide_eq_true_eq] at h
    split at h
    · rename_i hge
      rw [fsub_eq_fadd_fneg hx.1 isFinite_twoPi] at h
      refine normLoop_normalised (atMost_fadd hx.1 (by decide) (by norm_num) (by norm_num) ?_) h
      rw [fval_fneg]
      generalize 2 ^ 1127 = c at *
      omega
    · split at h
      · rename_i hneg
        refine normLoop_normalised (atMost_fadd hx.1 isFinite_twoPi (by norm_num) (by norm_num) ?_) h
        generalize 2 ^ 1127 = c at *
        omega
      · cases h
        exact normalised_iff.mpr ⟨hx.1, by omega, by omega⟩

theorem compFilterProcess_inTurn {p : Params} {c a omega dt r : F64}
    (h : compFilterProcess p c a omega dt = .ok r) :
    inTurn r = true := by
  unfold compFilterProcess formatRange0to2PI at h
  split at h
  · rename_i hd
    exact inTurn_of_normalised (normLoop_normalised (atMost_of_normDomain hd) h)
  · cases h

end Sys2Proof.Machine
end

section
/-! ## The invariant along every run (00_scope.md rule R16) -/

namespace Sys2Proof.Machine

open Sys2Proof.Config

/-! ### The integrated angle stays bounded (log entry 20) -/

/-- A sum whose second operand is at most a quarter of the last place above `2 ^ e` rounds back to `2 ^ e`. -/
theorem roundMag_absorbs {n e : Nat} (h106 : 106 ≤ e) (h : n ≤ 2 ^ e + 2 ^ (e - 54)) :
    roundMag n 1 ≤ (e - 51) * 2 ^ 52 := by
  rw [roundMag_eq_min]
  refine (Nat.min_le_left _ _).trans ?_
  by_contra hgt
  have hb := ((roundRaw_nearest (n := n) one_pos).below ((e - 51) * 2 ^ 52) (by omega)).1
  have hnext : (2 ^ 52 + 1) * 2 ^ (e - 52) ≤ units (roundRaw n 1) :=
    (le_units_scaled_succ (by norm_num) (.inl le_rfl)).trans (units_le_iff.mpr (by omega))
  have h2 : 2 ^ e = 2 ^ 52 * 2 ^ (e - 52) := by rw [← pow_add, Nat.add_sub_cancel' (by omega)]
  have h4 : 2 ^ (e - 52) = 4 * 2 ^ (e - 54) := by
    rw [show e - 52 = 2 + (e - 54) by omega, pow_add]
    norm_num
  have hpos := Nat.two_pow_pos (e - 54)
  rw [units_pow_two (by omega)] at hb
  omega

theorem fadd_absorbs {x y : F64} {e : Nat} (h106 : 106 ≤ e) (hmax : e < 2098) (hx : AtMost e x)
    (hy : AtMost (e - 54) y) : AtMost e (fadd x y) := by
  have hsum : (fval x + fval y).natAbs ≤ 2 ^ e + 2 ^ (e - 54) :=
    (Int.natAbs_add_le _ _).trans (by
      rw [natAbs_fval, natAbs_fval]
      exact Nat.add_le_add hx.2 hy.2)
  have hle := roundMag_absorbs h106 hsum
  rw [← fmag_fadd hx.1 hy.1] at hle
  refine ⟨isFinite_iff.mpr (hle.trans_lt ?_), units_pow_two (e := e) (by omega) ▸ units_le_iff.mpr hle⟩
  unfold infMag
  omega

theorem integBound_iff {x : F64} : finiteAtMost integBound x = true ↔ AtMost 1320 x :=
  atMost_iff (by decide) (by decide +kernel)

theorem integrate_first (integ scaled : F64) : integrate integ scaled true = 0 := if_pos rfl

theorem integrate_later (integ scaled : F64) : integrate integ scaled false = fadd integ scaled :=
  if_neg Bool.false_ne_true

/-- No frame takes the integrated angle past its bound. -/
theorem integrate_bounded {p : Params} (hp : legalParams p) {integ : F64} {raw : Int} {ticks : BitVec 32}
    (first : Bool) (hi : finiteAtMost integBound integ = true) (hraw : raw.natAbs ≤ 2 ^ 31) :
    finiteAtMost integBound (integrate integ (scaleDelta p raw ticks) first) = true := by
  obtain ⟨_, hsf, hrr, _⟩ := hp
  rw [integBound_iff] at hi ⊢
  cases first with
  | true =>
    rw [integrate_first]
    exact atMost_of_isZero _ (by decide)
  | false =>
    rw [integrate_later]
    exact fadd_absorbs (by norm_num) (by norm_num) hi ((atMost_scaleDelta hsf hrr hraw ticks).mono (by norm_num))

/-! ### One frame -/

/-- Every angle of a completed filter step is in range. -/
theorem filterStep_inTurn {p : Params} {first : Bool} {cX cY dt : F64} {a gs : Vec3} {o : FilterOut}
    (hax : inTurn (accAngleOfX p a) = true) (hay : inTurn (accAngleOfY p a) = true)
    (h : filterStep p first cX cY a gs dt = .ok o) :
    inTurn o.accX = true ∧ inTurn o.accY = true ∧ inTurn o.compX = true ∧ inTurn o.compY = true := by
  unfold filterStep at h
  split at h
  · cases h
    exact ⟨hax, hay, hax, hay⟩
  · split at h
    · cases h
    · rename_i hnx
      split at h
      · cases h
      · rename_i hny
        cases h
        exact ⟨hax, hay, compFilterProcess_inTurn hnx, compFilterProcess_inTurn hny⟩

/-- An angle in range, in degrees. -/
theorem isFinite_degrees {p : Params} (hp : legalParams p) {x : F64} (h : inTurn x = true) :
    isFinite (fmul x p.rad2deg) = true := by
  obtain ⟨_, _, _, _, _, hr, _⟩ := hp
  exact ((atMost_of_inTurn h).fmul (e := 1177) (atMost_rad2deg hr) (by norm_num) (by norm_num) (by norm_num)).1

/-- Every reading a frame publishes is finite, when the filter's angles are in range. -/
theorem isFinite_readings_publish {p : Params} (hp : legalParams p) (w : FrameWords) (prev : BitVec 32)
    (integ : F64) {o : FilterOut} (b : Block) (hax : inTurn o.accX = true) (hay : inTurn o.accY = true)
    (hcx : inTurn o.compX = true) (hcy : inTurn o.compY = true) :
    ∀ x ∈ readings (publish p (decodeFrame w) (scaleFrame p (decodeFrame w) prev) integ o b),
      isFinite x = true := by
  obtain ⟨gx, gy, gz⟩ := decodeFrame_gyro_natAbs_le w
  obtain ⟨ax, ay, az⟩ := decodeFrame_accel_natAbs_le w
  simp [readings, scaleFrame, gyroDeg, accelG, isFinite_degrees hp, hax, hay, hcx, hcy,
    (atMost_scaleGyro gx).1, (atMost_scaleGyro gy).1, (atMost_scaleGyro gz).1,
    (atMost_scaleAccel ax).1, (atMost_scaleAccel ay).1, (atMost_scaleAccel az).1]

/-- A processed frame leaves a safe block, whatever comp angles it started from. -/
theorem processFrame_safe {p : Params} (hp : legalParams p) {w : FrameWords} {b b' : Block}
    (hfifo : b.fifo.length ≤ p.fifoDepth) (hi : finiteAtMost integBound b.integAngle = true)
    (h : processFrame p w b = .ok b') : safeBlock p b' := by
  obtain ⟨o, ho, rfl⟩ := processFrame_ok h
  obtain ⟨hx, hy⟩ := frame_accAngle_inTurn hp w
  obtain ⟨hax, hay, hcx, hcy⟩ := filterStep_inTurn hx hy ho
  refine ⟨hfifo, fun hv => ?_, integrate_bounded hp _ hi (decodeFrame_deltaAngle_natAbs_le w), fun _ =>
    ⟨hcx, hcy, rfl, rfl, isFinite_readings_publish hp w _ _ b hax hay hcx hcy⟩⟩
  rw [publish_valid] at hv
  cases hv

theorem takeFrame_safe {p : Params} (hp : legalParams p) {b b' : Block} (hlen : frameLen ≤ b.fifo.length)
    (hs : safeBlock p b) (h : takeFrame p b = .ok b') : safeBlock p b' := by
  obtain ⟨hfifo, _, hi, _⟩ := hs
  obtain ⟨w, _, he⟩ := takeFrame_eq (p := p) hlen
  rw [he] at h
  have hdrop : (b.fifo.drop 19).length ≤ p.fifoDepth := by
    rw [List.length_drop]
    omega
  exact processFrame_safe hp (b := { b with fifo := b.fifo.drop 19 }) hdrop hi h

theorem stepFrame_safe {p : Params} (hp : legalParams p) {b b' : Block} (hs : safeBlock p b)
    (h : stepFrame p b = .ok b') : safeBlock p b' := by
  unfold stepFrame at h
  split at h
  · rename_i hlen
    exact takeFrame_safe hp hlen hs h
  · cases h
    exact hs

theorem takeFrames_succ_ok {p : Params} {b c : Block} (n : Nat) (h : takeFrame p b = .ok c) :
    takeFrames p (n + 1) b = takeFrames p n c := by
  change (match takeFrame p b with
    | Except.error e => Except.error e
    | Except.ok b' => takeFrames p n b') = _
  rw [h]

theorem takeFrames_succ_error {p : Params} {b : Block} {e : Fault} (n : Nat) (h : takeFrame p b = .error e) :
    takeFrames p (n + 1) b = .error e := by
  change (match takeFrame p b with
    | Except.error e => Except.error e
    | Except.ok b' => takeFrames p n b') = _
  rw [h]

/-- A completed repetition is a completed first frame and the completed rest (44_commands.md rule R134). -/
theorem takeFrames_succ_inv {p : Params} {n : Nat} {b b' : Block} (h : takeFrames p (n + 1) b = .ok b') :
    ∃ c, takeFrame p b = .ok c ∧ takeFrames p n c = .ok b' := by
  cases hc : takeFrame p b with
  | error e =>
    rw [takeFrames_succ_error n hc] at h
    cases h
  | ok c => exact ⟨c, rfl, takeFrames_succ_ok n hc ▸ h⟩

theorem takeFrames_safe {p : Params} (hp : legalParams p) {n : Nat} {b b' : Block}
    (hlen : n * frameLen ≤ b.fifo.length) (hs : safeBlock p b) (h : takeFrames p n b = .ok b') :
    safeBlock p b' := by
  induction n generalizing b with
  | zero =>
    cases h
    exact hs
  | succ n ih =>
    obtain ⟨c, hc, hrest⟩ := takeFrames_succ_inv h
    rw [Nat.add_mul, Nat.one_mul] at hlen
    have hone : frameLen ≤ b.fifo.length := le_of_add_le_right hlen
    refine ih ?_ (takeFrame_safe hp hone hs hc) hrest
    rw [takeFrame_fifo hone hc, List.length_drop]
    exact Nat.le_sub_of_add_le hlen

theorem drainFrames_safe {p : Params} (hp : legalParams p) {b b' : Block} (hs : safeBlock p b)
    (h : drainFrames p b = .ok b') : safeBlock p b' :=
  takeFrames_safe hp (Nat.div_mul_le_self _ _) hs h

/-! ### One transaction -/

theorem legal_machineParams : legalParams machineParams := machineParametersMeetTheirConstraints.1

theorem fifoPush_safe {p : Params} {b : Block} (w : FifoWord) (hs : safeBlock p b) :
    safeBlock p (fifoPush p w b) := by
  obtain ⟨hfifo, hrest⟩ := hs
  have hlen := fifoPush_length_le (w := w) hfifo
  rcases fifoPush_cases p w b with ⟨_, he⟩ | ⟨_, he⟩ <;> rw [he] at hlen ⊢ <;> exact ⟨hlen, hrest⟩

/-- `+0.0`, the integrated angle after START and RESET, is within the bound. -/
theorem finiteAtMost_zero : finiteAtMost integBound 0 = true := by decide +kernel

theorem inv_of_readOutput {v : F64} {s t : State} (hs : Inv s) (h : readOutput v s = .next t) : Inv t := by
  rcases readOutput_cases v s with ⟨_, he⟩ | ⟨_, he⟩
  · rw [he] at h
    cases h
    exact hs
  · rw [he] at h
    cases h

theorem inv_of_finish {r : Except Fault Block} {s t : State}
    (hr : ∀ b, r = .ok b → safeBlock machineParams b) (h : finish r s = .next t) : Inv t := by
  obtain ⟨b, hb, rfl⟩ := finish_next h
  exact hr b hb

/-- Every instruction that completes keeps the invariant. -/
theorem exec_keeps_inv {i : Instr} {s t : State} (hs : Inv s) (h : exec i s = .next t) : Inv t := by
  cases i with
  | rdCmd | rdStatus | rdConfig | rdFifoData | rdFifoCount | rdIntegAngle | rdRsv | nop | wrIgn | wrStatus
  | wrConfig | cmdIllegal =>
    cases h
    exact hs
  | rdGyroX | rdGyroY | rdGyroZ | rdAccelX | rdAccelY | rdAccelZ | rdAccAngleX | rdAccAngleY | rdCompAngleX
  | rdCompAngleY => exact inv_of_readOutput hs h
  | wrFifoData d =>
    cases h
    exact fifoPush_safe _ hs
  | start =>
    cases h
    obtain ⟨_, _, _, hvalid⟩ := hs
    exact ⟨Nat.zero_le _, fun _ => rfl, finiteAtMost_zero, hvalid⟩
  | reset =>
    cases h
    obtain ⟨hfifo, hfirst, _, hvalid⟩ := hs
    exact ⟨hfifo, hfirst, finiteAtMost_zero, hvalid⟩
  | step => exact inv_of_finish (fun _ => stepFrame_safe legal_machineParams hs) h
  | drain => exact inv_of_finish (fun _ => drainFrames_safe legal_machineParams hs) h

/-! ### Runs -/

theorem inv_reset : Inv State.reset :=
  ⟨Nat.zero_le _, fun _ => rfl, finiteAtMost_zero, fun h => by cases h⟩

theorem execAll_keeps_inv {is : List Instr} {s t : State} (hs : Inv s) (h : execAll is s = .next t) : Inv t := by
  induction is generalizing s with
  | nil =>
    cases h
    exact hs
  | cons i is ih =>
    unfold execAll at h
    split at h
    · rename_i s' hs'
      exact ih (exec_keeps_inv hs hs') h
    · cases h
    · cases h

/-- Settles O42: the invariant holds at reset and along every run, and it bounds what is published. -/
theorem publishedValuesAreFinite : Obligations.PublishedValuesAreFinite := by
  intro is t h
  obtain ⟨_, _, hi, hv⟩ := execAll_keeps_inv inv_reset h
  refine ⟨(integBound_iff.mp hi).1, fun hvalid => ?_⟩
  obtain ⟨_, _, _, _, hreadings⟩ := hv hvalid
  exact hreadings

end Sys2Proof.Machine
end

section
/-! ## What a frame does to `S.valid` and `S.first` (10_state.md rules R33 and R36) -/

namespace Sys2Proof.Machine

open Sys2Proof.Config

theorem processesFrame_iff {i : Instr} {b : Block} :
    processesFrame i b = true ↔ (i = .step ∨ i = .drain) ∧ frameLen ≤ b.fifo.length := by
  rw [processesFrame, Bool.and_eq_true, Bool.or_eq_true, beq_iff_eq, beq_iff_eq, decide_eq_true_iff, fifoCount]

/-- STEP and DRAIN process no frame only when fewer words than a frame has are buffered. -/
theorem length_lt_of_no_frame {i : Instr} {b : Block} (hi : i = .step ∨ i = .drain)
    (h : processesFrame i b = false) : b.fifo.length < frameLen := by
  by_contra hge
  rw [processesFrame_iff.mpr ⟨hi, Nat.not_lt.mp hge⟩] at h
  cases h

theorem stepFrame_of_le {p : Params} {b : Block} (h : frameLen ≤ b.fifo.length) :
    stepFrame p b = takeFrame p b := if_pos h

theorem stepFrame_of_lt {p : Params} {b : Block} (h : b.fifo.length < frameLen) : stepFrame p b = .ok b :=
  if_neg h.not_ge

theorem drainFrames_of_lt {p : Params} {b : Block} (h : b.fifo.length < frameLen) : drainFrames p b = .ok b := by
  have h0 : fifoCount b / frameLen = 0 := Nat.div_eq_of_lt h
  rw [drainFrames, h0]
  rfl

/-- A processed frame sets `S.valid` and clears `S.first`. -/
theorem takeFrame_valid_first {p : Params} {b b' : Block} (hlen : frameLen ≤ b.fifo.length)
    (h : takeFrame p b = .ok b') : b'.valid = true ∧ b'.first = false := by
  obtain ⟨w, _, he⟩ := takeFrame_eq (p := p) hlen
  rw [he] at h
  obtain ⟨o, _, rfl⟩ := processFrame_ok h
  exact ⟨publish_valid .., publish_first ..⟩

/-- After one or more frames `S.valid` is set and `S.first` clear: the last of them left them so. -/
theorem takeFrames_succ_valid_first {p : Params} {n : Nat} {b b' : Block}
    (hlen : (n + 1) * frameLen ≤ b.fifo.length) (h : takeFrames p (n + 1) b = .ok b') :
    b'.valid = true ∧ b'.first = false := by
  induction n generalizing b with
  | zero =>
    obtain ⟨c, hc, hrest⟩ := takeFrames_succ_inv h
    cases hrest
    exact takeFrame_valid_first (by simpa using hlen) hc
  | succ n ih =>
    obtain ⟨c, hc, hrest⟩ := takeFrames_succ_inv h
    rw [Nat.add_mul, Nat.one_mul] at hlen
    refine ih ?_ hrest
    rw [takeFrame_fifo (le_of_add_le_right hlen) hc, List.length_drop]
    exact Nat.le_sub_of_add_le hlen

theorem drainFrames_valid_first {p : Params} {b b' : Block} (hlen : frameLen ≤ b.fifo.length)
    (h : drainFrames p b = .ok b') : b'.valid = true ∧ b'.first = false := by
  have hle : b.fifo.length / frameLen * frameLen ≤ b.fifo.length := Nat.div_mul_le_self _ _
  obtain ⟨n, hn⟩ := Nat.exists_eq_add_one.mpr (Nat.div_pos hlen (by decide))
  rw [drainFrames, fifoCount, hn] at h
  exact takeFrames_succ_valid_first (hn ▸ hle) h

/-- An instruction that processes a frame sets `S.valid` and clears `S.first`. -/
theorem exec_valid_first_of_processesFrame {i : Instr} {s t : State} (hp : processesFrame i s.block = true)
    (h : exec i s = .next t) : t.block.valid = true ∧ t.block.first = false := by
  obtain ⟨rfl | rfl, hlen⟩ := processesFrame_iff.mp hp
  · obtain ⟨b, hb, rfl⟩ := finish_next h
    exact takeFrame_valid_first hlen (stepFrame_of_le hlen ▸ hb)
  · obtain ⟨b, hb, rfl⟩ := finish_next h
    exact drainFrames_valid_first hlen hb

/-- STEP and DRAIN without a complete frame buffered change nothing (44_commands.md rules R133 and R134). -/
theorem block_of_incomplete_frame {i : Instr} {s t : State} (hi : i = .step ∨ i = .drain)
    (hp : processesFrame i s.block = false) (h : exec i s = .next t) : t.block = s.block := by
  have hlt := length_lt_of_no_frame hi hp
  obtain rfl | rfl := hi <;> obtain ⟨b, hb, rfl⟩ := finish_next h
  · rw [stepFrame_of_lt hlt] at hb
    cases hb
    rfl
  · rw [drainFrames_of_lt hlt] at hb
    cases hb
    rfl

/-- A guarded read that completes leaves the block alone. -/
theorem block_of_readOutput_next {v : F64} {s t : State} (h : readOutput v s = .next t) : t.block = s.block := by
  rcases readOutput_cases v s with ⟨_, he⟩ | ⟨_, he⟩ <;> rw [he] at h <;> cases h
  rfl

/-- A push leaves both flags alone. -/
theorem fifoPush_valid_first (p : Params) (w : FifoWord) (b : Block) :
    (fifoPush p w b).valid = b.valid ∧ (fifoPush p w b).first = b.first := by
  rcases fifoPush_cases p w b with ⟨_, he⟩ | ⟨_, he⟩ <;> rw [he] <;> exact ⟨rfl, rfl⟩

/-- An instruction that processes no frame leaves `S.valid` alone, and `S.first` too unless it is START. -/
theorem exec_valid_first_of_no_frame {i : Instr} {s t : State} (hp : processesFrame i s.block = false)
    (h : exec i s = .next t) :
    t.block.valid = s.block.valid ∧ (t.block.first = true ↔ i = .start ∨ s.block.first = true) := by
  cases i with
  | rdCmd | rdStatus | rdConfig | rdFifoData | rdFifoCount | rdIntegAngle | rdRsv | nop | reset | wrIgn
  | wrStatus | wrConfig | cmdIllegal =>
    cases h
    simp
  | rdGyroX | rdGyroY | rdGyroZ | rdAccelX | rdAccelY | rdAccelZ | rdAccAngleX | rdAccAngleY | rdCompAngleX
  | rdCompAngleY => simp [block_of_readOutput_next h]
  | wrFifoData d =>
    cases h
    simp [fifoPush_valid_first]
  | start =>
    cases h
    simp
  | step => simp [block_of_incomplete_frame (.inl rfl) hp h]
  | drain => simp [block_of_incomplete_frame (.inr rfl) hp h]

/-- Settles O31, by whether the instruction processes a frame. -/
theorem onlyFramesSetValidAndOnlyStartSetsFirst : Obligations.OnlyFramesSetValidAndOnlyStartSetsFirst := by
  intro i s t h
  cases hp : processesFrame i s.block with
  | false =>
    obtain ⟨hvalid, hfirst⟩ := exec_valid_first_of_no_frame hp h
    simp [hvalid, hfirst]
  | true =>
    obtain ⟨hvalid, hfirst⟩ := exec_valid_first_of_processesFrame hp h
    have hi : i ≠ .start := by
      rintro rfl
      cases hp
    simp [hvalid, hfirst, hi]

end Sys2Proof.Machine
end

section
/-! ## Model faults (10_state.md rule R46, 60_exceptions.md rule R265) -/

namespace Sys2Proof.Machine

open Sys2Proof.Config

/-! ### The frame step stops with `NormOutOfDomain` alone -/

theorem normLoop_fault {fuel : Nat} {x : F64} {e : Fault} (h : normLoop fuel x = .error e) :
    e = .normOutOfDomain := by
  induction fuel generalizing x with
  | zero =>
    cases h
    rfl
  | succ n ih =>
    unfold normLoop at h
    split at h
    · exact ih h
    · split at h
      · exact ih h
      · cases h

theorem compFilterProcess_fault {p : Params} {c a omega dt : F64} {e : Fault}
    (h : compFilterProcess p c a omega dt = .error e) : e = .normOutOfDomain := by
  unfold compFilterProcess formatRange0to2PI at h
  split at h
  · exact normLoop_fault h
  · cases h
    rfl

theorem filterStep_fault {p : Params} {first : Bool} {cX cY dt : F64} {a gs : Vec3} {e : Fault}
    (h : filterStep p first cX cY a gs dt = .error e) : e = .normOutOfDomain := by
  unfold filterStep at h
  split at h
  · cases h
  · split at h
    · rename_i hx
      cases h
      exact compFilterProcess_fault hx
    · split at h
      · rename_i hy
        cases h
        exact compFilterProcess_fault hy
      · cases h

theorem processFrame_fault {p : Params} {w : FrameWords} {b : Block} {e : Fault}
    (h : processFrame p w b = .error e) : e = .normOutOfDomain := by
  unfold processFrame at h
  split at h
  · rename_i hf
    cases h
    exact filterStep_fault hf
  · cases h

theorem takeFrame_fault {p : Params} {b : Block} {e : Fault} (hlen : frameLen ≤ b.fifo.length)
    (h : takeFrame p b = .error e) : e = .normOutOfDomain := by
  obtain ⟨w, _, he⟩ := takeFrame_eq (p := p) hlen
  exact processFrame_fault (he ▸ h)

theorem stepFrame_fault {p : Params} {b : Block} {e : Fault} (h : stepFrame p b = .error e) :
    e = .normOutOfDomain := by
  unfold stepFrame at h
  split at h
  · rename_i hlen
    exact takeFrame_fault hlen h
  · cases h

theorem takeFrames_fault {p : Params} {n : Nat} {b : Block} {e : Fault} (hlen : n * frameLen ≤ b.fifo.length)
    (h : takeFrames p n b = .error e) : e = .normOutOfDomain := by
  induction n generalizing b with
  | zero => cases h
  | succ n ih =>
    rw [Nat.add_mul, Nat.one_mul] at hlen
    have hone : frameLen ≤ b.fifo.length := le_of_add_le_right hlen
    cases hc : takeFrame p b with
    | error e' =>
      rw [takeFrames_succ_error n hc] at h
      cases h
      exact takeFrame_fault hone hc
    | ok c =>
      rw [takeFrames_succ_ok n hc] at h
      refine ih ?_ h
      rw [takeFrame_fifo hone hc, List.length_drop]
      exact Nat.le_sub_of_add_le hlen

theorem drainFrames_fault {p : Params} {b : Block} {e : Fault} (h : drainFrames p b = .error e) :
    e = .normOutOfDomain :=
  takeFrames_fault (Nat.div_mul_le_self _ _) h

/-! ### The guarded reads -/

/-- Each of the ten guarded reads is the read of its register. -/
theorem exec_of_mem_outputReads {s : State} {r : Instr × F64} (h : r ∈ outputReads s.block) :
    exec r.1 s = readOutput r.2 s := by
  simp only [outputReads, List.mem_cons, List.not_mem_nil, or_false] at h
  rcases h with rfl | rfl | rfl | rfl | rfl | rfl | rfl | rfl | rfl | rfl <;> rfl

theorem readOutput_of_not_valid (v : F64) {s : State} (h : s.block.valid = false) :
    readOutput v s = .fault .unwrittenRead := by simp [readOutput, h]

theorem readOutput_fault {v : F64} {s : State} {e : Fault} (h : readOutput v s = .fault e) :
    e = .unwrittenRead ∧ s.block.valid = false := by
  rcases readOutput_cases v s with ⟨_, he⟩ | ⟨hv, he⟩ <;> rw [he] at h <;> cases h
  exact ⟨rfl, hv⟩

/-- Who raises which fault: a guarded read before the first frame `UnwrittenRead`, STEP and DRAIN
`NormOutOfDomain`. -/
theorem exec_fault {i : Instr} {s : State} {e : Fault} (h : exec i s = .fault e) :
    (e = .unwrittenRead ∧ s.block.valid = false ∧ ∃ r ∈ outputReads s.block, r.1 = i) ∨
    (e = .normOutOfDomain ∧ (i = .step ∨ i = .drain)) := by
  cases i with
  | rdCmd | rdStatus | rdConfig | rdFifoData | rdFifoCount | rdIntegAngle | rdRsv | nop | start | reset | wrIgn
  | wrStatus | wrConfig | wrFifoData | cmdIllegal => cases h
  | rdGyroX | rdGyroY | rdGyroZ | rdAccelX | rdAccelY | rdAccelZ | rdAccAngleX | rdAccAngleY | rdCompAngleX
  | rdCompAngleY =>
    obtain ⟨he, hv⟩ := readOutput_fault h
    exact .inl ⟨he, hv, by simp [outputReads]⟩
  | step => exact .inr ⟨stepFrame_fault (finish_fault h), .inl rfl⟩
  | drain => exact .inr ⟨drainFrames_fault (finish_fault h), .inr rfl⟩

/-- Settles O9: `exec_fault` one way, the guard of the ten reads the other. -/
theorem unwrittenReadIsRaisedExactlyBeforeTheFirstFrame :
    Obligations.UnwrittenReadIsRaisedExactlyBeforeTheFirstFrame := by
  intro i s
  constructor
  · intro h
    obtain ⟨_, hguarded⟩ | ⟨hnorm, _⟩ := exec_fault h
    · exact hguarded
    · cases hnorm
  · rintro ⟨hv, r, hr, rfl⟩
    rw [exec_of_mem_outputReads hr, readOutput_of_not_valid _ hv]

/-! ### Hardware where the model stops -/

/-- Where the model goes on, hardware does what the model does. -/
theorem hardwareNext_iff_of_next {i : Instr} {s u t : State} (h : exec i s = .next u) :
    hardwareNext i s t ↔ exec i s = .next t := by simp [hardwareNext, h]

/-- Where the model stops at a guarded read, hardware returns some pattern. -/
theorem hardwareNext_iff_of_unwrittenRead {i : Instr} {s t : State} (h : exec i s = .fault .unwrittenRead) :
    hardwareNext i s t ↔ ∃ v, t = respond v s := by simp [hardwareNext, h]

/-- Settles O56: the model stops at each of the ten reads and completes each of the other four. -/
theorem hardwareReturnsAnUnspecifiedPatternBeforeTheFirstFrame :
    Obligations.HardwareReturnsAnUnspecifiedPatternBeforeTheFirstFrame := by
  intro s hv
  constructor
  · intro r hr t
    exact hardwareNext_iff_of_unwrittenRead
      ((exec_of_mem_outputReads hr).trans (readOutput_of_not_valid _ hv))
  · intro i hi t
    simp only [List.mem_cons, List.not_mem_nil, or_false] at hi
    obtain rfl | rfl | rfl | rfl := hi <;> exact hardwareNext_iff_of_next rfl

end Sys2Proof.Machine
end

section
/-! ## Power-on (10_state.md rule R48) -/

namespace Sys2Proof.Machine

/-- Settles O37: the values are those of `Block.powerOn`. -/
theorem powerOnValues : Obligations.PowerOnValues := ⟨rfl, rfl, rfl, rfl, rfl, rfl, rfl, rfl⟩

/-- Before the first frame a machine with an empty FIFO, `S.first` set and a zero integrated angle is safe,
whatever its other registers hold. -/
theorem inv_of_not_valid {s : State} (hfifo : s.block.fifo = []) (hfirst : s.block.first = true)
    (hinteg : s.block.integAngle = 0) (hvalid : s.block.valid = false) : Inv s := by
  refine ⟨?_, fun _ => hfirst, ?_, fun hv => ?_⟩
  · rw [hfifo]
    exact Nat.zero_le _
  · rw [hinteg]
    exact finiteAtMost_zero
  · rw [hvalid] at hv
    cases hv

/-- Settles O38: the invariant reads none of the registers whose power-on value is unspecified. -/
theorem powerOnIsSafe : Obligations.PowerOnIsSafe :=
  ⟨inv_reset, fun _ _ _ _ _ _ _ _ _ _ _ _ => inv_of_not_valid rfl rfl rfl rfl⟩

end Sys2Proof.Machine
end

section
/-! ## The codes of instructions (30_encoding.md rules R90 to R98) -/

namespace Sys2Proof

/-! ### The direction of a transaction -/

/-- A read's code has `W = 0`. -/
@[simp] theorem encodeRead_w (a : RegIndex) : (encodeRead a).w = false := portWord_w ..

/-- A command's code has `W = 1`. -/
@[simp] theorem encodeCommand_w (op : BitVec 4) : (encodeCommand op).w = true := portWord_w ..

theorem encode_decodeRead_w (a : RegIndex) : (encode (decodeRead a)).w = false := by
  unfold decodeRead
  split <;> exact encodeRead_w _

theorem encode_decodeCommand_w (d : Data) : (encode (decodeCommand d)).w = true := by
  unfold decodeCommand
  split
  · split <;> simp [encode]
  · exact portWord_w ..

theorem encode_decodeWrite_w (a : RegIndex) (d : Data) : (encode (decodeWrite a d)).w = true := by
  unfold decodeWrite
  split
  · exact encode_decodeCommand_w d
  all_goals exact portWord_w ..

/-- Decoding keeps the direction of the transaction. -/
theorem encode_decode_w (pw : PortWord) : (encode (decode pw)).w = pw.w := by
  unfold decode
  cases pw.w with
  | true => exact encode_decodeWrite_w ..
  | false => exact encode_decodeRead_w _

theorem decodeRead_of_reserved {a : RegIndex} (h : reservedIndex a = true) : decodeRead a = .rdRsv a := by
  revert a
  decide

theorem decodeCommand_of_illegal {d : Data} (h : legalCommand d = false) : decodeCommand d = .cmdIllegal d := by
  have hd : 4 < d.toNat := by simpa [legalCommand] using h
  unfold decodeCommand
  split
  · rename_i hr
    have hrsv : (d.toNat >>> 4) % 2 ^ 60 = 0 := by
      rw [← BitVec.extractLsb'_toNat]
      exact congrArg BitVec.toNat hr
    have hop : (commandOp d).toNat = d.toNat % 2 ^ 4 := BitVec.extractLsb'_toNat ..
    rw [Nat.shiftRight_eq_div_pow] at hrsv
    split
    case h_6 => rfl
    all_goals omega
  · rfl

theorem decodeWrite_of_ignored {a : RegIndex} (d : Data) (h : ignoresWrite a = true) :
    decodeWrite a d = .wrIgn a d := by
  have ha : 4 ≤ a.toNat := by simpa [ignoresWrite] using h
  unfold decodeWrite
  split
  case h_5 => rfl
  all_goals omega

/-- Decoding undoes encoding. -/
theorem decode_encode {i : Instr} (h : i.wf = true) : decode (encode i) = i := by
  cases i with
  | rdCmd | rdStatus | rdConfig | rdFifoData | rdFifoCount | rdIntegAngle | rdGyroX | rdGyroY | rdGyroZ | rdAccelX
  | rdAccelY | rdAccelZ | rdAccAngleX | rdAccAngleY | rdCompAngleX | rdCompAngleY => exact decode_portWord_read _ _
  | wrStatus d | wrConfig d | wrFifoData d | nop | start | reset | step | drain => exact decode_portWord_write _ _
  | cmdIllegal d =>
    exact (decode_portWord_write 0 d).trans (decodeCommand_of_illegal (by simpa [Instr.wf] using h))
  | rdRsv a => exact (decode_portWord_read a 0).trans (decodeRead_of_reserved h)
  | wrIgn a d => exact (decode_portWord_write a d).trans (decodeWrite_of_ignored d h)

/-- A number of at most 70 bits is its port word (log entry 18). -/
theorem portWordOf_of_lt {w : Nat} (h : w < 2 ^ 70) : portWordOf (w % 2 ^ 72) = .ok (BitVec.ofNat 70 w) := by
  rw [Nat.mod_eq_of_lt (by omega)]
  exact if_pos h

theorem decodeTableWord_of_lt {w : Nat} (h : w < 2 ^ 70) :
    decodeTableWord 72 w = some (decode (BitVec.ofNat 70 w)) := by
  simp only [decodeTableWord, decodeNat, portWordOf_of_lt h]

end Sys2Proof
end

section
/-! ## One transaction (20_memory.md rules R71, R72, R74, R76 and R82) -/

namespace Sys2Proof.Machine

open Sys2Proof.Config

/-! ### The step -/

theorem step_of_pending {s : State} {pw : PortWord} {rest : List PortWord} (h : s.port.pending = pw :: rest) :
    step s = exec (decode pw) (s.withPending rest) := by simp [step, h]

theorem step_of_idle {s : State} (h : s.port.pending = []) : step s = .next s := by simp [step, h]

/-- A step holds the state or executes the oldest transaction. -/
theorem step_inv {s t : State} (h : step s = .next t) :
    (s.port.pending = [] ∧ t = s) ∨
    ∃ pw rest, s.port.pending = pw :: rest ∧ exec (decode pw) (s.withPending rest) = .next t := by
  cases hp : s.port.pending with
  | nil =>
    rw [step_of_idle hp] at h
    cases h
    exact .inl ⟨rfl, rfl⟩
  | cons pw rest => exact .inr ⟨pw, rest, rfl, step_of_pending hp ▸ h⟩

/-- Settles O39: a step holds the state or executes one instruction, and every instruction keeps the invariant. -/
theorem everyStepKeepsTheInvariant : Obligations.EveryStepKeepsTheInvariant := by
  intro s t hs h
  obtain ⟨_, rfl⟩ | ⟨pw, rest, _, hexec⟩ := step_inv h
  · exact hs
  · exact exec_keeps_inv (s := s.withPending rest) hs hexec

/-- The transaction `withFetchWord` issues waits before all others. -/
theorem withFetchWord_of_lt {s : State} {w : Nat} (h : w < 2 ^ 70) :
    s.withFetchWord 72 w = s.withPending (BitVec.ofNat 70 w :: s.port.pending) := by
  simp only [State.withFetchWord, portWordOf_of_lt h]

/-- Settles O5: by the lemmas of `step`, of `withFetchWord` and of the encoder. -/
theorem stepRunsTheOldestTransaction : Obligations.StepRunsTheOldestTransaction := by
  refine ⟨fun _ _ _ => step_of_pending, fun s i rest hwf hp => ?_, fun _ => step_of_idle, fun s w hw => ?_⟩
  · rw [step_of_pending hp, decode_encode hwf]
  · rw [withFetchWord_of_lt hw, step_of_pending (withPending_pending ..), withPending_withPending, withPending_self]
    exact ⟨rfl, decodeTableWord_of_lt hw⟩

/-- Settles O33: by who raises which fault, the frame step raises none but `NormOutOfDomain`. -/
theorem emptyPopNeverHappens : Obligations.EmptyPopNeverHappens := by
  intro i s h
  obtain ⟨he, _⟩ | ⟨he, _⟩ := exec_fault h <;> cases he

/-! ### Repeating a transaction -/

/-- STEP and DRAIN without a complete frame buffered commit the block as it is. -/
theorem exec_of_incomplete_frame {i : Instr} {s : State} (hi : i = .step ∨ i = .drain)
    (h : s.block.fifo.length < frameLen) : exec i s = .next (commit s.block s) := by
  obtain rfl | rfl := hi
  · exact congrArg (finish · s) (stepFrame_of_lt h)
  · exact congrArg (finish · s) (drainFrames_of_lt h)

theorem yawWrite_yawWrite (code : BitVec 2) (old : YawAxis) :
    yawWrite code (yawWrite code old) = yawWrite code old := by
  unfold yawWrite
  split <;> simp [*]

theorem clearSticky_clearSticky (d : Data) (b : Block) : clearSticky d (clearSticky d b) = clearSticky d b := by
  simp [clearSticky]

theorem readOutput_repeats {v : F64} {s t : State} (h : readOutput v s = .next t) : readOutput v t = .next t := by
  rcases readOutput_cases v s with ⟨hv, he⟩ | ⟨_, he⟩ <;> rw [he] at h <;> cases h
  exact if_pos hv

/-- Settles O34, instruction by instruction: what a transaction does depends on nothing that it changes, but for the
writes of `STATUS` and `CONFIG`, which do nothing to a field a second time. -/
theorem repeatingATransactionChangesNothing : Obligations.RepeatingATransactionChangesNothing := by
  intro i s t hpush hframe h
  cases i with
  | rdCmd | rdStatus | rdConfig | rdFifoData | rdFifoCount | rdIntegAngle | rdRsv | nop | start | reset | wrIgn
  | cmdIllegal =>
    cases h
    rfl
  | rdGyroX | rdGyroY | rdGyroZ | rdAccelX | rdAccelY | rdAccelZ | rdAccAngleX | rdAccAngleY | rdCompAngleX
  | rdCompAngleY =>
    have hr := readOutput_repeats h
    rwa [← block_of_readOutput_next h] at hr
  | wrFifoData d => exact absurd rfl (hpush d)
  | wrStatus d =>
    cases h
    simp [exec, execWrStatus, clearSticky_clearSticky]
  | wrConfig d =>
    cases h
    simp [exec, execWrConfig, yawWrite_yawWrite]
  | step | drain =>
    have hlt := length_lt_of_no_frame (by simp) hframe
    rw [exec_of_incomplete_frame (by simp) hlt] at h
    cases h
    exact exec_of_incomplete_frame (by simp) hlt

/-! ### What a transaction answers -/

/-- From `s` to `t` the waiting transactions stay, and `i` answers a value exactly when it is a read (20_memory.md
rule R71). -/
def Answers (i : Instr) (s t : State) : Prop :=
  t.port.pending = s.port.pending ∧ t.port.response.isSome = !(encode i).w

theorem answers_respond {i : Instr} (v : Data) (s : State) (hw : (encode i).w = false) : Answers i s (respond v s) :=
  ⟨rfl, by rw [hw]; rfl⟩

theorem answers_commit {i : Instr} (b : Block) (s : State) (hw : (encode i).w = true) : Answers i s (commit b s) :=
  ⟨rfl, by rw [hw]; rfl⟩

theorem answers_readOutput {i : Instr} {v : F64} {s t : State} (hw : (encode i).w = false)
    (h : readOutput v s = .next t) : Answers i s t := by
  rcases readOutput_cases v s with ⟨_, he⟩ | ⟨_, he⟩ <;> rw [he] at h <;> cases h
  exact answers_respond v s hw

theorem answers_finish {i : Instr} {r : Except Fault Block} {s t : State} (hw : (encode i).w = true)
    (h : finish r s = .next t) : Answers i s t := by
  obtain ⟨b, _, rfl⟩ := finish_next h
  exact answers_commit b s hw

/-- Every instruction that completes answers as rule R71 says. -/
theorem exec_answers {i : Instr} {s t : State} (h : exec i s = .next t) : Answers i s t := by
  cases i with
  | rdCmd | rdStatus | rdConfig | rdFifoData | rdFifoCount | rdIntegAngle | rdRsv =>
    cases h
    exact answers_respond _ s (encodeRead_w _)
  | rdGyroX | rdGyroY | rdGyroZ | rdAccelX | rdAccelY | rdAccelZ | rdAccAngleX | rdAccAngleY | rdCompAngleX
  | rdCompAngleY => exact answers_readOutput (encodeRead_w _) h
  | wrStatus | wrConfig | wrFifoData | cmdIllegal | wrIgn | nop | start | reset =>
    cases h
    exact answers_commit _ s (portWord_w ..)
  | step | drain => exact answers_finish (encodeCommand_w _) h

theorem readOutput_ne_refused (v : F64) (s : State) (r : Refusal) : readOutput v s ≠ .refused r := by
  rcases readOutput_cases v s with ⟨_, he⟩ | ⟨_, he⟩ <;> simp [he]

theorem finish_ne_refused (x : Except Fault Block) (s : State) (r : Refusal) : finish x s ≠ .refused r := by
  cases x <;> simp [finish]

/-- Every instruction has its meaning. -/
theorem exec_ne_refused (i : Instr) (s : State) (r : Refusal) : exec i s ≠ .refused r := by
  cases i with
  | rdCmd | rdStatus | rdConfig | rdFifoData | rdFifoCount | rdIntegAngle | rdRsv | nop | start | reset | wrIgn
  | wrStatus | wrConfig | wrFifoData | cmdIllegal => exact nofun
  | rdGyroX | rdGyroY | rdGyroZ | rdAccelX | rdAccelY | rdAccelZ | rdAccAngleX | rdAccAngleY | rdCompAngleX
  | rdCompAngleY => exact readOutput_ne_refused _ _ _
  | step | drain => exact finish_ne_refused _ _ _

/-- Settles O6: no meaning refuses, and each ends in `respond` or `commit`. -/
theorem readsReturnAValueAndWritesNothing : Obligations.ReadsReturnAValueAndWritesNothing :=
  fun i s => ⟨exec_ne_refused i s, fun _ => exec_answers⟩

end Sys2Proof.Machine
end

section
/-! ## The normalisation ends (43_complementary_filter.md rules R197 and R203)

Whole numbers are exact, so a pass keeps every whole bound of its exact result: the bound of the magnitude falls by 6
in each pass, and no error of rounding has to be counted. -/

namespace Sys2Proof.Machine

open Sys2Proof.Config

/-! ### Whole numbers as bounds of a pass -/

/-- A whole number of at most 53 bits, in units. -/
theorem fval_i2f {n : Int} (h : n.natAbs ≤ 2 ^ 53) : fval (i2f n) = n * oneUnits :=
  (smallIntegersConvertExactly.1 n h).2

/-- A sum is at most every whole number its exact value is at most. -/
theorem fval_fadd_le_whole {a b : F64} {n : Int} (ha : isFinite a = true) (hb : isFinite b = true)
    (hn : n.natAbs ≤ 2 ^ 53) (h : fval a + fval b ≤ n * oneUnits) : fval (fadd a b) ≤ n * oneUnits := by
  rw [← fval_i2f hn] at h ⊢
  exact fval_fadd_le ha hb (i2f_exact hn).1 h

theorem whole_le_fval_fadd {a b : F64} {n : Int} (ha : isFinite a = true) (hb : isFinite b = true)
    (hn : n.natAbs ≤ 2 ^ 53) (h : n * oneUnits ≤ fval a + fval b) : n * oneUnits ≤ fval (fadd a b) := by
  rw [← fval_i2f hn] at h ⊢
  exact le_fval_fadd ha hb (i2f_exact hn).1 h

/-- A sum between two whole numbers is finite and stays between them. -/
theorem fadd_between {a b : F64} {lo hi : Int} (ha : isFinite a = true) (hb : isFinite b = true)
    (hlo : lo.natAbs ≤ 2 ^ 53) (hhi : hi.natAbs ≤ 2 ^ 53) (h1 : lo * oneUnits ≤ fval a + fval b)
    (h2 : fval a + fval b ≤ hi * oneUnits) :
    isFinite (fadd a b) = true ∧ lo * oneUnits ≤ fval (fadd a b) ∧ fval (fadd a b) ≤ hi * oneUnits := by
  refine ⟨(atMost_fadd (e := 1127) ha hb (by norm_num) (by norm_num) ?_).1, whole_le_fval_fadd ha hb hlo h1,
    fval_fadd_le_whole ha hb hhi h2⟩
  have hlow : -(2 ^ 53) * (oneUnits : Int) ≤ lo * oneUnits :=
    Int.mul_le_mul_of_nonneg_right (by omega) (Int.natCast_nonneg _)
  have hhigh : hi * (oneUnits : Int) ≤ 2 ^ 53 * oneUnits :=
    Int.mul_le_mul_of_nonneg_right (by omega) (Int.natCast_nonneg _)
  have he : 2 ^ 1127 = 2 ^ 53 * oneUnits := by rw [oneUnits_eq, ← pow_add]
  omega

theorem six_le_twoPi : 6 * (oneUnits : Int) ≤ fval twoPi := by decide +kernel
theorem twoPi_le_seven : fval twoPi ≤ 7 * (oneUnits : Int) := by decide +kernel

/-! ### One pass -/

section Pass
variable {x : F64} (fuel : Nat) (hx : isFinite x = true)
include hx

theorem normLoop_of_inRange (h0 : 0 ≤ fval x) (h1 : fval x < fval twoPi) : normLoop (fuel + 1) x = .ok x := by
  rw [normLoop, fge, fle_iff isFinite_twoPi hx, flt_iff hx isFinite_zero, fval_zero]
  simp [h0.not_gt, h1.not_ge]

theorem normLoop_of_above (h : fval twoPi ≤ fval x) :
    normLoop (fuel + 1) x = normLoop fuel (fadd x (fneg twoPi)) := by
  rw [normLoop, fge, fle_iff isFinite_twoPi hx, fsub_eq_fadd_fneg hx isFinite_twoPi]
  simp [h]

theorem normLoop_of_below (h : fval x < 0) : normLoop (fuel + 1) x = normLoop fuel (fadd x twoPi) := by
  have hp := fval_halfPi_pos
  have h4 := fval_twoPi_eq
  have hlt : ¬ fval twoPi ≤ fval x := by omega
  rw [normLoop, fge, fle_iff isFinite_twoPi hx, flt_iff hx isFinite_zero, fval_zero]
  simp [h, hlt]

end Pass

/-! ### The loop ends -/

theorem oneUnits_cast_pos : (0 : Int) < oneUnits := Int.natCast_pos.mpr oneUnits_pos

/-- Each pass from above takes off at least 6, and never goes below zero. -/
theorem normLoop_ends_of_nonneg {fuel n : Nat} {x : F64} (hx : isFinite x = true) (h0 : 0 ≤ fval x)
    (hn : fval x ≤ n * (oneUnits : Int)) (h53 : n ≤ 2 ^ 53) (hfuel : n < 6 * fuel) :
    ∃ r, normLoop fuel x = .ok r := by
  induction fuel generalizing n x with
  | zero => exact absurd hfuel (Nat.not_lt_zero n)
  | succ fuel ih =>
    rcases lt_or_ge (fval x) (fval twoPi) with hlt | hge
    · exact ⟨x, normLoop_of_inRange fuel hx h0 hlt⟩
    · have hn6 : (6 : Int) ≤ n := le_of_mul_le_mul_right (six_le_twoPi.trans (hge.trans hn)) oneUnits_cast_pos
      have hsub : fval x + fval (fneg twoPi) ≤ ((n : Int) - 6) * oneUnits := by
        rw [fval_fneg, Int.sub_mul]
        linarith [six_le_twoPi]
      obtain ⟨hf, hlo, hhi⟩ := fadd_between (lo := 0) hx ((isFinite_fneg _).trans isFinite_twoPi) (by norm_num)
        (by omega) (by rw [fval_fneg]; linarith) hsub
      rw [normLoop_of_above fuel hx hge]
      refine ih (n := n - 6) hf (by linarith) ?_ (by omega) (by omega)
      rwa [Nat.cast_sub (by omega)]

/-- Each pass from below adds at least 6, and the last one ends in `[0, TWO_PI]`. -/
theorem normLoop_ends_of_neg {fuel n : Nat} {x : F64} (hx : isFinite x = true) (hneg : fval x < 0)
    (hn : -(n : Int) * oneUnits ≤ fval x) (h53 : n ≤ 2 ^ 53) (hfuel : n + 13 ≤ 6 * fuel) :
    ∃ r, normLoop fuel x = .ok r := by
  induction fuel generalizing n x with
  | zero => omega
  | succ fuel ih =>
    have hadd : (-(n : Int) + 6) * oneUnits ≤ fval x + fval twoPi := by linarith [six_le_twoPi]
    obtain ⟨hf, hlo, hhi⟩ := fadd_between (hi := 7) hx isFinite_twoPi (by omega) (by norm_num) hadd
      (by linarith [twoPi_le_seven])
    rw [normLoop_of_below fuel hx hneg]
    rcases lt_or_ge (fval (fadd x twoPi)) 0 with hneg' | h0
    · have hn6 : -(n : Int) + 6 < 0 := by
        by_contra hge
        exact absurd (hlo.trans_lt hneg') (mul_nonneg (by omega) oneUnits_cast_pos.le).not_gt
      refine ih (n := n - 6) hf hneg' ?_ (by omega) (by omega)
      rw [Nat.cast_sub (by omega), Nat.cast_ofNat, neg_sub, sub_eq_neg_add]
      exact hlo
    · exact normLoop_ends_of_nonneg (n := 7) hf h0 hhi (by norm_num) (by omega)

/-- In its domain the normalisation ends, well within its passes (log entry 12). -/
theorem formatRange0to2PI_ok {x : F64} (h : normDomain x = true) : ∃ r, formatRange0to2PI x = .ok r := by
  obtain ⟨hf, hu⟩ := atMost_of_normDomain h
  have he : 2 ^ 1127 = 2 ^ 53 * oneUnits := by rw [oneUnits_eq, ← pow_add]
  rw [← natAbs_fval, he] at hu
  rw [formatRange0to2PI, if_pos h]
  have hpow : ((2 ^ 53 * oneUnits : Nat) : Int) = ((2 ^ 53 : Nat) : Int) * oneUnits := Nat.cast_mul _ _
  rcases lt_or_ge (fval x) 0 with hneg | h0
  · refine normLoop_ends_of_neg (n := 2 ^ 53) hf hneg ?_ le_rfl (by norm_num [normFuel])
    rw [neg_mul, ← hpow]
    omega
  · refine normLoop_ends_of_nonneg (n := 2 ^ 53) hf h0 ?_ le_rfl (by norm_num [normFuel])
    rw [← hpow]
    omega

end Sys2Proof.Machine
end

section
/-! ## Every frame completes in a safe state (43_complementary_filter.md rule R203, 60_exceptions.md rule R265) -/

namespace Sys2Proof.Machine

open Sys2Proof.Config

/-! ### The filter's inputs are bounded -/

/-- A bound below `2^53` puts a value in the domain of the normalisation (rule R203). -/
theorem normDomain_of_atMost {e : Nat} {x : F64} (h : AtMost e x) (he : e < 1127) : normDomain x = true := by
  have hv : fval two53 = ((2 ^ 1127 : Nat) : Int) := by decide +kernel
  have habs : isFinite (fabs x) = true := by rw [isFinite_iff, fmag_fabs, ← isFinite_iff]; exact h.1
  rw [normDomain, h.1, Bool.true_and, flt_iff habs (by decide), decide_eq_true_eq, hv, fval_of_pos (fsign_fabs x),
    Nat.cast_lt, fmag_fabs]
  exact h.2.trans_lt (pow_lt_pow_right₀ Nat.one_lt_two he)

/-- A positive value at most a power of two. -/
theorem atMost_of_pos_le {j : Nat} {hi x : F64} (hhi : isFinite hi = true) (hj : fval hi = ((2 ^ j : Nat) : Int))
    (hpos : flt 0 x = true) (hle : fle x hi = true) : AtMost j x := by
  simp only [flt, fle, Bool.and_eq_true, decide_eq_true_eq, fval_zero] at hpos hle
  obtain ⟨_, hpos⟩ := hpos
  obtain ⟨_, hle⟩ := hle
  have hlt := natAbs_fval_lt hhi
  have hx : (fval x).natAbs ≤ (fval hi).natAbs := by omega
  rw [hj, Int.natAbs_natCast, natAbs_fval] at hx
  refine ⟨?_, hx⟩
  rw [isFinite_iff, ← units_lt_iff]
  rw [hj, Int.natAbs_natCast] at hlt
  exact hx.trans_lt hlt

theorem atMost_deg2rad {x : F64} (h : deg2radLegal x = true) : AtMost 1069 x := by
  rw [deg2radLegal, Bool.and_eq_true] at h
  exact atMost_of_pos_le (by decide) (by decide +kernel) h.1 h.2

section
variable (p : Params) (f : DecodedFrame) (prev : BitVec 32)

theorem scaleFrame_accSI : (scaleFrame p f prev).accSI = accelSIVec p (accelG f) := by
  rw [scaleFrame]
theorem scaleFrame_omegaX : omegaX (scaleFrame p f prev).gs = fneg (gyroSI p (scaleGyro f.gy)) := by
  rw [omegaX, scaleFrame, gyroSIVec, gyroDeg]
theorem scaleFrame_omegaY : omegaY (scaleFrame p f prev).gs = gyroSI p (scaleGyro f.gx) := by
  rw [omegaY, scaleFrame, gyroSIVec, gyroDeg]
theorem scaleFrame_dt : (scaleFrame p f prev).dt = dtOf (deltaTicks f.timestamp prev) := by
  rw [scaleFrame]

end

/-- An angular rate of a frame (rule R154). -/
theorem atMost_gyroSI {p : Params} (hp : legalParams p) {g : Int} (h : g.natAbs ≤ 2 ^ 15) :
    AtMost 1084 (gyroSI p (scaleGyro g)) := by
  obtain ⟨_, _, _, _, hd, _⟩ := hp
  exact (atMost_scaleGyro h).fmul (atMost_deg2rad hd) (by norm_num) (by norm_num) (by norm_num)

theorem one_le_usPerS : 2 ^ 1074 ≤ units (fmag usPerS) := by decide +kernel

/-- A time step is at most `2^32` and not negative (rule R157). -/
theorem dtOf_bounds (ticks : BitVec 32) : AtMost 1106 (dtOf ticks) ∧ 0 ≤ fval (dtOf ticks) := by
  have hticks : AtMost 1106 (i2f ticks.toNat) := atMost_i2f (t := 32) (by norm_num) ticks.isLt.le
  refine ⟨hticks.fdiv (by decide) one_le_usPerS (by norm_num) (by norm_num) (by norm_num), fval_nonneg_of_pos ?_⟩
  rw [dtOf, fdiv_finite hticks.1 (by decide) (by decide), fsign_fpack _ (roundMag_lt _ _), fsign_i2f,
    decide_eq_false (Int.natCast_nonneg _).not_gt]
  decide

/-! ### The blend is in the domain of the normalisation -/

/-- The sum of two finite values is finite or an infinity. -/
theorem isFinite_or_isInf_fadd {a b : F64} (ha : isFinite a = true) (hb : isFinite b = true) :
    isFinite (fadd a b) = true ∨ isInf (fadd a b) = true := by
  rw [isFinite_iff, isInf_iff, fmag_fadd ha hb]
  exact (roundMag_le _ _).lt_or_eq

/-- The weight is at most 1, since `TAU + dt` is at least `TAU`; where that sum overflows it is 0 (rule R194). -/
theorem atMost_alphaOf {p : Params} (htau : tauLegal p.tau = true) {dt : F64} (hdt : isFinite dt = true)
    (h0 : 0 ≤ fval dt) : AtMost 1074 (alphaOf p dt) := by
  rw [tauLegal, Bool.and_eq_true] at htau
  obtain ⟨hf, hpos⟩ := htau
  rw [flt_iff isFinite_zero hf, fval_zero, decide_eq_true_eq] at hpos
  unfold alphaOf
  obtain hsum | hinf := isFinite_or_isInf_fadd hf hdt
  · have hle : fval p.tau ≤ fval (fadd p.tau dt) := le_fval_fadd hf hdt hf (by omega)
    have hs := fsign_of_pos (hpos.trans_le hle)
    rw [fval_of_pos (fsign_of_pos hpos), fval_of_pos hs, Nat.cast_le] at hle
    have hu : 0 < units (fmag (fadd p.tau dt)) := by
      rw [fval_of_pos (fsign_of_pos hpos), Nat.cast_pos] at hpos
      exact hpos.trans_le hle
    rw [fdiv_finite hf hsum (isZero_of_le_units (j := 0) hu)]
    refine atMost_fpack _ hu (by norm_num) (by norm_num) ?_
    rw [← oneUnits_eq, Nat.mul_comm]
    exact Nat.mul_le_mul_left _ hle
  · exact atMost_of_isZero _ (isZero_fdiv_inf hf hinf)

/-- One shift of one turn takes an angle in range to at most 16 (rule R193). -/
theorem atMost_formatFastConverge {c : F64} (a : F64) (hc : inTurn c = true) :
    AtMost 1078 (formatFastConverge c a) := by
  have hb := atMost_of_inTurn hc
  have ht : AtMost 1077 twoPi := atMost_of_inTurn (by decide +kernel)
  unfold formatFastConverge
  split
  · rw [fsub_eq_fadd_fneg hb.1 ht.1]
    exact hb.fadd ht.fneg (by norm_num) (by norm_num)
  · split
    · exact hb.fadd ht (by norm_num) (by norm_num)
    · exact hb.mono (by norm_num)

theorem atMost_one_sub {x : F64} (h : AtMost 1074 x) : AtMost 1075 (fsub one x) := by
  have hone : AtMost 1074 one := ⟨by decide, by decide +kernel⟩
  rw [fsub_eq_fadd_fneg hone.1 h.1]
  exact hone.fadd h.fneg (by norm_num) (by norm_num)

/-- Between angles in range, at a bounded rate over a bounded time, the blend stays far below `2^53`. -/
theorem normDomain_filterBlend {p : Params} (htau : tauLegal p.tau = true) {c a omega dt : F64}
    (hc : inTurn c = true) (ha : inTurn a = true) (homega : AtMost 1084 omega) (hdt : AtMost 1106 dt)
    (h0 : 0 ≤ fval dt) : normDomain (filterBlend p c a omega dt) = true := by
  have halpha := atMost_alphaOf htau hdt.1 h0
  have hgyro : AtMost 1117 (gyroAngle (formatFastConverge c a) omega dt) :=
    ((atMost_formatFastConverge a hc).mono (by norm_num)).fadd
      (homega.fmul hdt (e := 1116) (by norm_num) (by norm_num) (by norm_num)) (by norm_num) (by norm_num)
  have hleft : AtMost 1117 (fmul (alphaOf p dt) (gyroAngle (formatFastConverge c a) omega dt)) :=
    halpha.fmul hgyro (by norm_num) (by norm_num) (by norm_num)
  have hright : AtMost 1117 (fmul (fsub one (alphaOf p dt)) a) :=
    (atMost_one_sub halpha).fmul (atMost_of_inTurn ha) (by norm_num) (by norm_num) (by norm_num)
  exact normDomain_of_atMost (hleft.fadd hright (by norm_num) (by norm_num)) (by norm_num)

theorem compFilterProcess_completes {p : Params} (htau : tauLegal p.tau = true) {c a omega dt : F64}
    (hc : inTurn c = true) (ha : inTurn a = true) (homega : AtMost 1084 omega) (hdt : AtMost 1106 dt)
    (h0 : 0 ≤ fval dt) : ∃ r, compFilterProcess p c a omega dt = .ok r :=
  formatRange0to2PI_ok (normDomain_filterBlend htau hc ha homega hdt h0)

/-! ### A frame -/

theorem filterStep_later {p : Params} {cX cY newX newY dt : F64} {a gs : Vec3}
    (hx : compFilterProcess p cX (accAngleOfX p a) (omegaX gs) dt = .ok newX)
    (hy : compFilterProcess p cY (accAngleOfY p a) (omegaY gs) dt = .ok newY) :
    filterStep p false cX cY a gs dt = .ok ⟨newX, newY, accAngleOfX p a, accAngleOfY p a⟩ := by
  simp only [filterStep, hx, hy, Bool.false_eq_true, if_false]

/-- In a safe block the filter completes: a first frame seeds, and a later one finds comp angles in range. -/
theorem frameFilter_completes {p : Params} (hp : legalParams p) (w : FrameWords) (prev : BitVec 32) {b : Block}
    (hs : safeBlock p b) : ∃ o, frameFilter p (scaleFrame p (decodeFrame w) prev) b = .ok o := by
  obtain ⟨_, hfirst, _, hvalid⟩ := hs
  cases hb : b.first with
  | true =>
    rw [frameFilter, hb]
    exact ⟨_, filterStep_first ..⟩
  | false =>
    have hv : b.valid = true := by
      by_contra h
      rw [hfirst (by simpa using h)] at hb
      cases hb
    obtain ⟨hcx, hcy, _⟩ := hvalid hv
    obtain ⟨hax, hay⟩ := frame_accAngle_inTurn hp w
    obtain ⟨hgx, hgy, _⟩ := decodeFrame_gyro_natAbs_le w
    obtain ⟨hdt, h0⟩ := dtOf_bounds (deltaTicks (decodeFrame w).timestamp prev)
    rw [← scaleFrame_dt p] at hdt h0
    rw [← scaleFrame_accSI p _ prev] at hax hay
    have hox := (atMost_gyroSI hp hgy).fneg
    have hoy := atMost_gyroSI hp hgx
    rw [← scaleFrame_omegaX p _ prev] at hox
    rw [← scaleFrame_omegaY p _ prev] at hoy
    obtain ⟨newX, hx⟩ := compFilterProcess_completes hp.1 hcx hax hox hdt h0
    obtain ⟨newY, hy⟩ := compFilterProcess_completes hp.1 hcy hay hoy hdt h0
    rw [frameFilter, hb]
    exact ⟨_, filterStep_later hx hy⟩

theorem processFrame_of_filter {p : Params} {w : FrameWords} {b : Block} {o : FilterOut}
    (h : frameFilter p (scaleFrame p (decodeFrame w) b.prevTs) b = .ok o) : ∃ b', processFrame p w b = .ok b' := by
  simp [processFrame, h]

theorem takeFrame_completes {p : Params} (hp : legalParams p) {b : Block} (hlen : frameLen ≤ b.fifo.length)
    (hs : safeBlock p b) : ∃ b', takeFrame p b = .ok b' := by
  obtain ⟨w, _, he⟩ := takeFrame_eq (p := p) hlen
  obtain ⟨hfifo, hrest⟩ := hs
  have hdrop : safeBlock p { b with fifo := b.fifo.drop 19 } :=
    ⟨(List.drop_sublist _ _).length_le.trans hfifo, hrest⟩
  obtain ⟨o, ho⟩ := frameFilter_completes hp w b.prevTs hdrop
  rw [he]
  exact processFrame_of_filter ho

theorem stepFrame_completes {p : Params} (hp : legalParams p) {b : Block} (hs : safeBlock p b) :
    ∃ b', stepFrame p b = .ok b' := by
  rcases Nat.lt_or_ge b.fifo.length frameLen with hlt | hge
  · exact ⟨b, stepFrame_of_lt hlt⟩
  · rw [stepFrame_of_le hge]
    exact takeFrame_completes hp hge hs

theorem takeFrames_completes {p : Params} (hp : legalParams p) {n : Nat} {b : Block}
    (hlen : n * frameLen ≤ b.fifo.length) (hs : safeBlock p b) : ∃ b', takeFrames p n b = .ok b' := by
  induction n generalizing b with
  | zero => exact ⟨b, rfl⟩
  | succ n ih =>
    rw [Nat.add_mul, Nat.one_mul] at hlen
    have hone : frameLen ≤ b.fifo.length := le_of_add_le_right hlen
    obtain ⟨c, hc⟩ := takeFrame_completes hp hone hs
    rw [takeFrames_succ_ok n hc]
    refine ih ?_ (takeFrame_safe hp hone hs hc)
    rw [takeFrame_fifo hone hc, List.length_drop]
    exact Nat.le_sub_of_add_le hlen

theorem drainFrames_completes {p : Params} (hp : legalParams p) {b : Block} (hs : safeBlock p b) :
    ∃ b', drainFrames p b = .ok b' :=
  takeFrames_completes hp (Nat.div_mul_le_self _ _) hs

/-! ### A transaction -/

theorem finish_completes {r : Except Fault Block} (h : ∃ b, r = .ok b) (s : State) : ∃ t, finish r s = .next t := by
  obtain ⟨b, rfl⟩ := h
  exact ⟨_, rfl⟩

/-- In a safe state STEP and DRAIN complete. -/
theorem exec_frames_completes {i : Instr} {s : State} (hi : i = .step ∨ i = .drain) (hs : Inv s) :
    ∃ t, exec i s = .next t := by
  obtain rfl | rfl := hi
  · exact finish_completes (stepFrame_completes legal_machineParams hs) s
  · exact finish_completes (drainFrames_completes legal_machineParams hs) s

/-- The one fault a safe state leaves is `UnwrittenRead`. -/
theorem exec_fault_of_inv {i : Instr} {s : State} {e : Fault} (hs : Inv s) (h : exec i s = .fault e) :
    e = .unwrittenRead := by
  obtain ⟨he, _⟩ | ⟨_, hi⟩ := exec_fault h
  · exact he
  · obtain ⟨t, ht⟩ := exec_frames_completes hi hs
    rw [ht] at h
    cases h

end Sys2Proof.Machine
end

section
/-! ## Hardware takes every transaction (20_memory.md rules R71 and R72) -/

namespace Sys2Proof.Machine

theorem encode_w_of_mem_outputReads {b : Block} {r : Instr × F64} (h : r ∈ outputReads b) :
    (encode r.1).w = false := by
  simp only [outputReads, List.mem_cons, List.not_mem_nil, or_false] at h
  rcases h with rfl | rfl | rfl | rfl | rfl | rfl | rfl | rfl | rfl | rfl <;> exact encodeRead_w _

theorem hardwareNext_answers {i : Instr} {s t : State} (h : hardwareNext i s t) : Answers i s t := by
  obtain hexec | ⟨hfault, v, rfl⟩ := h
  · exact exec_answers hexec
  · obtain ⟨_, _, r, hr, rfl⟩ | ⟨hnorm, _⟩ := exec_fault hfault
    · exact answers_respond v s (encode_w_of_mem_outputReads hr)
    · cases hnorm

theorem hardwareNext_keeps_inv {i : Instr} {s t : State} (hs : Inv s) (h : hardwareNext i s t) : Inv t := by
  obtain hexec | ⟨_, v, rfl⟩ := h
  · exact exec_keeps_inv hs hexec
  · exact hs

/-- In a safe state hardware goes on from every instruction: the one fault there is that of a guarded read. -/
theorem hardwareNext_exists {s : State} (hs : Inv s) (i : Instr) : ∃ t, hardwareNext i s t := by
  cases h : exec i s with
  | next t => exact ⟨t, .inl h⟩
  | fault e =>
    obtain rfl := exec_fault_of_inv hs h
    exact ⟨respond 0 s, .inr ⟨h, 0, rfl⟩⟩
  | refused r => exact absurd h (exec_ne_refused i s r)

theorem hardwareStep_of_step {s t : State} (h : step s = .next t) : hardwareStep s t := by
  obtain ⟨hp, rfl⟩ | ⟨pw, rest, hp, hexec⟩ := step_inv h
  · exact (hardwareStep_idle hp).mpr rfl
  · exact (hardwareStep_cons hp).mpr (hardwareNext_of_exec hexec)

theorem hardwareStep_exists {s : State} (hs : Inv s) : ∃ t, hardwareStep s t := by
  cases hp : s.port.pending with
  | nil => exact ⟨s, (hardwareStep_idle hp).mpr rfl⟩
  | cons pw rest =>
    obtain ⟨t, ht⟩ := hardwareNext_exists (s := s.withPending rest) hs (decode pw)
    exact ⟨t, (hardwareStep_cons hp).mpr ht⟩

theorem hardwareStep_keeps_inv {s t : State} (hs : Inv s) (h : hardwareStep s t) : Inv t := by
  cases hp : s.port.pending with
  | nil => rwa [(hardwareStep_idle hp).mp h]
  | cons pw rest => exact hardwareNext_keeps_inv (s := s.withPending rest) hs ((hardwareStep_cons hp).mp h)

/-- Settles O58: a safe state leaves no fault but that of a guarded read, where hardware returns a pattern. -/
theorem hardwareTransactionsNeverFail : Obligations.HardwareTransactionsNeverFail := by
  refine ⟨fun s t => hardwareStep_of_step, fun s hs =>
    ⟨hardwareStep_exists hs, fun t h => ⟨hardwareStep_keeps_inv hs h, fun pw rest hp => ?_⟩⟩⟩
  obtain ⟨hpending, hresponse⟩ := hardwareNext_answers ((hardwareStep_cons hp).mp h)
  rw [encode_decode_w] at hresponse
  exact ⟨hpending, hresponse⟩

end Sys2Proof.Machine
end

section
/-! ## Decoding and the opcode table (30_encoding.md rules R90 to R98) -/

namespace Sys2Proof

open Laws.EncodeInRow (index_matches direction_matches command_matches)

/-- Settles O2, by `decode_encode`. -/
theorem decodeOfEncodeIsTheInstruction : Obligations.DecodeOfEncodeIsTheInstruction := fun _ => decode_encode

/-- Settles O1: the decoder is evaluated on each word. -/
theorem specPortWordsDecode : Obligations.SpecPortWordsDecode :=
  ⟨rfl, rfl, rfl, rfl, rfl, rfl, rfl, rfl, rfl, rfl, rfl, rfl, rfl, rfl, rfl⟩

/-! ### What a port word decodes to -/

/-- The five legal command words (rule R97). -/
theorem legalCommand_cases {d : Data} (h : legalCommand d = true) : d = 0 ∨ d = 1 ∨ d = 2 ∨ d = 3 ∨ d = 4 := by
  have hd : d.toNat ≤ 4 := by simpa [legalCommand] using h
  bv_omega

/-- The four indices that take a write (rule R93). -/
theorem takesWrite_cases {a : RegIndex} (h : ignoresWrite a = false) : a = 0 ∨ a = 1 ∨ a = 2 ∨ a = 3 := by
  have ha : a.toNat < 4 := by simpa [ignoresWrite] using h
  bv_omega

/-- The fallback `RD.RSV` is taken at reserved indices only (rule R95). -/
theorem decodeRead_wf (a : RegIndex) : (decodeRead a).wf = true := by
  revert a
  decide

theorem decodeCommand_wf (d : Data) : (decodeCommand d).wf = true := by
  cases h : legalCommand d with
  | false => simp [decodeCommand_of_illegal h, Instr.wf, h]
  | true => obtain rfl | rfl | rfl | rfl | rfl := legalCommand_cases h <;> rfl

theorem decodeWrite_wf (a : RegIndex) (d : Data) : (decodeWrite a d).wf = true := by
  cases h : ignoresWrite a with
  | true => rwa [decodeWrite_of_ignored d h]
  | false =>
    obtain rfl | rfl | rfl | rfl := takesWrite_cases h
    · exact decodeCommand_wf d
    all_goals rfl

theorem decode_wf (pw : PortWord) : (decode pw).wf = true := by
  unfold decode
  cases pw.w with
  | true => exact decodeWrite_wf ..
  | false => exact decodeRead_wf _

theorem encode_decodeRead (a : RegIndex) : encode (decodeRead a) = encodeRead a := by
  unfold decodeRead
  split
  case h_17 => rfl
  all_goals
    rename_i ha
    exact congrArg encodeRead (BitVec.eq_of_toNat_eq ha.symm)

theorem encode_decodeCommand (d : Data) : encode (decodeCommand d) = portWord true 0 d := by
  cases h : legalCommand d with
  | false => rw [decodeCommand_of_illegal h, encode]
  | true => obtain rfl | rfl | rfl | rfl | rfl := legalCommand_cases h <;> rfl

theorem encode_decodeWrite (a : RegIndex) (d : Data) : encode (decodeWrite a d) = portWord true a d := by
  cases h : ignoresWrite a with
  | true => rw [decodeWrite_of_ignored d h, encode]
  | false =>
    obtain rfl | rfl | rfl | rfl := takesWrite_cases h
    · exact encode_decodeCommand d
    all_goals rfl

theorem decode_of_write {pw : PortWord} (h : pw.w = true) : decode pw = decodeWrite pw.a pw.d := if_pos h

theorem decode_of_read {pw : PortWord} (h : pw.w = false) : decode pw = decodeRead pw.a := by simp [decode, h]

/-- A write loses nothing by decoding. -/
theorem encode_decode_of_write {pw : PortWord} (h : pw.w = true) : encode (decode pw) = pw := by
  rw [decode_of_write h, encode_decodeWrite, ← h, portWord_fields]

/-- A read loses its `D` (log entry 19). -/
theorem encode_decode_of_read {pw : PortWord} (h : pw.w = false) : encode (decode pw) = portWord false pw.a 0 := by
  rw [decode_of_read h, encode_decodeRead, encodeRead]

/-- Settles O4, from the direction of the transaction. -/
theorem everyPortWordIsTheCodeOfItsInstruction : Obligations.EveryPortWordIsTheCodeOfItsInstruction :=
  fun pw => ⟨decode_wf pw, encode_decode_of_write, encode_decode_of_read⟩

/-! ### The row of a decoded instruction -/

/-- Every instruction stands for a row of the table, whatever its operands. -/
theorem rowOf_mem_opcodeTable (i : Instr) : rowOf i ∈ opcodeTable := by
  cases i with
  | rdCmd | rdStatus | rdConfig | rdFifoData | rdFifoCount | rdIntegAngle | rdGyroX | rdGyroY | rdGyroZ | rdAccelX
  | rdAccelY | rdAccelZ | rdAccAngleX | rdAccAngleY | rdCompAngleX | rdCompAngleY | nop | start | reset | step
  | drain => exact List.mem_map_of_mem (by decide)
  | wrStatus => exact List.mem_map_of_mem (f := rowOf) (a := Instr.wrStatus 0) (by decide)
  | wrConfig => exact List.mem_map_of_mem (f := rowOf) (a := Instr.wrConfig 0) (by decide)
  | wrFifoData => exact List.mem_map_of_mem (f := rowOf) (a := Instr.wrFifoData 0) (by decide)
  | cmdIllegal => exact List.mem_map_of_mem (f := rowOf) (a := Instr.cmdIllegal 5) (by decide)
  | rdRsv => exact List.mem_map_of_mem (f := rowOf) (a := Instr.rdRsv 5) (by decide)
  | wrIgn => exact List.mem_map_of_mem (f := rowOf) (a := Instr.wrIgn 4 0) (by decide)

/-- The code of an instruction selects its row (rule R90). -/
theorem rowOf_matches_encode (i : Instr) : (rowOf i).matches (encode i) = true := by
  cases i with
  | rdCmd | rdStatus | rdConfig | rdFifoData | rdFifoCount | rdIntegAngle | rdGyroX | rdGyroY | rdGyroZ | rdAccelX
  | rdAccelY | rdAccelZ | rdAccAngleX | rdAccAngleY | rdCompAngleX | rdCompAngleY | wrStatus | wrConfig
  | wrFifoData | cmdIllegal => exact index_matches ..
  | nop | start | reset | step | drain => exact command_matches ..
  | rdRsv | wrIgn => exact direction_matches ..

/-- A read at an index that is not reserved is decoded to the row of that index (rule R93). -/
theorem rowOf_decodeRead_of_exact {a : RegIndex} (h : reservedIndex a = false) :
    rowOf (decodeRead a) = indexRow (rowOf (decodeRead a)).mnemonic false a := by
  revert a
  decide

/-- A legal command is decoded to a row fixed by all 70 bits (rule R97). -/
theorem rowOf_decodeCommand_of_legal {d : Data} (h : legalCommand d = true) :
    ∃ m op, rowOf (decodeCommand d) = commandRow m op := by
  obtain rfl | rfl | rfl | rfl | rfl := legalCommand_cases h
  exacts [⟨_, _, rfl⟩, ⟨_, _, rfl⟩, ⟨_, _, rfl⟩, ⟨_, _, rfl⟩, ⟨_, _, rfl⟩]

theorem rowOf_decodeRead_matches (a : RegIndex) (d : Data) :
    (rowOf (decodeRead a)).matches (portWord false a d) = true := by
  cases h : reservedIndex a with
  | true =>
    rw [decodeRead_of_reserved h]
    exact direction_matches ..
  | false =>
    rw [rowOf_decodeRead_of_exact h]
    exact index_matches ..

/-- The row a port word is decoded to matches it. -/
theorem rowOf_decode_matches (pw : PortWord) : (rowOf (decode pw)).matches pw = true := by
  cases hw : pw.w with
  | true =>
    have h := rowOf_matches_encode (decode pw)
    rwa [encode_decode_of_write hw] at h
  | false =>
    rw [← portWord_fields pw, hw, decode_portWord_read]
    exact rowOf_decodeRead_matches ..

/-! ### The port words a row matches -/

theorem portWord_of_indexRow_matches {m : String} {w : Bool} {a : RegIndex} {pw : PortWord}
    (h : (indexRow m w a).matches pw = true) : pw = portWord w a pw.d := by
  have hand : portWord pw.w pw.a 0 = portWord w a 0 := by
    rw [← portWord_and_indexMask _ _ pw.d, portWord_fields]
    exact beq_iff_eq.mp h
  have hw : pw.w = w := by simpa using congrArg PortWord.w hand
  have ha : pw.a = a := by simpa using congrArg PortWord.a hand
  rw [← hw, ← ha, portWord_fields]

theorem portWord_of_directionRow_matches {m : String} {w : Bool} {pw : PortWord}
    (h : (directionRow m w).matches pw = true) : pw = portWord w pw.a pw.d := by
  have hand : portWord pw.w 0 0 = portWord w 0 0 := by
    rw [← portWord_and_directionMask _ pw.a pw.d, portWord_fields]
    exact beq_iff_eq.mp h
  have hw : pw.w = w := by simpa using congrArg PortWord.w hand
  rw [← hw, portWord_fields]

theorem encodeCommand_of_commandRow_matches {m : String} {op : BitVec 4} {pw : PortWord}
    (h : (commandRow m op).matches pw = true) : pw = encodeCommand op :=
  (BitVec.and_allOnes (x := pw)).symm.trans (beq_iff_eq.mp h)

/-! ### How specific a row is (rule R92) -/

@[simp] theorem maskBits_directionRow (m : String) (w : Bool) : (directionRow m w).maskBits = 1 := by
  simp only [OpcodeRow.maskBits, directionRow]
  decide

@[simp] theorem maskBits_indexRow (m : String) (w : Bool) (a : RegIndex) : (indexRow m w a).maskBits = 6 := by
  simp only [OpcodeRow.maskBits, indexRow]
  decide

@[simp] theorem maskBits_commandRow (m : String) (op : BitVec 4) : (commandRow m op).maskBits = 70 := by
  simp only [OpcodeRow.maskBits, commandRow]
  decide

/-- `r` stands aside for `r'`: it is the same row, or has fewer mask bits. -/
def OpcodeRow.yields (r r' : OpcodeRow) : Prop := r = r' ∨ r.maskBits < r'.maskBits

/-- The fallback of the reads yields to the row of every read. -/
theorem readFallback_yields (a b : RegIndex) : (rowOf (.rdRsv b)).yields (rowOf (decodeRead a)) := by
  cases h : reservedIndex a with
  | true => exact .inl (congrArg rowOf (decodeRead_of_reserved h)).symm
  | false =>
    right
    rw [rowOf_decodeRead_of_exact h]
    simp [rowOf]

/-- The fallback of the commands yields to the row of every command word. -/
theorem commandFallback_yields (d e : Data) : (rowOf (.cmdIllegal e)).yields (rowOf (decodeCommand d)) := by
  cases h : legalCommand d with
  | false => exact .inl (congrArg rowOf (decodeCommand_of_illegal h)).symm
  | true =>
    obtain ⟨m, op, hm⟩ := rowOf_decodeCommand_of_legal h
    right
    rw [hm]
    simp [rowOf]

/-- The fallback of the writes yields to the row of every write, by way of `CMD.ILLEGAL` at index 0. -/
theorem writeFallback_yields (a b : RegIndex) (d e : Data) : (rowOf (.wrIgn b e)).yields (rowOf (decodeWrite a d)) := by
  cases h : ignoresWrite a with
  | true => exact .inl (congrArg rowOf (decodeWrite_of_ignored d h)).symm
  | false =>
    right
    obtain rfl | rfl | rfl | rfl := takesWrite_cases h
    · have hlt : (rowOf (.wrIgn b e)).maskBits < (rowOf (.cmdIllegal d)).maskBits := by simp [rowOf]
      obtain heq | hgt := commandFallback_yields d d
      · exact heq ▸ hlt
      · exact hlt.trans hgt
    all_goals simp [decodeWrite, rowOf]

/-- A row that matches yields to the row the port word is decoded to. -/
theorem rowOf_yields_of_matches {i : Instr} {pw : PortWord} (h : (rowOf i).matches pw = true) :
    (rowOf i).yields (rowOf (decode pw)) := by
  cases i with
  | rdCmd | rdStatus | rdConfig | rdFifoData | rdFifoCount | rdIntegAngle | rdGyroX | rdGyroY | rdGyroZ | rdAccelX
  | rdAccelY | rdAccelZ | rdAccAngleX | rdAccAngleY | rdCompAngleX | rdCompAngleY =>
    rw [portWord_of_indexRow_matches h, decode_portWord_read]
    exact .inl rfl
  | wrStatus | wrConfig | wrFifoData =>
    rw [portWord_of_indexRow_matches h, decode_portWord_write]
    exact .inl rfl
  | nop | start | reset | step | drain =>
    rw [encodeCommand_of_commandRow_matches h]
    exact .inl rfl
  | cmdIllegal e =>
    rw [portWord_of_indexRow_matches h, decode_portWord_write]
    exact commandFallback_yields _ e
  | rdRsv b =>
    rw [portWord_of_directionRow_matches h, decode_portWord_read]
    exact readFallback_yields _ b
  | wrIgn b e =>
    rw [portWord_of_directionRow_matches h, decode_portWord_write]
    exact writeFallback_yields _ b _ e

/-- The masks of the table, each inside the next: `W`; `W` and `A`; all 70 bits. -/
def tableMasks : List PortWord := [0x200000000000000000, 0x3F0000000000000000, 0x3FFFFFFFFFFFFFFFFF]

theorem mask_mem_tableMasks : ∀ r ∈ opcodeTable, r.mask ∈ tableMasks := by decide

theorem tableMasks_nested : ∀ m ∈ tableMasks, ∀ m' ∈ tableMasks, m &&& m' = m ∨ m' &&& m = m' := by
  simp [tableMasks]

/-- Settles O3: a matching row yields to the decoded one, and the masks of the table form a chain. -/
theorem decodeSelectsTheMostSpecificRow : Obligations.DecodeSelectsTheMostSpecificRow := by
  refine fun pw => ⟨rowOf_mem_opcodeTable _, rowOf_decode_matches pw, fun r hr hm hne => ?_,
    fun r hr r' hr' _ _ => tableMasks_nested _ (mask_mem_tableMasks r hr) _ (mask_mem_tableMasks r' hr'), by decide⟩
  obtain ⟨i, _, rfl⟩ := List.mem_map.mp hr
  exact (rowOf_yields_of_matches hm).resolve_left hne

end Sys2Proof
end

section
/-! ## What DRAIN leaves (30_encoding.md rule R102, 70_reset_and_hazards.md rule R289) -/

namespace Sys2Proof.Machine

open Sys2Proof.Config

/-- Frames that complete take their words from the head of the FIFO. -/
theorem takeFrames_fifo {p : Params} {n : Nat} {b b' : Block} (hlen : n * frameLen ≤ b.fifo.length)
    (h : takeFrames p n b = .ok b') : b'.fifo = b.fifo.drop (n * frameLen) := by
  induction n generalizing b with
  | zero =>
    cases h
    simp
  | succ n ih =>
    obtain ⟨c, hc, hrest⟩ := takeFrames_succ_inv h
    rw [Nat.succ_mul] at hlen ⊢
    have hfifo : c.fifo = b.fifo.drop frameLen := takeFrame_fifo (le_of_add_le_right hlen) hc
    have hclen : n * frameLen ≤ c.fifo.length := by
      rw [hfifo, List.length_drop]
      exact Nat.le_sub_of_add_le hlen
    rw [ih hclen hrest, hfifo, List.drop_drop, Nat.add_comm]

theorem drainFrames_fifo {p : Params} {b b' : Block} (h : drainFrames p b = .ok b') :
    b'.fifo = b.fifo.drop (b.fifo.length - b.fifo.length % frameLen) := by
  rw [← Nat.div_mul_self_eq_mod_sub_self]
  exact takeFrames_fifo (Nat.div_mul_le_self _ _) h

/-- Settles O21: DRAIN drops whole frames from the head of the FIFO. -/
theorem drainLeavesTheRemainder : Obligations.DrainLeavesTheRemainder := by
  intro s t h
  have hinc : s.block.fifo.length < frameLen → t.block = s.block := fun hlt => by
    rw [exec_of_incomplete_frame (.inr rfl) hlt] at h
    cases h
    rfl
  obtain ⟨b, hb, rfl⟩ := finish_next h
  have hfifo : b.fifo = s.block.fifo.drop (s.block.fifo.length - s.block.fifo.length % 19) := drainFrames_fifo hb
  refine ⟨hfifo, ?_, hinc⟩
  have hmod : s.block.fifo.length % 19 ≤ s.block.fifo.length := Nat.mod_le _ _
  rw [commit_block, hfifo, List.length_drop, Nat.sub_sub_self hmod]

end Sys2Proof.Machine
end

section
/-! ## The fields of a frame (30_encoding.md rule R101, 20_memory.md rules R79 and R80) -/

namespace Sys2Proof.Machine

/-- A slot's byte is the word's value below 256 (rule R80). -/
@[simp] theorem slotByte_toNat (w : FifoWord) : (slotByte w).toNat = w.toNat % 256 := by
  simp [slotByte]

/-- Appending a slot's byte makes it the least significant (rule R79). -/
@[simp] theorem append_slotByte_toNat {n : Nat} (x : BitVec n) (w : FifoWord) :
    (x ++ slotByte w).toNat = x.toNat * 256 + w.toNat % 256 := by
  rw [BitVec.toNat_append, ← Nat.shiftLeft_add_eq_or_of_lt (slotByte w).isLt, Nat.shiftLeft_eq, slotByte_toNat]

theorem sint16_eq_bmod (b1 b0 : FifoWord) :
    sint16 b1 b0 = Int.bmod (b1.toNat % 256 * 256 + b0.toNat % 256 : Nat) (2 ^ 16) := by
  rw [sint16, BitVec.toInt_eq_toNat_bmod, append_slotByte_toNat, slotByte_toNat]

theorem sint32_eq_bmod (b3 b2 b1 b0 : FifoWord) :
    sint32 b3 b2 b1 b0 =
      Int.bmod (((b3.toNat % 256 * 256 + b2.toNat % 256) * 256 + b1.toNat % 256) * 256 + b0.toNat % 256 : Nat)
        (2 ^ 32) := by
  rw [sint32, BitVec.toInt_eq_toNat_bmod, append_slotByte_toNat, append_slotByte_toNat, append_slotByte_toNat,
    slotByte_toNat]

/-- Settles O27: each field is read by `sint16` or `sint32`. -/
theorem frameFieldsAreBigEndianBytes : Obligations.FrameFieldsAreBigEndianBytes :=
  fun _ => ⟨rfl, sint32_eq_bmod .., sint16_eq_bmod .., sint16_eq_bmod .., sint16_eq_bmod .., sint16_eq_bmod ..,
    sint16_eq_bmod .., sint16_eq_bmod ..⟩

end Sys2Proof.Machine
end

section
/-! ## The timestamp difference (41_sensor_scaler.md rule R156) -/

namespace Sys2Proof.Machine

/-- Settles O48: `ts - prev` of words is `2^32 - prev + ts` modulo `2^32`, so the borrow is a whole `2^32`. -/
theorem ticksWrapModulo2To32 : Obligations.TicksWrapModulo2To32 := by
  intro ts prev
  have hborrow : ((2 ^ 32 - prev.toNat + ts.toNat : Nat) : Int) = (ts.toNat : Int) - prev.toNat + 2 ^ 32 := by
    have := prev.isLt
    omega
  calc ((deltaTicks ts prev).toNat : Int)
    _ = ((2 ^ 32 - prev.toNat + ts.toNat : Nat) : Int) % 2 ^ 32 := by
      rw [deltaTicks, BitVec.toNat_sub, Int.natCast_emod, Nat.cast_pow, Nat.cast_ofNat]
    _ = ((ts.toNat : Int) - prev.toNat) % 2 ^ 32 := by rw [hborrow, Int.add_emod_right]

end Sys2Proof.Machine
end

section
/-! ## STEP with a frame buffered (42_angle_integrator.md rule R182, 44_commands.md rules R133 and R140) -/

namespace Sys2Proof.Machine

open Sys2Proof.Config

@[simp] theorem decodeFrame_timestamp (w : FrameWords) : (decodeFrame w).timestamp = w[0] := rfl

theorem scaleFrame_ticks (p : Params) (f : DecodedFrame) (prev : BitVec 32) :
    (scaleFrame p f prev).ticks = deltaTicks f.timestamp prev := by
  rw [scaleFrame]

theorem scaleFrame_gs (p : Params) (f : DecodedFrame) (prev : BitVec 32) :
    (scaleFrame p f prev).gs = gyroSIVec p (gyroDeg f) := by
  rw [scaleFrame]

section
variable (p : Params) (f : DecodedFrame) (sc : ScaledFrame) (b : Block) (fifo : List FifoWord)

/-- Neither part of a frame step reads the FIFO. -/
theorem frameInteg_fifo : frameInteg p f sc { b with fifo := fifo } = frameInteg p f sc b := rfl
theorem frameFilter_fifo : frameFilter p sc { b with fifo := fifo } = frameFilter p sc b := rfl

end

/-- STEP with a frame buffered publishes what the frame's 19 words give, when the filter completes on them. -/
theorem exec_step_publishes {s : State} (hlen : frameLen ≤ s.block.fifo.length)
    (hfilter : ∀ w : FrameWords, ∃ o,
      frameFilter machineParams (scaleFrame machineParams (decodeFrame w) s.block.prevTs) s.block = .ok o) :
    ∃ (w : FrameWords) (o : FilterOut) (t : State), w.toList = s.block.fifo.take 19 ∧ exec .step s = .next t ∧
      frameFilter machineParams (scaleFrame machineParams (decodeFrame w) s.block.prevTs) s.block = .ok o ∧
      t.block.integAngle = frameInteg machineParams (decodeFrame w)
        (scaleFrame machineParams (decodeFrame w) s.block.prevTs) s.block ∧
      t.block.compX = o.compX ∧ t.block.compY = o.compY ∧
      t.block.prevTs = w[0] ∧ t.block.first = false ∧ t.block.valid = true ∧
      t.block.fifo = s.block.fifo.drop 19 := by
  obtain ⟨w, hw, htake⟩ := takeFrame_eq (p := machineParams) hlen
  obtain ⟨o, ho⟩ := hfilter w
  rw [← frameFilter_fifo _ _ _ (s.block.fifo.drop 19)] at ho
  obtain ⟨b, hb⟩ := processFrame_of_filter ho
  have hstep : exec .step s = .next (commit b s) :=
    congrArg (finish · s) ((stepFrame_of_le hlen).trans (htake.trans hb))
  obtain ⟨o', ho', rfl⟩ := processFrame_ok hb
  refine ⟨w, o', _, hw, hstep, ?_, ?_⟩
  · rwa [frameFilter_fifo] at ho'
  · simp [frameInteg_fifo]

/-! ### A first frame (43_complementary_filter.md rule R200) -/

theorem frameInteg_first {b : Block} (p : Params) (f : DecodedFrame) (sc : ScaledFrame) (h : b.first = true) :
    frameInteg p f sc b = 0 := by
  rw [frameInteg, h, integrate_first]

theorem frameFilter_first {b : Block} (p : Params) (f : DecodedFrame) (prev : BitVec 32) (h : b.first = true) :
    frameFilter p (scaleFrame p f prev) b =
      .ok ⟨accAngleOfX p (accelSIVec p (accelG f)), accAngleOfY p (accelSIVec p (accelG f)),
        accAngleOfX p (accelSIVec p (accelG f)), accAngleOfY p (accelSIVec p (accelG f))⟩ := by
  rw [frameFilter, h, filterStep_first, scaleFrame_accSI]

/-- Settles O25: a first frame seeds, whatever the comp angles were, and does not integrate. -/
theorem stepCompletesOnAFirstFrame : Obligations.StepCompletesOnAFirstFrame := by
  intro s hfirst hlen
  obtain ⟨w, o, t, hw, ht, ho, hinteg, hx, hy, hrest⟩ :=
    exec_step_publishes hlen fun w => ⟨_, frameFilter_first _ _ _ hfirst⟩
  rw [frameInteg_first _ _ _ hfirst] at hinteg
  rw [frameFilter_first _ _ _ hfirst] at ho
  obtain rfl := Except.ok.inj ho
  dsimp only at hx hy
  exact ⟨w, t, hw, ht, hinteg, hx, hy, hrest⟩

/-! ### A later frame (43_complementary_filter.md rules R198 and R201) -/

theorem frameInteg_later {b : Block} (p : Params) (w : FrameWords) (prev : BitVec 32) (h : b.first = false) :
    frameInteg p (decodeFrame w) (scaleFrame p (decodeFrame w) prev) b =
      fadd b.integAngle (scaleDelta p (decodeFrame w).deltaAngleRaw (w[0] - prev)) := by
  rw [frameInteg, h, integrate_later, scaleFrame_ticks, deltaTicks, decodeFrame_timestamp]

/-- A later filter step that completes has normalised the blend of each axis. -/
theorem filterStep_later_inv {p : Params} {cX cY dt : F64} {a gs : Vec3} {o : FilterOut}
    (h : filterStep p false cX cY a gs dt = .ok o) :
    formatRange0to2PI (filterBlend p cX (accAngleOfX p a) (omegaX gs) dt) = .ok o.compX ∧
      formatRange0to2PI (filterBlend p cY (accAngleOfY p a) (omegaY gs) dt) = .ok o.compY := by
  rw [filterStep, if_neg Bool.false_ne_true, compFilterProcess, compFilterProcess] at h
  split at h
  · cases h
  · rename_i hx
    split at h
    · cases h
    · rename_i hy
      cases h
      exact ⟨hx, hy⟩

/-- Settles O26: in a safe state the filter completes, and what it gives is the normalised blend of each axis. -/
theorem stepCompletesOnALaterFrame : Obligations.StepCompletesOnALaterFrame := by
  intro s hs hfirst hlen
  obtain ⟨w, o, t, hw, ht, ho, hinteg, hx, hy, hrest⟩ :=
    exec_step_publishes hlen fun w => frameFilter_completes legal_machineParams w s.block.prevTs hs
  rw [frameInteg_later _ _ _ hfirst] at hinteg
  rw [frameFilter, hfirst] at ho
  obtain ⟨hblendX, hblendY⟩ := filterStep_later_inv ho
  rw [scaleFrame_accSI, scaleFrame_gs, omegaX, scaleFrame_dt, deltaTicks, decodeFrame_timestamp, ← hx] at hblendX
  rw [scaleFrame_accSI, scaleFrame_gs, omegaY, scaleFrame_dt, deltaTicks, decodeFrame_timestamp, ← hy] at hblendY
  exact ⟨w, t, hw, ht, hinteg, hblendX, hblendY, hrest⟩

end Sys2Proof.Machine
end

section
/-! ## The inputs of the integrator and of the filter (42_angle_integrator.md rule R185,
43_complementary_filter.md rule R199) -/

namespace Sys2Proof.Machine

/-- The integrator reads the timestamp and the delta-angle sample of a frame, no other field. -/
theorem frameInteg_congr (p : Params) (prev : BitVec 32) (b : Block) {f f' : DecodedFrame}
    (hts : f.timestamp = f'.timestamp) (hraw : f.deltaAngleRaw = f'.deltaAngleRaw) :
    frameInteg p f (scaleFrame p f prev) b = frameInteg p f' (scaleFrame p f' prev) b := by
  rw [frameInteg, frameInteg, scaleFrame_ticks, scaleFrame_ticks, hts, hraw]

/-- The filter reads its gyro input through the rates of the two axes, never the Z rate (rule R199). -/
theorem filterStep_congr (p : Params) (first : Bool) (cX cY dt : F64) (a : Vec3) {gs gs' : Vec3}
    (hx : omegaX gs = omegaX gs') (hy : omegaY gs = omegaY gs') :
    filterStep p first cX cY a gs dt = filterStep p first cX cY a gs' dt := by
  rw [filterStep, filterStep, hx, hy]

/-- The filter reads the timestamp, the X and Y rates and the accelerations of a frame, no other field. -/
theorem frameFilter_congr (p : Params) (prev : BitVec 32) (b : Block) {f f' : DecodedFrame}
    (hts : f.timestamp = f'.timestamp) (hgx : f.gx = f'.gx) (hgy : f.gy = f'.gy) (hacc : accelG f = accelG f') :
    frameFilter p (scaleFrame p f prev) b = frameFilter p (scaleFrame p f' prev) b := by
  have hx : omegaX (scaleFrame p f prev).gs = omegaX (scaleFrame p f' prev).gs := by
    rw [scaleFrame_omegaX, scaleFrame_omegaX, hgy]
  have hy : omegaY (scaleFrame p f prev).gs = omegaY (scaleFrame p f' prev).gs := by
    rw [scaleFrame_omegaY, scaleFrame_omegaY, hgx]
  rw [frameFilter, frameFilter, filterStep_congr _ _ _ _ _ _ hx hy, scaleFrame_accSI, scaleFrame_accSI, hacc,
    scaleFrame_dt, scaleFrame_dt, hts]

/-- Words 0 and 3 to 6 hold the fields that the integrator reads. -/
theorem decodeFrame_integ_fields {w w' : FrameWords} (h : ∀ k : Fin 19, k.val ∈ [0, 3, 4, 5, 6] → w[k] = w'[k]) :
    (decodeFrame w).timestamp = (decodeFrame w').timestamp ∧
      (decodeFrame w).deltaAngleRaw = (decodeFrame w').deltaAngleRaw := by
  have hword : ∀ (k : Nat) (hk : k < 19), k ∈ [0, 3, 4, 5, 6] → w[k] = w'[k] := fun k hk => h ⟨k, hk⟩
  simp (disch := decide) only [decodeFrame, hword, and_self]

/-- The words outside 1 to 6, 11 and 12 hold the fields that the filter reads. -/
theorem decodeFrame_filter_fields {w w' : FrameWords}
    (h : ∀ k : Fin 19, k.val ∉ [1, 2, 3, 4, 5, 6, 11, 12] → w[k] = w'[k]) :
    (decodeFrame w).timestamp = (decodeFrame w').timestamp ∧ (decodeFrame w).gx = (decodeFrame w').gx ∧
      (decodeFrame w).gy = (decodeFrame w').gy ∧ accelG (decodeFrame w) = accelG (decodeFrame w') := by
  have hword : ∀ (k : Nat) (hk : k < 19), k ∉ [1, 2, 3, 4, 5, 6, 11, 12] → w[k] = w'[k] := fun k hk => h ⟨k, hk⟩
  simp (disch := decide) only [decodeFrame, accelG, hword, and_self]

/-- Settles O29: the words named decode to the fields that each of the two reads. -/
theorem integratorAndFilterUseSeparateChannels : Obligations.IntegratorAndFilterUseSeparateChannels := by
  intro p w w' b c c' h h'
  obtain ⟨o, ho, rfl⟩ := processFrame_ok h
  obtain ⟨o', ho', rfl⟩ := processFrame_ok h'
  simp only [publish_integAngle, publish_compX, publish_compY]
  refine ⟨fun hw => ?_, fun hw => ?_⟩
  · obtain ⟨hts, hraw⟩ := decodeFrame_integ_fields hw
    exact frameInteg_congr p b.prevTs b hts hraw
  · obtain ⟨hts, hgx, hgy, hacc⟩ := decodeFrame_filter_fields hw
    rw [frameFilter_congr p b.prevTs b hts hgx hgy hacc] at ho
    obtain rfl := Except.ok.inj (ho.symm.trans ho')
    exact ⟨rfl, rfl⟩

end Sys2Proof.Machine
end

section
/-! ## Who writes the integrated angle (42_angle_integrator.md rule R183) -/

namespace Sys2Proof.Machine

theorem fifoPush_integAngle (p : Params) (w : FifoWord) (b : Block) :
    (fifoPush p w b).integAngle = b.integAngle := by
  rcases fifoPush_cases p w b with ⟨_, he⟩ | ⟨_, he⟩ <;> rw [he]
  exact setOvf_integAngle b

/-- An instruction that processes no frame and is neither START nor RESET leaves the integrated angle alone. -/
theorem exec_integAngle_of_no_frame {i : Instr} {s t : State} (hstart : i ≠ .start) (hreset : i ≠ .reset)
    (hp : processesFrame i s.block = false) (h : exec i s = .next t) :
    t.block.integAngle = s.block.integAngle := by
  cases i with
  | rdCmd | rdStatus | rdConfig | rdFifoData | rdFifoCount | rdIntegAngle | rdRsv | nop | wrIgn | wrStatus
  | wrConfig | cmdIllegal =>
    cases h
    rfl
  | rdGyroX | rdGyroY | rdGyroZ | rdAccelX | rdAccelY | rdAccelZ | rdAccAngleX | rdAccAngleY | rdCompAngleX
  | rdCompAngleY => rw [block_of_readOutput_next h]
  | wrFifoData d =>
    cases h
    exact fifoPush_integAngle _ _ _
  | start => exact absurd rfl hstart
  | reset => exact absurd rfl hreset
  | step => rw [block_of_incomplete_frame (.inl rfl) hp h]
  | drain => rw [block_of_incomplete_frame (.inr rfl) hp h]

/-- Settles O32: START and RESET write `+0.0`, and no other instruction without a frame writes the angle. -/
theorem onlyFramesStartAndResetWriteTheIntegratedAngle :
    Obligations.OnlyFramesStartAndResetWriteTheIntegratedAngle := by
  intro i s t h
  refine ⟨?_, fun hstart hreset hp => exec_integAngle_of_no_frame hstart hreset hp h⟩
  rintro (rfl | rfl) <;> cases h <;> rfl

end Sys2Proof.Machine
end

section
/-! ## A delta with equal timestamps (42_angle_integrator.md rule R181) -/

namespace Sys2Proof.Machine

/-- Adding a zero of either sign changes no value. -/
theorem fval_fadd_of_isZero {x z : F64} (hx : isFinite x = true) (hz : isZero z = true) :
    fval (fadd x z) = fval x := by
  have hzf := isFinite_of_isZero hz
  have hsum : fval x + fval z = fval x := by rw [fval_of_isZero hz, add_zero]
  exact le_antisymm (fval_fadd_le hx hzf hx hsum.le) (le_fval_fadd hx hzf hx hsum.ge)

theorem refRate_pos {x : F64} (h : refRateLegal x = true) : isFinite x = true ∧ fsign x = false := by
  rw [refRateLegal, Bool.and_eq_true] at h
  exact finite_pos_of_between (by decide +kernel) (by decide) h.1 h.2

/-- With no ticks between two frames the inner ratio is `+infinity`. -/
theorem ratio_of_no_ticks {x : F64} (h : refRateLegal x = true) : fdiv x (i2f 0) = fpack false infMag := by
  obtain ⟨hf, hs⟩ := refRate_pos h
  obtain ⟨hlow, _⟩ := refRate_bounds h
  have h0 := isZero_of_le_units hlow
  rw [fdiv_zero hf h0 (by decide +kernel), hs, fsign_i2f]
  rfl

/-- With no ticks between two frames the delta is a zero with the sign of the scaled sample. -/
theorem scaleDelta_of_no_ticks {p : Params} (hp : legalParams p) {raw : Int} (hraw : raw.natAbs ≤ 2 ^ 31) :
    scaleDelta p raw 0 = fpack (fsign (fmul (i2f raw) p.deltaAngleSf)) 0 := by
  obtain ⟨_, hsf, hrr, _⟩ := hp
  have hnum : AtMost 1169 (fmul (i2f raw) p.deltaAngleSf) :=
    (atMost_i2f (by norm_num) hraw).fmul (atMost_deltaAngleSf hsf) (by norm_num) (by norm_num) (by norm_num)
  have hinf : isInf (fpack false infMag) = true := by decide
  have hsign : fsign (fpack false infMag) = false := by decide
  calc scaleDelta p raw 0
    _ = fdiv (fmul (i2f raw) p.deltaAngleSf) (fpack false infMag) :=
      congrArg (fdiv _) (ratio_of_no_ticks hrr)
    _ = fpack (fsign (fmul (i2f raw) p.deltaAngleSf)) 0 := by
      rw [(fdiv_inf_finite hinf hnum.1).2, hsign, Bool.bne_false]

/-- Settles O49: the delta is a zero over an infinite ratio, and adding a zero changes no value. -/
theorem equalTimestampsAddNothing : Obligations.EqualTimestampsAddNothing := by
  intro p raw hp hlo hhi
  have hdelta := scaleDelta_of_no_ticks hp (raw := raw) (by omega)
  have hzero : isZero (scaleDelta p raw 0) = true := by
    rw [hdelta, isZero_iff, fmag_fpack _ (by norm_num)]
  refine ⟨hzero, ?_, fun x hx => ?_⟩
  · rw [hdelta, fsign_fpack _ (by norm_num)]
  · rw [integrate_later]
    exact fval_fadd_of_isZero hx hzero

end Sys2Proof.Machine
end

section
/-! ## What the normalisation returns (43_complementary_filter.md rules R197, R203 and R205) -/

namespace Sys2Proof.Machine

theorem formatRange0to2PI_of_normalised {x : F64} (h : normalised x = true) : formatRange0to2PI x = .ok x := by
  obtain ⟨hf, h0, h1⟩ := normalised_iff.mp h
  have hdom : normDomain x = true := normDomain_of_atMost (atMost_of_inTurn (inTurn_of_normalised h)) (by norm_num)
  rw [formatRange0to2PI, if_pos hdom]
  exact normLoop_of_inRange (2 ^ 51 - 1) hf h0 h1

theorem formatRange0to2PI_normalised {x r : F64} (h : formatRange0to2PI x = .ok r) : normalised r = true := by
  unfold formatRange0to2PI at h
  split at h
  · rename_i hdom
    exact normLoop_normalised (atMost_of_normDomain hdom) h
  · cases h

/-- Settles O44: what the loop ends with is in range, and a value in range takes no pass. -/
theorem normalisationEndsInRange : Obligations.NormalisationEndsInRange := by
  refine fun x => ⟨fun hdom => ?_, formatRange0to2PI_of_normalised, fun hdom => by simp [formatRange0to2PI, hdom]⟩
  obtain ⟨r, hr⟩ := formatRange0to2PI_ok hdom
  have hn := formatRange0to2PI_normalised hr
  exact ⟨r, hr, hn, formatRange0to2PI_of_normalised hn⟩

end Sys2Proof.Machine
end

section
/-! ## Fast convergence (43_complementary_filter.md rules R193 and R205) -/

namespace Sys2Proof.Machine

open Sys2Proof.Config

/-! ### The rounding of a sum -/

/-- Below `2 ^ (53 + e)` units some finite value is within `2 ^ e`: the multiple of `2 ^ e` next towards zero. -/
theorem exists_finite_near {e : Nat} {z : Int} (h52 : 52 ≤ e) (hmax : e < 2045) (hz : z.natAbs ≤ 2 ^ (53 + e)) :
    ∃ y, isFinite y = true ∧ |fval y - z| ≤ ((2 ^ e : Nat) : Int) := by
  have hpos := Nat.two_pow_pos e
  have hj : z.natAbs / 2 ^ e ≤ 2 ^ 53 := by
    rw [pow_add] at hz
    exact Nat.div_le_of_le_mul (by rwa [Nat.mul_comm])
  obtain ⟨m, hm⟩ := exists_units_eq hj h52
  have hle := Nat.div_mul_le_self z.natAbs (2 ^ e)
  have hlt := Nat.lt_div_mul_add hpos (a := z.natAbs)
  rw [← hm] at hle hlt
  have hfin : m < infMag := by
    have hm := hle.trans hz
    rw [← units_pow_two (by omega), units_le_iff] at hm
    unfold infMag
    omega
  refine ⟨fpack (decide (z < 0)) m, isFinite_fpack _ hfin, ?_⟩
  rw [fval_fpack _ (hfin.trans (by decide))]
  generalize 2 ^ e = c at *
  simp only [abs_le, decide_eq_true_eq]
  split <;> omega

theorem pow_two_lt_overflowUnits {e : Nat} (h : e ≤ 2044) : 2 ^ (53 + e) < overflowUnits := by
  calc 2 ^ (53 + e) = 2 ^ 53 * 2 ^ e := pow_add 2 53 e
    _ < (2 ^ 54 - 1) * 2 ^ e := Nat.mul_lt_mul_of_pos_right (by norm_num) (Nat.two_pow_pos e)
    _ ≤ overflowUnits := by
      unfold overflowUnits
      gcongr
      norm_num

/-- A sum is within `2 ^ e` of the exact one when that has at most `53 + e` bits. -/
theorem fadd_error_le {a b : F64} {e : Nat} (ha : isFinite a = true) (hb : isFinite b = true) (h52 : 52 ≤ e)
    (hmax : e ≤ 2044) (h : (fval a + fval b).natAbs ≤ 2 ^ (53 + e)) :
    |fval (fadd a b) - (fval a + fval b)| ≤ ((2 ^ e : Nat) : Int) := by
  have hover : (fval a + fval b).natAbs < overflowUnits * 1 := by
    rw [Nat.mul_one]
    exact h.trans_lt (pow_two_lt_overflowUnits hmax)
  obtain ⟨_, hnear⟩ := (fadd_correctlyRounded ha hb).1 hover
  obtain ⟨y, hy, hdist⟩ := exists_finite_near h52 (by omega) h
  have hle := (hnear y hy).1
  rw [Nat.cast_one, one_mul, one_mul] at hle
  exact hle.trans hdist

/-- The error of a sum, from a bound of its operands. -/
theorem fadd_error_of_atMost {a b : F64} {e : Nat} (ha : AtMost (52 + e) a) (hb : AtMost (52 + e) b) (h52 : 52 ≤ e)
    (hmax : e ≤ 2044) : |fval (fadd a b) - (fval a + fval b)| ≤ (2 : Int) ^ e := by
  refine (fadd_error_le ha.1 hb.1 h52 hmax ?_).trans_eq (by rw [Nat.cast_pow, Nat.cast_ofNat])
  calc (fval a + fval b).natAbs ≤ (fval a).natAbs + (fval b).natAbs := Int.natAbs_add_le _ _
    _ ≤ 2 ^ (52 + e) + 2 ^ (52 + e) := by
      rw [natAbs_fval, natAbs_fval]
      exact Nat.add_le_add ha.2 hb.2
    _ = 2 ^ (53 + e) := by rw [show 53 + e = 52 + e + 1 by omega, pow_succ, Nat.mul_two]

/-- Adding two values of at most 8 in magnitude errs by at most `2^-49`, half of what rule R205 is given. -/
theorem fadd_error_of_atMost_eight {a b : F64} (ha : AtMost 1077 a) (hb : AtMost 1077 b) :
    |fval (fadd a b) - (fval a + fval b)| ≤ (2 : Int) ^ 1025 :=
  fadd_error_of_atMost (e := 1025) ha hb (by norm_num) (by norm_num)

/-! ### The shift -/

theorem formatFastConverge_cases (c a : F64) :
    (flt (fadd a pi) c = true ∧ formatFastConverge c a = fsub c twoPi) ∨
    (flt (fadd a pi) c = false ∧ flt (fadd c pi) a = true ∧ formatFastConverge c a = fadd c twoPi) ∨
    (flt (fadd a pi) c = false ∧ flt (fadd c pi) a = false ∧ formatFastConverge c a = c) := by
  rw [formatFastConverge, fgt, fgt]
  cases flt (fadd a pi) c <;> cases flt (fadd c pi) a <;> simp

theorem atMost_twoPi : AtMost 1077 twoPi := by
  have := fval_halfPi_pos
  have := fval_twoPi_eq
  exact atMost_of_inTurn (inTurn_iff.mpr ⟨isFinite_twoPi, by omega, le_rfl⟩)

theorem atMost_pi : AtMost 1077 pi := by
  have := fval_halfPi_pos
  have := fval_pi_eq
  have := fval_twoPi_eq
  exact atMost_of_inTurn (inTurn_iff.mpr ⟨isFinite_pi, by omega, by omega⟩)

/-- Between angles in range the comparison errs by one rounding and the shift by another. -/
theorem formatFastConverge_near {c a : F64} (hc : inTurn c = true) (ha : inTurn a = true) :
    |fval (formatFastConverge c a) - fval a| ≤ fval pi + 2 ^ 1026 := by
  obtain ⟨hcf, hclo, hchi⟩ := inTurn_iff.mp hc
  obtain ⟨haf, halo, hahi⟩ := inTurn_iff.mp ha
  have hca := atMost_of_inTurn hc
  have haa := atMost_of_inTurn ha
  have hp := fval_halfPi_pos
  have h2 := fval_pi_eq
  have h4 := fval_twoPi_eq
  have hpow : (2 : Int) ^ 1026 = 2 * 2 ^ 1025 := pow_succ' 2 1025
  have hcmp : ∀ {x y : F64}, AtMost 1077 x → isFinite y = true →
      flt (fadd x pi) y = decide (fval (fadd x pi) < fval y) := fun hx hy =>
    flt_iff (hx.fadd atMost_pi (by norm_num) (by norm_num)).1 hy
  have hap := abs_le.mp (fadd_error_of_atMost_eight haa atMost_pi)
  have hcp := abs_le.mp (fadd_error_of_atMost_eight hca atMost_pi)
  have hup := abs_le.mp (fadd_error_of_atMost_eight hca atMost_twoPi)
  have hdown := abs_le.mp (fadd_error_of_atMost_eight hca atMost_twoPi.fneg)
  rw [fval_fneg] at hdown
  rw [abs_le, hpow]
  generalize (2 : Int) ^ 1025 = d at *
  rcases formatFastConverge_cases c a with ⟨habove, he⟩ | ⟨_, hbelow, he⟩ | ⟨habove, hbelow, he⟩ <;> rw [he]
  · rw [hcmp haa hcf, decide_eq_true_eq] at habove
    rw [fsub_eq_fadd_fneg hcf isFinite_twoPi]
    omega
  · rw [hcmp hca haf, decide_eq_true_eq] at hbelow
    omega
  · rw [hcmp haa hcf, decide_eq_false_iff_not] at habove
    rw [hcmp hca haf, decide_eq_false_iff_not] at hbelow
    omega

/-- Settles O45: at most one shift, and two roundings of at most `2^-49`. -/
theorem fastConvergenceShiftsAtMostOneTurn : Obligations.FastConvergenceShiftsAtMostOneTurn := by
  refine fun c a => ⟨?_, fun hc ha => ⟨(atMost_formatFastConverge a hc).1, formatFastConverge_near hc ha⟩⟩
  rcases formatFastConverge_cases c a with ⟨_, he⟩ | ⟨_, _, he⟩ | ⟨_, _, he⟩
  · exact .inr (.inl he)
  · exact .inr (.inr he)
  · exact .inl he

end Sys2Proof.Machine
end

section
/-! ## The sign of the accel angles (43_complementary_filter.md rules R191, R192 and R204) -/

namespace Sys2Proof.Machine

open Sys2Proof.Config

/-- With a Z component other than zero the range correction leaves no negative angle. -/
theorem formatAccelRange_nonneg {angle az : F64} (hf : isFinite angle = true)
    (hlo : -fval halfPi ≤ fval angle) (hhi : fval angle ≤ fval halfPi) (haz : isFinite az = true)
    (h0 : isZero az = false) : 0 ≤ fval (formatAccelRange angle az) := by
  have hp := fval_halfPi_pos
  have h2 := fval_pi_eq
  have h4 := fval_twoPi_eq
  have hz := fval_zero
  have hsum : ∀ {a b : F64}, isFinite a = true → isFinite b = true → 0 ≤ fval a + fval b →
      0 ≤ fval (fadd a b) := fun ha hb h => hz ▸ le_fval_fadd ha hb isFinite_zero (by omega)
  have hne : fval az ≠ 0 := by
    rw [← Int.natAbs_ne_zero, natAbs_fval]
    exact (units_pos.mpr (fmag_pos_of_not_isZero h0)).ne'
  rw [formatAccelRange, fgt, flt_iff haz isFinite_zero, flt_iff isFinite_zero haz, flt_iff hf isFinite_zero, hz]
  split
  · rw [fsub_eq_fadd_fneg isFinite_pi hf]
    exact hsum isFinite_pi ((isFinite_fneg _).trans hf) (by rw [fval_fneg]; omega)
  · rename_i hneg
    rw [decide_eq_true_eq] at hneg
    split
    · exact hsum hf isFinite_twoPi (by omega)
    · rename_i hdown
      simp only [Bool.and_eq_true, decide_eq_true_eq, not_and] at hdown
      have := hdown (by omega)
      omega

/-- So a negative accel angle of bounded accelerations has a zero for its Z component. -/
theorem isZero_of_neg_accAngle {p : Params} (hp : legalParams p) {t u v az : F64} (ht : AtMost 1189 t)
    (hu : AtMost 1189 u) (hv : AtMost 1189 v) (haz : isFinite az = true)
    (h : flt (formatAccelRange (p.atan2 t (norm2 u v)) az) 0 = true) : isZero az = true := by
  obtain ⟨hnf, hn0⟩ := norm2_nonneg hu hv
  obtain ⟨hf, hlo, hhi⟩ := atan2_halfPlane hp ht.1 hnf hn0
  by_contra hne
  have hnonneg := formatAccelRange_nonneg hf hlo hhi haz (by simpa using hne)
  simp only [flt, fval_zero, Bool.and_eq_true, decide_eq_true_eq] at h
  exact absurd h.2 hnonneg.not_gt

/-- Settles O46: every frame's accelerations are bounded, and then both facts hold of each axis. -/
theorem accelAnglesAreInRange : Obligations.AccelAnglesAreInRange := by
  rintro p w hp _ rfl
  obtain ⟨hx, hy, hz⟩ := atMost_accelSIVec hp w
  obtain ⟨hax, hay⟩ := frame_accAngle_inTurn hp w
  exact ⟨hax, hay, isZero_of_neg_accAngle hp hx hy hz hz.1, isZero_of_neg_accAngle hp hy hx hz hz.1⟩

end Sys2Proof.Machine
end

section
/-! ## The weight of the blend (43_complementary_filter.md rule R194) -/

namespace Sys2Proof.Machine

open Sys2Proof.Config

theorem tau_pos {x : F64} (h : tauLegal x = true) : isFinite x = true ∧ 0 < fval x := by
  rw [tauLegal, Bool.and_eq_true] at h
  obtain ⟨hf, hpos⟩ := h
  rw [flt_iff isFinite_zero hf, fval_zero, decide_eq_true_eq] at hpos
  exact ⟨hf, hpos⟩

/-- A positive value plus a zero of either sign is the value itself, as a pattern. -/
theorem fadd_pos_zero {x z : F64} (hx : isFinite x = true) (hpos : 0 < fval x) (hz : isZero z = true) :
    fadd x z = x := by
  have hs := fsign_of_pos hpos
  have hsum : fval x + fval z = units (fmag x) := by rw [fval_of_isZero hz, add_zero, fval_of_pos hs]
  have hne : fval x + fval z ≠ 0 := by rw [fval_of_isZero hz, add_zero]; exact hpos.ne'
  have hround : roundMag (units (fmag x)) 1 = fmag x := by
    have := roundMag_exact one_pos (isFinite_iff.mp hx).le
    rwa [Nat.mul_one] at this
  rw [fadd_of_sum_ne_zero hx (isFinite_of_isZero hz) hne, hsum, Int.natAbs_natCast, hround,
    decide_eq_false (Int.natCast_nonneg _).not_gt, ← hs, fpack_sign_mag]

theorem units_fmag_one : units (fmag one) = oneUnits := units_pow_two (e := 1074) (by norm_num)

/-- A finite value other than zero, over itself, is 1. -/
theorem fdiv_self {x : F64} (hx : isFinite x = true) (h0 : isZero x = false) : fdiv x x = one := by
  rw [fdiv_finite hx hx h0, bne_self_eq_false, ← units_fmag_one, Nat.mul_comm,
    roundMag_exact (units_pos.mpr (fmag_pos_of_not_isZero h0)) (by decide)]
  decide

theorem isZero_of_fval_pos {x : F64} (h : 0 < fval x) : isZero x = false := by
  by_contra hz
  rw [fval_of_isZero (by simpa using hz)] at h
  exact lt_irrefl _ h

theorem alphaOf_nonneg {p : Params} (htau : tauLegal p.tau = true) {dt : F64} (hdt : isFinite dt = true)
    (h0 : 0 ≤ fval dt) : 0 ≤ fval (alphaOf p dt) := by
  obtain ⟨hf, hpos⟩ := tau_pos htau
  rw [alphaOf]
  obtain hsum | hinf := isFinite_or_isInf_fadd hf hdt
  · have hle : fval p.tau ≤ fval (fadd p.tau dt) := le_fval_fadd hf hdt hf (by omega)
    have hspos := hpos.trans_le hle
    apply fval_nonneg_of_pos
    rw [fdiv_finite hf hsum (isZero_of_fval_pos hspos), fsign_fpack _ (roundMag_lt _ _), fsign_of_pos hpos,
      fsign_of_pos hspos, bne_self_eq_false]
  · exact (fval_of_isZero (isZero_fdiv_inf hf hinf)).ge

theorem alphaOf_of_isZero {p : Params} (htau : tauLegal p.tau = true) {dt : F64} (h : isZero dt = true) :
    alphaOf p dt = one := by
  obtain ⟨hf, hpos⟩ := tau_pos htau
  rw [alphaOf, fadd_pos_zero hf hpos h, fdiv_self hf (isZero_of_fval_pos hpos)]

/-- Settles O47: the weight has the sign of `TAU`, its magnitude is at most 1, and a zero time step leaves `TAU` over
itself. -/
theorem alphaIsAWeight : Obligations.AlphaIsAWeight := by
  intro p dt hp hdt h0
  obtain ⟨htau, _⟩ := hp
  obtain ⟨hf, hu⟩ := atMost_alphaOf htau hdt h0
  refine ⟨hf, alphaOf_nonneg htau hdt h0, ?_, alphaOf_of_isZero htau⟩
  rw [← natAbs_fval] at hu
  rw [fval_of_pos (x := one) (by decide), units_fmag_one]
  exact Int.le_natAbs.trans (Nat.cast_le.mpr hu)

end Sys2Proof.Machine
end

section
/-! ## The filter step (43_complementary_filter.md rules R199 to R201) -/

namespace Sys2Proof.Machine

/-- A later filter step gives exactly the normalised blend of each axis, beside the accel angles. -/
theorem filterStep_later_iff {p : Params} {cX cY dt : F64} {a gs : Vec3} {o : FilterOut} :
    filterStep p false cX cY a gs dt = .ok o ↔
      formatRange0to2PI (filterBlend p cX (accAngleOfX p a) (omegaX gs) dt) = .ok o.compX ∧
      formatRange0to2PI (filterBlend p cY (accAngleOfY p a) (omegaY gs) dt) = .ok o.compY ∧
      o.accX = accAngleOfX p a ∧ o.accY = accAngleOfY p a := by
  constructor
  · intro h
    obtain ⟨hx, hy⟩ := filterStep_later_inv h
    have ho := Except.ok.inj (h.symm.trans (filterStep_later hx hy))
    exact ⟨hx, hy, congrArg FilterOut.accX ho, congrArg FilterOut.accY ho⟩
  · rintro ⟨hx, hy, hax, hay⟩
    rw [filterStep_later hx hy, ← hax, ← hay]

/-- Settles O24: a first frame reads neither comp angle, and a later one normalises a blend for each axis. -/
theorem filterStepSeedsThenBlends : Obligations.FilterStepSeedsThenBlends := by
  refine fun p cX cY a gs dt o => ⟨?_, filterStep_later_iff⟩
  rw [filterStep_first, Except.ok.injEq, eq_comm]

end Sys2Proof.Machine
end

section
/-! ## The commands that process no frame (44_commands.md rules R130 to R132 and R137) -/

namespace Sys2Proof.Machine

/-- Settles O15: NOP commits the block as it is. -/
theorem nopChangesNoBlockState : Obligations.NopChangesNoBlockState := fun _ => rfl

/-- Settles O16: START commits the cleared FIFO and the three session fields it writes. -/
theorem startBeginsASession : Obligations.StartBeginsASession := fun _ => rfl

/-- Settles O17: RESET commits the block with one field written. -/
theorem resetZeroesTheIntegratedAngle : Obligations.ResetZeroesTheIntegratedAngle := fun _ => rfl

/-- A word with `RSV` nonzero or `OP` in 0x5 to 0xF is above 4 (30_encoding.md rule R98). -/
theorem legalCommand_of_illegal_fields {d : Data} (h : d.toNat / 16 ≠ 0 ∨ 5 ≤ d.toNat % 16) :
    legalCommand d = false := by
  rw [legalCommand, decide_eq_false_iff_not]
  omega

/-- Settles O18: such a word is no legal command, so it decodes to the illegal one. -/
theorem illegalCommandSetsOnlyItsBit : Obligations.IllegalCommandSetsOnlyItsBit := by
  intro d h
  have hdecode : decodeWrite 0 d = .cmdIllegal d := decodeCommand_of_illegal (legalCommand_of_illegal_fields h)
  exact ⟨(decode_portWord_write 0 d).trans hdecode, fun _ => rfl⟩

end Sys2Proof.Machine
end

section
/-! ## One frame (44_commands.md rules R133, R140 and R141) -/

namespace Sys2Proof.Machine

open Sys2Proof.Config

/-- Settles O19: STEP takes the frame at the head of the FIFO, if one is there. -/
theorem stepProcessesOneCompleteFrame : Obligations.StepProcessesOneCompleteFrame := by
  refine fun s => ⟨exec_of_incomplete_frame (.inl rfl), fun hlen => ?_⟩
  obtain ⟨w, hw, htake⟩ := takeFrame_eq (p := machineParams) hlen
  have hstep : ∀ r, processFrame machineParams w { s.block with fifo := s.block.fifo.drop 19 } = r →
      exec .step s = finish r s := fun r hr =>
    congrArg (finish · s) ((stepFrame_of_le hlen).trans (htake.trans hr))
  exact ⟨w, hw, fun b => hstep (.ok b), fun e => hstep (.error e)⟩

/-- A frame is processed exactly when the filter completes, and what it gives is published. -/
theorem processFrame_ok_iff {p : Params} {w : FrameWords} {b b' : Block} :
    processFrame p w b = .ok b' ↔
      ∃ o, frameFilter p (scaleFrame p (decodeFrame w) b.prevTs) b = .ok o ∧
        b' = publish p (decodeFrame w) (scaleFrame p (decodeFrame w) b.prevTs)
          (frameInteg p (decodeFrame w) (scaleFrame p (decodeFrame w) b.prevTs) b) o b := by
  refine ⟨processFrame_ok, ?_⟩
  rintro ⟨o, ho, rfl⟩
  rw [processFrame, ho]

theorem scaleFrame_gd (p : Params) (f : DecodedFrame) (prev : BitVec 32) :
    (scaleFrame p f prev).gd = gyroDeg f := by
  rw [scaleFrame]

theorem scaleFrame_ag (p : Params) (f : DecodedFrame) (prev : BitVec 32) :
    (scaleFrame p f prev).ag = accelG f := by
  rw [scaleFrame]

theorem frameFilter_scaleFrame (p : Params) (f : DecodedFrame) (prev : BitVec 32) (b : Block) :
    frameFilter p (scaleFrame p f prev) b =
      filterStep p b.first b.compX b.compY (accelSIVec p (accelG f)) (gyroSIVec p (gyroDeg f))
        (dtOf (deltaTicks f.timestamp prev)) := by
  rw [frameFilter, scaleFrame_accSI, scaleFrame_gs, scaleFrame_dt]

theorem frameInteg_scaleFrame (p : Params) (f : DecodedFrame) (prev : BitVec 32) (b : Block) :
    frameInteg p f (scaleFrame p f prev) b =
      integrate b.integAngle (scaleDelta p f.deltaAngleRaw (deltaTicks f.timestamp prev)) b.first := by
  rw [frameInteg, scaleFrame_ticks]

/-- Settles O23: `publish` writes the filter's result, the integrated angle and the scaled frame. -/
theorem processFramePublishesOneFrame : Obligations.ProcessFramePublishesOneFrame := by
  intro p w b b'
  simp only [processFrame_ok_iff, frameFilter_scaleFrame, frameInteg_scaleFrame, publish, scaleFrame_gd,
    scaleFrame_ag, gyroDeg, accelG]

/-- Settles O28: the filter, the scaling and the integrator read nothing else of the block. -/
theorem frameStepReadsOnlyItsInputs : Obligations.FrameStepReadsOnlyItsInputs := by
  intro p w b₁ b₂ c₁ hfifo hfirst hprev hinteg hx hy h
  obtain ⟨o, ho, rfl⟩ := processFrame_ok h
  have hfilter : frameFilter p (scaleFrame p (decodeFrame w) b₂.prevTs) b₂ = .ok o := by
    rw [← ho, frameFilter, frameFilter, hfirst, hprev, hx, hy]
  refine ⟨_, processFrame_ok_iff.mpr ⟨o, hfilter, rfl⟩, ?_⟩
  simp [datapath, readings, frameInteg, hfifo, hfirst, hprev, hinteg]

end Sys2Proof.Machine
end

section
/-! ## STEP and DRAIN as repeated frames (44_commands.md rules R133 and R134) -/

namespace Sys2Proof.Machine

open Sys2Proof.Config

/-- How a command ends depends on the port before it only in the waiting transactions. -/
@[simp] theorem finish_commit (r : Except Fault Block) (b : Block) (s : State) :
    finish r (commit b s) = finish r s := by
  cases r <;> rfl

theorem takeFrames_one (p : Params) (b : Block) : takeFrames p 1 b = takeFrame p b := by
  cases h : takeFrame p b with
  | error e => exact takeFrames_succ_error 0 h
  | ok c => exact takeFrames_succ_ok 0 h

/-- After the first of `n + 1` complete frames the words of the other `n` are left. -/
theorem length_of_takeFrame {p : Params} {n : Nat} {b c : Block} (hlen : (n + 1) * frameLen ≤ b.fifo.length)
    (hc : takeFrame p b = .ok c) : n * frameLen ≤ c.fifo.length := by
  rw [Nat.succ_mul] at hlen
  rw [takeFrame_fifo (le_of_add_le_right hlen) hc, List.length_drop]
  exact Nat.le_sub_of_add_le hlen

/-- With enough words buffered, STEPs one after another are a repetition of frames. -/
theorem execAll_replicate_step {n : Nat} {b : Block} (s : State) (hlen : n * frameLen ≤ b.fifo.length) :
    execAll (List.replicate n .step) (commit b s) = finish (takeFrames machineParams n b) s := by
  induction n generalizing b with
  | zero => rfl
  | succ n ih =>
    have hone : frameLen ≤ b.fifo.length := le_of_add_le_right (Nat.succ_mul .. ▸ hlen)
    have hstep : exec .step (commit b s) = finish (takeFrame machineParams b) s := by
      rw [← stepFrame_of_le hone]
      exact finish_commit _ b s
    rw [List.replicate_succ, execAll, hstep]
    cases hc : takeFrame machineParams b with
    | error e =>
      rw [takeFrames_succ_error n hc]
      rfl
    | ok c =>
      rw [takeFrames_succ_ok n hc]
      exact ih (length_of_takeFrame hlen hc)

/-- Settles O20: both are the same repetition of frames. -/
theorem drainIsRepeatedStep : Obligations.DrainIsRepeatedStep :=
  fun s => (execAll_replicate_step s (Nat.div_mul_le_self _ _)).symm

/-- STEP and DRAIN each process some number of the complete frames buffered. -/
theorem exec_eq_takeFrames {i : Instr} (s : State) (hi : i = .step ∨ i = .drain) :
    ∃ n, n * frameLen ≤ s.block.fifo.length ∧
      exec i s = finish (takeFrames machineParams n s.block) s := by
  obtain rfl | rfl := hi
  · rcases Nat.lt_or_ge s.block.fifo.length frameLen with hlt | hge
    · exact ⟨0, by simp, exec_of_incomplete_frame (.inl rfl) hlt⟩
    · refine ⟨1, by rwa [Nat.one_mul], ?_⟩
      rw [takeFrames_one, ← stepFrame_of_le hge]
      rfl
  · exact ⟨_, Nat.div_mul_le_self _ _, rfl⟩

/-! ### What frames leave alone -/

/-- The fields that no frame writes: `YAW_AXIS`, `ILLEGAL` and `OVF`. -/
def Block.controlFields (b : Block) : YawAxis × Bool × Bool := (b.yawAxis, b.illegal, b.ovf)

theorem takeFrame_controlFields {p : Params} {b b' : Block} (hlen : frameLen ≤ b.fifo.length)
    (h : takeFrame p b = .ok b') : b'.controlFields = b.controlFields := by
  obtain ⟨w, _, he⟩ := takeFrame_eq (p := p) hlen
  rw [he] at h
  obtain ⟨o, _, rfl⟩ := processFrame_ok h
  rfl

theorem takeFrames_controlFields {p : Params} {n : Nat} {b b' : Block} (hlen : n * frameLen ≤ b.fifo.length)
    (h : takeFrames p n b = .ok b') : b'.controlFields = b.controlFields := by
  induction n generalizing b with
  | zero =>
    cases h
    rfl
  | succ n ih =>
    obtain ⟨c, hc, hrest⟩ := takeFrames_succ_inv h
    have hone : frameLen ≤ b.fifo.length := le_of_add_le_right (Nat.succ_mul .. ▸ hlen)
    rw [← takeFrame_controlFields hone hc]
    exact ih (length_of_takeFrame hlen hc) hrest

/-- Settles O22: STEP and DRAIN are repeated frames, and a frame writes none of the fields named. -/
theorem frameCommandsLeaveTheRestAlone : Obligations.FrameCommandsLeaveTheRestAlone := by
  intro i s t hi h
  have hincomplete : s.block.fifo.length < frameLen → t.block = s.block := fun hlt => by
    rw [exec_of_incomplete_frame hi hlt] at h
    cases h
    rfl
  obtain ⟨n, hlen, he⟩ := exec_eq_takeFrames s hi
  rw [he] at h
  obtain ⟨b, hb, rfl⟩ := finish_next h
  have hfields := takeFrames_controlFields hlen hb
  simp only [Block.controlFields, Prod.mk.injEq] at hfields
  obtain ⟨hyaw, hillegal, hovf⟩ := hfields
  have hsuffix : b.fifo <:+ s.block.fifo := takeFrames_fifo hlen hb ▸ List.drop_suffix _ _
  exact ⟨hyaw, hillegal, hovf, rfl, hsuffix, hincomplete⟩

/-- Settles O41: the invariant makes every frame complete, and the whole frames leave the FIFO. -/
theorem drainCompletesInSafeStates : Obligations.DrainCompletesInSafeStates := by
  intro s hs
  obtain ⟨t, ht⟩ := exec_frames_completes (.inr rfl) hs
  obtain ⟨hfifo, _, _⟩ := drainLeavesTheRemainder s t ht
  refine ⟨t, ht, exec_keeps_inv hs ht, ?_⟩
  rw [Nat.div_mul_self_eq_mod_sub_self, hfifo]

end Sys2Proof.Machine
end

section
/-! ## Pacing (44_commands.md rule R142)

A frame takes its words from the head of the FIFO and a push adds its word at the tail, so the two commute: a run of
pushes, STEPs and DRAINs with a final DRAIN ends as that DRAIN with all the words buffered at once. -/

namespace Sys2Proof.Machine

open Sys2Proof.Config

/-- The block with `ws` buffered behind its own words. -/
def Block.buffer (b : Block) (ws : List FifoWord) : Block := { b with fifo := b.fifo ++ ws }

@[simp] theorem buffer_fifo (b : Block) (ws : List FifoWord) : (b.buffer ws).fifo = b.fifo ++ ws := rfl

@[simp] theorem buffer_nil (b : Block) : b.buffer [] = b := by simp [Block.buffer]

@[simp] theorem buffer_buffer (b : Block) (ws ws' : List FifoWord) :
    (b.buffer ws).buffer ws' = b.buffer (ws ++ ws') := by simp [Block.buffer]

/-- A push that fits buffers its word. -/
theorem exec_push_of_lt {s : State} (d : Data) (h : s.block.fifo.length < machineParams.fifoDepth) :
    exec (.wrFifoData d) s = .next (commit (s.block.buffer [fifoOperand d]) s) := by
  rw [exec, execWrFifoData, fifoPush_of_lt h, Block.buffer]

/-! ### Frames and the words behind them -/

/-- A frame's outcome is the filter's, with its result published. -/
theorem processFrame_eq_map (p : Params) (w : FrameWords) (b : Block) :
    processFrame p w b = (frameFilter p (scaleFrame p (decodeFrame w) b.prevTs) b).map fun o =>
      publish p (decodeFrame w) (scaleFrame p (decodeFrame w) b.prevTs)
        (frameInteg p (decodeFrame w) (scaleFrame p (decodeFrame w) b.prevTs) b) o b := by
  rw [processFrame]
  cases frameFilter p (scaleFrame p (decodeFrame w) b.prevTs) b <;> rfl

theorem publish_buffer (p : Params) (f : DecodedFrame) (sc : ScaledFrame) (integ : F64) (o : FilterOut) (b : Block)
    (ws : List FifoWord) : publish p f sc integ o (b.buffer ws) = (publish p f sc integ o b).buffer ws := rfl

/-- A frame keeps the words buffered behind, and they change nothing else of its outcome. -/
theorem processFrame_buffer (p : Params) (w : FrameWords) (b : Block) (ws : List FifoWord) :
    processFrame p w (b.buffer ws) = (processFrame p w b).map (·.buffer ws) := by
  have hfilter : frameFilter p (scaleFrame p (decodeFrame w) (b.buffer ws).prevTs) (b.buffer ws) =
      frameFilter p (scaleFrame p (decodeFrame w) b.prevTs) b := frameFilter_fifo ..
  have hinteg : frameInteg p (decodeFrame w) (scaleFrame p (decodeFrame w) (b.buffer ws).prevTs) (b.buffer ws) =
      frameInteg p (decodeFrame w) (scaleFrame p (decodeFrame w) b.prevTs) b := frameInteg_fifo ..
  rw [processFrame_eq_map, processFrame_eq_map, hfilter, hinteg]
  cases frameFilter p (scaleFrame p (decodeFrame w) b.prevTs) b with
  | error e => rfl
  | ok o => exact congrArg Except.ok (publish_buffer ..)

theorem takeFrame_buffer {p : Params} {b : Block} (ws : List FifoWord) (hlen : frameLen ≤ b.fifo.length) :
    takeFrame p (b.buffer ws) = (takeFrame p b).map (·.buffer ws) := by
  have hlen' : frameLen ≤ (b.buffer ws).fifo.length := by
    rw [buffer_fifo, List.length_append]
    exact le_add_right hlen
  obtain ⟨w, hw, he⟩ := takeFrame_eq (p := p) hlen
  obtain ⟨w', hw', he'⟩ := takeFrame_eq (p := p) hlen'
  have htake : (b.buffer ws).fifo.take 19 = b.fifo.take 19 := List.take_append_of_le_length hlen
  have hdrop : (b.buffer ws).fifo.drop 19 = b.fifo.drop 19 ++ ws := List.drop_append_of_le_length hlen
  obtain rfl : w' = w := Vector.toList_inj.mp (hw'.trans (htake.trans hw.symm))
  rw [he, he', hdrop]
  exact processFrame_buffer p w' { b with fifo := b.fifo.drop 19 } ws

theorem takeFrames_buffer {p : Params} {n : Nat} {b : Block} (ws : List FifoWord)
    (hlen : n * frameLen ≤ b.fifo.length) :
    takeFrames p n (b.buffer ws) = (takeFrames p n b).map (·.buffer ws) := by
  induction n generalizing b with
  | zero => rfl
  | succ n ih =>
    have hone : frameLen ≤ b.fifo.length := le_of_add_le_right (Nat.succ_mul .. ▸ hlen)
    have htake := takeFrame_buffer (p := p) ws hone
    cases hc : takeFrame p b with
    | error e =>
      rw [hc] at htake
      rw [takeFrames_succ_error n hc, takeFrames_succ_error n htake]
      rfl
    | ok c =>
      rw [hc] at htake
      rw [takeFrames_succ_ok n hc, takeFrames_succ_ok n htake]
      exact ih (length_of_takeFrame hlen hc)

/-- A repetition in two parts is the second from where the first ends. -/
theorem takeFrames_add (p : Params) (m n : Nat) (b : Block) :
    takeFrames p (m + n) b = (takeFrames p m b).bind (takeFrames p n) := by
  induction m generalizing b with
  | zero =>
    rw [Nat.zero_add]
    rfl
  | succ m ih =>
    rw [Nat.succ_add]
    cases hc : takeFrame p b with
    | error e =>
      rw [takeFrames_succ_error _ hc, takeFrames_succ_error _ hc]
      rfl
    | ok c => rw [takeFrames_succ_ok _ hc, takeFrames_succ_ok _ hc, ih]

/-- Frames taken before more words are buffered are the first of the frames that DRAIN takes of all the words. -/
theorem drainFrames_buffer {p : Params} {n : Nat} {b : Block} (ws : List FifoWord)
    (hlen : n * frameLen ≤ b.fifo.length) :
    drainFrames p (b.buffer ws) = (takeFrames p n b).bind fun c => drainFrames p (c.buffer ws) := by
  set m := (b.fifo.length - n * frameLen + ws.length) / frameLen with hm
  have hcount : fifoCount (b.buffer ws) / frameLen = n + m := by
    rw [hm, fifoCount, buffer_fifo, List.length_append, ← Nat.mul_add_div (by decide), Nat.mul_comm frameLen,
      ← Nat.add_assoc, Nat.add_sub_cancel' hlen]
  rw [drainFrames, hcount, takeFrames_add, takeFrames_buffer ws hlen]
  cases hc : takeFrames p n b with
  | error e => rfl
  | ok c =>
    have hrest : fifoCount (c.buffer ws) / frameLen = m := by
      rw [hm, fifoCount, buffer_fifo, List.length_append, takeFrames_fifo hlen hc, List.length_drop]
    exact congrArg (takeFrames p · (c.buffer ws)) hrest.symm

/-! ### Runs -/

theorem execAll_singleton (i : Instr) (s : State) : execAll [i] s = exec i s := by
  rw [execAll]
  cases exec i s <;> rfl

theorem execAll_cons_of_next {i : Instr} {s t : State} (is : List Instr) (h : exec i s = .next t) :
    execAll (i :: is) s = execAll is t := by
  rw [execAll, h]

theorem execAll_cons_of_fault {i : Instr} {s : State} {e : Fault} (is : List Instr) (h : exec i s = .fault e) :
    execAll (i :: is) s = .fault e := by
  rw [execAll, h]

theorem pushedWords_cons_frames {i : Instr} (is : List Instr) (hi : i = .step ∨ i = .drain) :
    pushedWords (i :: is) = pushedWords is := by
  obtain rfl | rfl := hi
  · exact pushedWords_step is
  · exact pushedWords_drain is

/-- The transactions that rule R142 paces. -/
def IsPaced (i : Instr) : Prop := i = .step ∨ i = .drain ∨ ∃ d, i = .wrFifoData d

theorem isPaced_of_mem_pushes {ws : List FifoWord} : ∀ i ∈ pushes ws, IsPaced i := fun i hi => by
  obtain ⟨w, _, rfl⟩ := List.mem_map.mp hi
  exact .inr (.inr ⟨_, rfl⟩)

/-- A paced run and a final DRAIN end as that DRAIN with every word of the run buffered at once. -/
theorem execAll_paced_drain {is : List Instr} {s : State} (his : ∀ i ∈ is, IsPaced i)
    (hfit : s.block.fifo.length + (pushedWords is).length ≤ machineParams.fifoDepth) :
    execAll (is ++ [.drain]) s = finish (drainFrames machineParams (s.block.buffer (pushedWords is))) s := by
  induction is generalizing s with
  | nil =>
    rw [pushedWords_nil, buffer_nil]
    exact execAll_singleton .drain s
  | cons i is ih =>
    obtain ⟨hi, hrest⟩ := List.forall_mem_cons.mp his
    obtain hi | ⟨d, rfl⟩ := or_assoc.mpr hi
    · obtain ⟨n, hlen, he⟩ := exec_eq_takeFrames s hi
      rw [pushedWords_cons_frames is hi] at hfit ⊢
      rw [List.cons_append, drainFrames_buffer _ hlen]
      cases hc : takeFrames machineParams n s.block with
      | error e =>
        rw [hc] at he
        exact execAll_cons_of_fault _ he
      | ok c =>
        rw [hc] at he
        have hc' : (commit c s).block.fifo.length ≤ s.block.fifo.length := by
          rw [commit_block, takeFrames_fifo hlen hc, List.length_drop]
          exact Nat.sub_le _ _
        rw [execAll_cons_of_next _ he, ih hrest (by omega), finish_commit]
        rfl
    · rw [pushedWords_push, List.length_cons] at hfit
      have hpush := exec_push_of_lt (s := s) d (by omega)
      rw [List.cons_append, execAll_cons_of_next _ hpush, ih hrest]
      · rw [finish_commit, commit_block, buffer_buffer, pushedWords_push, List.singleton_append]
      · rw [commit_block, buffer_fifo, List.length_append, List.length_singleton]
        omega

/-- Settles O36: both runs are paced, and they buffer the same words. -/
theorem pacingDoesNotChangeTheResults : Obligations.PacingDoesNotChangeTheResults := by
  intro s is his hfit
  have hpushes := execAll_paced_drain (s := s) (isPaced_of_mem_pushes (ws := pushedWords is))
  rw [pushedWords_pushes] at hpushes
  exact (execAll_paced_drain his hfit).trans (hpushes hfit).symm

end Sys2Proof.Machine
end

section
/-! ## Register access (45_register_access.md rules R220 to R241) -/

namespace Sys2Proof.Machine

/-! ### Reads -/

theorem readOutput_of_valid (v : F64) {s : State} (h : s.block.valid = true) :
    readOutput v s = .next (respond v s) := if_pos h

theorem readOutput_next {v : F64} {s t : State} (h : readOutput v s = .next t) : t = respond v s := by
  rcases readOutput_cases v s with ⟨_, he⟩ | ⟨_, he⟩ <;> rw [he] at h <;> cases h
  rfl

/-- A read that completes answers a value and does nothing else. -/
theorem exec_read_next {i : Instr} {s t : State} (hw : (encode i).w = false) (h : exec i s = .next t) :
    ∃ v, t = respond v s := by
  cases i with
  | rdCmd | rdStatus | rdConfig | rdFifoData | rdFifoCount | rdIntegAngle | rdRsv =>
    cases h
    exact ⟨_, rfl⟩
  | rdGyroX | rdGyroY | rdGyroZ | rdAccelX | rdAccelY | rdAccelZ | rdAccAngleX | rdAccAngleY | rdCompAngleX
  | rdCompAngleY => exact ⟨_, readOutput_next h⟩
  | wrStatus | wrConfig | wrFifoData | cmdIllegal | wrIgn | nop | start | reset | step | drain => simp [encode] at hw

/-- Settles O10: a completed read is a `respond`. -/
theorem readsChangeNoBlockState : Obligations.ReadsChangeNoBlockState := by
  intro i s t hw h
  obtain ⟨v, rfl⟩ := exec_read_next hw h
  exact respond_block v s

/-- The bits of `STATUS` weighted by their places (10_state.md rule R39). -/
theorem statusWord_eq_sum (b : Block) :
    statusWord b = BitVec.ofNat 64 (8 * b.ovf.toNat + 4 * b.illegal.toNat + 2 * b.first.toNat + b.valid.toNat) := by
  have h : ∀ o i f v : Bool, (BitVec.ofBool o ++ BitVec.ofBool i ++ BitVec.ofBool f ++ BitVec.ofBool v).setWidth 64 =
      BitVec.ofNat 64 (8 * o.toNat + 4 * i.toNat + 2 * f.toNat + v.toNat) := by decide
  exact h _ _ _ _

/-- Settles O7: each read answers its register; `STATUS` is the sum of its bits, and `CONFIG` the code of the axis. -/
theorem controlReadsReturnTheirRegister : Obligations.ControlReadsReturnTheirRegister := by
  intro s
  refine ⟨rfl, ?_, ?_, rfl, rfl, rfl, fun _ => rfl⟩
  · rw [← statusWord_eq_sum]
    rfl
  · rw [exec, execRdConfig]
    cases s.block.yawAxis <;> rfl

/-- Settles O8: each of the ten is a guarded read of its register. -/
theorem outputReadsReturnTheirRegister : Obligations.OutputReadsReturnTheirRegister := by
  intro s r hr
  rw [exec_of_mem_outputReads hr]
  exact ⟨readOutput_of_valid r.2, readOutput_of_not_valid r.2⟩

/-! ### Writes -/

/-- `STATUS` is cleared bit by bit: a bit of `D` that is 1 clears its sticky bit, one that is 0 keeps it. -/
theorem clearSticky_eq_ite (d : Data) (b : Block) :
    clearSticky d b = { b with
      illegal := if d.getLsbD 2 then false else b.illegal
      ovf := if d.getLsbD 3 then false else b.ovf } := by
  have h : ∀ sticky clear : Bool, (sticky && !clear) = if clear then false else sticky := by decide
  rw [clearSticky, clearsIllegal, clearsOvf, h, h]

/-- Settles O11: the write commits the block with its sticky bits cleared. -/
theorem statusWriteClearsTheBitsWrittenAsOne : Obligations.StatusWriteClearsTheBitsWrittenAsOne := by
  intro d s
  rw [← clearSticky_eq_ite]
  rfl

theorem configOperand_toNat (d : Data) : (configOperand d).toNat = d.toNat % 4 := by simp [configOperand]

theorem yawWrite_of_three {code : BitVec 2} (old : YawAxis) (h : code.toNat = 3) : yawWrite code old = old := by
  simp [yawWrite, h]

/-- A legal code written is the code read back. -/
theorem yawCode_yawWrite {code : BitVec 2} (old : YawAxis) (h : code.toNat ≠ 3) :
    yawCode (yawWrite code old) = code := by
  revert code
  cases old <;> decide

/-- Settles O12: the axis is that of `yawWrite`, which drops the code 3 and stores every other. -/
theorem configWriteSetsALegalAxis : Obligations.ConfigWriteSetsALegalAxis := by
  intro d s
  rw [← configOperand_toNat]
  refine ⟨_, rfl, yawWrite_of_three _, fun h => ?_⟩
  rw [← congrArg BitVec.toNat (yawCode_yawWrite s.block.yawAxis h)]
  cases yawWrite (configOperand d) s.block.yawAxis <;> rfl

theorem fifoOperand_eq_ofNat (d : Data) : fifoOperand d = BitVec.ofNat 32 d.toNat :=
  BitVec.eq_of_toNat_eq (by simp [fifoOperand])

/-- Settles O13: the write commits the push of `D[31:0]`. -/
theorem fifoWriteAppendsOrSetsOverflow : Obligations.FifoWriteAppendsOrSetsOverflow := by
  intro d s
  rw [exec, execWrFifoData, ← fifoOperand_eq_ofNat]
  constructor
  · intro h
    rw [fifoPush_of_lt h, commit]
  · intro h
    rw [fifoPush_of_le h, commit, setOvf]

/-- Settles O14: the write commits the block as it is. -/
theorem ignoredWritesChangeNothing : Obligations.IgnoredWritesChangeNothing := fun _ _ _ => rfl

end Sys2Proof.Machine
end

section
/-! ## Exceptions (60_exceptions.md rules R260, R261, R264 and R265) -/

namespace Sys2Proof.Machine

/-! ### The sticky bits -/

theorem fifoPush_illegal (p : Params) (w : FifoWord) (b : Block) : (fifoPush p w b).illegal = b.illegal := by
  rcases fifoPush_cases p w b with ⟨_, he⟩ | ⟨_, he⟩ <;> rw [he]
  exact setOvf_illegal b

/-- A push sets `OVF` exactly when the FIFO is full, and never clears it (20_memory.md rule R75). -/
theorem fifoPush_ovf_iff {p : Params} {w : FifoWord} {b : Block} :
    (fifoPush p w b).ovf = true ↔ p.fifoDepth ≤ b.fifo.length ∨ b.ovf = true := by
  rcases fifoPush_cases p w b with ⟨hlt, he⟩ | ⟨hle, he⟩ <;> rw [he]
  · simp [hlt.not_ge]
  · simp [hle]

/-- Only an illegal command, a write to `STATUS` and a push touch a sticky bit. -/
theorem exec_sticky_of_other {i : Instr} {s t : State} (hcmd : ∀ d, i ≠ .cmdIllegal d)
    (hstatus : ∀ d, i ≠ .wrStatus d) (hpush : ∀ d, i ≠ .wrFifoData d) (h : exec i s = .next t) :
    t.block.illegal = s.block.illegal ∧ t.block.ovf = s.block.ovf := by
  cases i with
  | rdCmd | rdStatus | rdConfig | rdFifoData | rdFifoCount | rdIntegAngle | rdRsv | nop | start | reset | wrIgn
  | wrConfig =>
    cases h
    exact ⟨rfl, rfl⟩
  | rdGyroX | rdGyroY | rdGyroZ | rdAccelX | rdAccelY | rdAccelZ | rdAccAngleX | rdAccAngleY | rdCompAngleX
  | rdCompAngleY =>
    rw [block_of_readOutput_next h]
    exact ⟨rfl, rfl⟩
  | step | drain =>
    obtain ⟨_, hillegal, hovf, _⟩ := frameCommandsLeaveTheRestAlone _ s t (by simp) h
    exact ⟨hillegal, hovf⟩
  | cmdIllegal d => exact absurd rfl (hcmd d)
  | wrStatus d => exact absurd rfl (hstatus d)
  | wrFifoData d => exact absurd rfl (hpush d)

/-- Settles O30: by the three instructions that touch a sticky bit, and all the others. -/
theorem stickyBitsHaveOneCauseEach : Obligations.StickyBitsHaveOneCauseEach := by
  intro i s t h
  by_cases hcmd : ∃ d, i = .cmdIllegal d
  · obtain ⟨d, rfl⟩ := hcmd
    cases h
    simp
  by_cases hstatus : ∃ d, i = .wrStatus d
  · obtain ⟨d, rfl⟩ := hstatus
    cases h
    simp [clearsIllegal, clearsOvf]
  by_cases hpush : ∃ d, i = .wrFifoData d
  · obtain ⟨d, rfl⟩ := hpush
    cases h
    simp [fifoPush_illegal, fifoPush_ovf_iff]
  · rw [not_exists] at hcmd hstatus hpush
    obtain ⟨hillegal, hovf⟩ := exec_sticky_of_other hcmd hstatus hpush h
    simp [hcmd, hstatus, hpush, hillegal, hovf]

/-! ### Safe states -/

/-- A safe state stops the model at nothing but a guarded read before the first frame. -/
theorem exec_completes_or_guarded {s : State} (hs : Inv s) (i : Instr) :
    (∃ t, exec i s = .next t) ∨ (s.block.valid = false ∧ ∃ r ∈ outputReads s.block, r.1 = i) := by
  cases h : exec i s with
  | next t => exact .inl ⟨t, rfl⟩
  | fault e =>
    obtain rfl := exec_fault_of_inv hs h
    exact .inr ((unwrittenReadIsRaisedExactlyBeforeTheFirstFrame i s).mp h)
  | refused r => exact absurd h (exec_ne_refused i s r)

/-- Settles O40: the one way not to complete is a guarded read, with `VALID` clear. -/
theorem safeStatesCompleteEveryInstruction : Obligations.SafeStatesCompleteEveryInstruction := by
  intro s hs
  constructor
  · intro i hi
    obtain hnext | ⟨_, r, hr, rfl⟩ := exec_completes_or_guarded hs i
    · exact hnext
    · exact absurd rfl (hi r hr)
  · intro hvalid i
    obtain hnext | ⟨hclear, _⟩ := exec_completes_or_guarded hs i
    · exact hnext
    · rw [hvalid] at hclear
      cases hclear

/-- Settles O57: hardware returns a pattern where the model stops, and the pattern is no block state. -/
theorem hardwareGoesOnFromEverySafeState : Obligations.HardwareGoesOnFromEverySafeState :=
  fun _ hs i => ⟨hardwareNext_exists hs i, fun _ => hardwareNext_keeps_inv hs⟩

end Sys2Proof.Machine
end

section
/-! ## START against power-on (70_reset_and_hazards.md rule R281)

After START the block differs from one after power-on in what the session before left in the comp angles and the
outputs. Nothing reads the comp angles before the first frame writes them, and a guarded read completes after power-on
only once that frame has written the outputs too. -/

namespace Sys2Proof.Machine

/-! ### Blocks in the same session -/

/-- What a frame publishes beside the session's own fields: `VALID`, the comp angles and the outputs. -/
def snapshot (b : Block) : Bool × List F64 := (b.valid, b.compX :: b.compY :: readings b)

/-- `b` has run the session that `c` has run since power-on: they agree in the session's fields, and in what frames
publish once `c` has processed one. Until then `c` waits for a first frame. -/
structure SameSession (b c : Block) : Prop where
  fifo : b.fifo = c.fifo
  first : b.first = c.first
  prevTs : b.prevTs = c.prevTs
  integAngle : b.integAngle = c.integAngle
  waits : c.valid = false → c.first = true
  published : c.valid = true → snapshot b = snapshot c

namespace SameSession

theorem valid {b c : Block} (h : SameSession b c) (hvalid : c.valid = true) : b.valid = true :=
  (congrArg Prod.fst (h.published hvalid)).trans hvalid

theorem datapath_eq {b c : Block} (h : SameSession b c) (hvalid : c.valid = true) : datapath b = datapath c := by
  have hlist : b.compX :: b.compY :: readings b = c.compX :: c.compY :: readings c :=
    congrArg Prod.snd (h.published hvalid)
  rw [datapath, datapath, h.fifo, h.first, h.prevTs, h.integAngle, h.valid hvalid, hvalid, hlist]

/-- START begins the session that power-on begins (44_commands.md rule R131, 10_state.md rule R48). -/
theorem start_powerOn (b : Block) :
    SameSession { fifoClear b with first := true, prevTs := 0, integAngle := 0 } Block.powerOn where
  fifo := rfl
  first := rfl
  prevTs := rfl
  integAngle := rfl
  waits _ := rfl
  published h := by cases h

theorem withFifo {b c : Block} (h : SameSession b c) (fifo : List FifoWord) :
    SameSession { b with fifo := fifo } { c with fifo := fifo } := { h with fifo := rfl }

theorem fifoPush {b c : Block} (h : SameSession b c) (p : Params) (w : FifoWord) :
    SameSession (fifoPush p w b) (fifoPush p w c) := by
  rcases fifoPush_cases p w c with ⟨hlen, hc⟩ | ⟨hlen, hc⟩ <;> rw [hc]
  · rw [fifoPush_of_lt (h.fifo ▸ hlen)]
    exact h.fifo ▸ h.withFifo (b.fifo ++ [w])
  · rw [fifoPush_of_le (h.fifo ▸ hlen)]
    exact { h with }

/-! ### Frames -/

/-- The filter seeds on a first frame without reading the comp angles (43_complementary_filter.md rule R201), and on
any other the two blocks hold the same. -/
theorem frameFilter_eq {b c : Block} (h : SameSession b c) (p : Params) (f : DecodedFrame) (prev : BitVec 32) :
    frameFilter p (scaleFrame p f prev) b = frameFilter p (scaleFrame p f prev) c := by
  cases hfirst : c.first with
  | true => rw [frameFilter_first p f prev hfirst, frameFilter_first p f prev (h.first.trans hfirst)]
  | false =>
    have hvalid : c.valid = true := by
      by_contra hclear
      rw [h.waits (Bool.eq_false_iff.mpr hclear)] at hfirst
      cases hfirst
    have hsnapshot := h.published hvalid
    simp only [snapshot, Prod.mk.injEq, List.cons.injEq] at hsnapshot
    obtain ⟨_, hx, hy, _⟩ := hsnapshot
    rw [frameFilter, frameFilter, h.first, hx, hy]

theorem frameInteg_eq {b c : Block} (h : SameSession b c) (p : Params) (f : DecodedFrame) (sc : ScaledFrame) :
    frameInteg p f sc b = frameInteg p f sc c := by
  rw [frameInteg, frameInteg, h.integAngle, h.first]

/-- A frame published in both blocks leaves the same snapshot in both. -/
theorem publish {b c : Block} (h : SameSession b c) (p : Params) (f : DecodedFrame) (sc : ScaledFrame) (integ : F64)
    (o : FilterOut) : SameSession (publish p f sc integ o b) (publish p f sc integ o c) where
  fifo := h.fifo
  first := rfl
  prevTs := rfl
  integAngle := rfl
  waits hclear := by cases hclear
  published _ := rfl

end SameSession

/-- A command that completes on the block after power-on completes on the other, and they stay in the same session. -/
def KeepsSession (f : Block → Except Fault Block) : Prop :=
  ∀ ⦃b c c' : Block⦄, SameSession b c → f c = .ok c' → ∃ b', f b = .ok b' ∧ SameSession b' c'

theorem processFrame_keepsSession (p : Params) (w : FrameWords) : KeepsSession (processFrame p w) := by
  intro b c c' h hc
  obtain ⟨o, ho, rfl⟩ := processFrame_ok hc
  rw [← h.prevTs, ← h.frameFilter_eq] at ho
  refine ⟨_, processFrame_ok_iff.mpr ⟨o, ho, rfl⟩, ?_⟩
  rw [h.prevTs, h.frameInteg_eq]
  exact h.publish ..

/-- A frame is taken exactly when its words can be popped and processed. -/
theorem takeFrame_ok_iff {p : Params} {b b' : Block} :
    takeFrame p b = .ok b' ↔
      ∃ w rest, popWords 19 b.fifo = .ok (w, rest) ∧ processFrame p w { b with fifo := rest } = .ok b' := by
  unfold takeFrame
  generalize popWords 19 b.fifo = popped
  cases popped with
  | error e => simp
  | ok r => simp [Prod.ext_iff]

theorem takeFrame_keepsSession (p : Params) : KeepsSession (takeFrame p) := by
  intro b c c' h hc
  obtain ⟨w, rest, hpop, hframe⟩ := takeFrame_ok_iff.mp hc
  obtain ⟨b', hb, h'⟩ := processFrame_keepsSession p w (h.withFifo rest) hframe
  exact ⟨b', takeFrame_ok_iff.mpr ⟨w, rest, h.fifo ▸ hpop, hb⟩, h'⟩

theorem takeFrames_keepsSession (p : Params) (n : Nat) : KeepsSession (takeFrames p n) := by
  induction n with
  | zero =>
    intro b c c' h hc
    cases hc
    exact ⟨b, rfl, h⟩
  | succ n ih =>
    intro b c c' h hc
    obtain ⟨d, hd, hrest⟩ := takeFrames_succ_inv hc
    obtain ⟨e, he, hed⟩ := takeFrame_keepsSession p h hd
    rw [takeFrames_succ_ok n he]
    exact ih hed hrest

theorem stepFrame_keepsSession (p : Params) : KeepsSession (stepFrame p) := by
  intro b c c' h hc
  rcases Nat.lt_or_ge c.fifo.length Config.frameLen with hlt | hge
  · rw [stepFrame_of_lt hlt] at hc
    cases hc
    exact ⟨b, stepFrame_of_lt (h.fifo ▸ hlt), h⟩
  · rw [stepFrame_of_le hge] at hc
    rw [stepFrame_of_le (h.fifo ▸ hge)]
    exact takeFrame_keepsSession p h hc

theorem drainFrames_keepsSession (p : Params) : KeepsSession (drainFrames p) := by
  intro b c c' h hc
  rw [drainFrames, fifoCount, h.fifo]
  exact takeFrames_keepsSession p _ h hc

/-! ### Transactions -/

theorem readOutput_keepsSession {v v' : F64} {s s' t' : State} (h : SameSession s.block s'.block)
    (ht : readOutput v' s' = .next t') : ∃ t, readOutput v s = .next t ∧ SameSession t.block t'.block := by
  obtain ⟨hvalid, he⟩ | ⟨_, he⟩ := readOutput_cases v' s' <;> rw [he] at ht <;> cases ht
  exact ⟨_, readOutput_of_valid v (h.valid hvalid), h⟩

theorem finish_keepsSession {f : Block → Except Fault Block} (hf : KeepsSession f) {s s' t' : State}
    (h : SameSession s.block s'.block) (ht : finish (f s'.block) s' = .next t') :
    ∃ t, finish (f s.block) s = .next t ∧ SameSession t.block t'.block := by
  obtain ⟨c', hc, rfl⟩ := finish_next ht
  obtain ⟨b', hb, h'⟩ := hf h hc
  exact ⟨commit b' s, by rw [hb, finish], h'⟩

theorem exec_keepsSession {i : Instr} {s s' t' : State} (h : SameSession s.block s'.block)
    (ht : exec i s' = .next t') : ∃ t, exec i s = .next t ∧ SameSession t.block t'.block := by
  cases i with
  | rdCmd | rdStatus | rdConfig | rdFifoData | rdFifoCount | rdIntegAngle | rdRsv | nop | wrIgn =>
    cases ht
    exact ⟨_, rfl, h⟩
  | rdGyroX | rdGyroY | rdGyroZ | rdAccelX | rdAccelY | rdAccelZ | rdAccAngleX | rdAccAngleY | rdCompAngleX
  | rdCompAngleY => exact readOutput_keepsSession h ht
  | wrStatus | wrConfig | cmdIllegal =>
    cases ht
    exact ⟨_, rfl, { h with }⟩
  | wrFifoData d =>
    cases ht
    exact ⟨_, rfl, h.fifoPush machineParams (fifoOperand d)⟩
  | start =>
    cases ht
    exact ⟨_, rfl, { h with fifo := rfl, first := rfl, prevTs := rfl, integAngle := rfl, waits := fun _ => rfl }⟩
  | reset =>
    cases ht
    exact ⟨_, rfl, { h with integAngle := rfl }⟩
  | step => exact finish_keepsSession (stepFrame_keepsSession machineParams) h ht
  | drain => exact finish_keepsSession (drainFrames_keepsSession machineParams) h ht

/-! ### Runs -/

/-- A run that completes is a first transaction that completes and the rest from where it ends. -/
theorem execAll_cons_inv {i : Instr} {is : List Instr} {s t : State} (h : execAll (i :: is) s = .next t) :
    ∃ u, exec i s = .next u ∧ execAll is u = .next t := by
  cases hu : exec i s with
  | next u => exact ⟨u, rfl, execAll_cons_of_next is hu ▸ h⟩
  | fault e =>
    rw [execAll_cons_of_fault is hu] at h
    cases h
  | refused r => exact absurd hu (exec_ne_refused i s r)

theorem execAll_keepsSession {is : List Instr} {s s' t' : State} (h : SameSession s.block s'.block)
    (ht : execAll is s' = .next t') : ∃ t, execAll is s = .next t ∧ SameSession t.block t'.block := by
  induction is generalizing s s' with
  | nil =>
    cases ht
    exact ⟨s, rfl, h⟩
  | cons i is ih =>
    obtain ⟨u', hu', hrest⟩ := execAll_cons_inv ht
    obtain ⟨u, hu, hsame⟩ := exec_keepsSession h hu'
    rw [execAll_cons_of_next is hu]
    exact ih hsame hrest

/-- Which ten reads are guarded does not depend on the block. -/
theorem ne_outputReads_of_ne {i : Instr} {b : Block} (c : Block) (h : ∀ r ∈ outputReads b, i ≠ r.1) :
    ∀ r ∈ outputReads c, i ≠ r.1 := by
  simpa [outputReads] using h

/-- A run without guarded reads completes from every safe state. -/
theorem execAll_completes {is : List Instr} {s : State} (hs : Inv s)
    (his : ∀ i ∈ is, ∀ r ∈ outputReads s.block, i ≠ r.1) : ∃ t, execAll is s = .next t := by
  induction is generalizing s with
  | nil => exact ⟨s, rfl⟩
  | cons i is ih =>
    obtain ⟨hi, hrest⟩ := List.forall_mem_cons.mp his
    obtain ⟨hcompletes, _⟩ := safeStatesCompleteEveryInstruction s hs
    obtain ⟨u, hu⟩ := hcompletes i hi
    rw [execAll_cons_of_next is hu]
    exact ih (exec_keeps_inv hs hu) fun j hj => ne_outputReads_of_ne u.block (hrest j hj)

/-- A run that completes after power-on completes after START, in the same session. -/
theorem execAll_start_of_powerOn {is : List Instr} {t' : State} (s : State)
    (ht : execAll is State.reset = .next t') :
    ∃ t, execAll (.start :: is) s = .next t ∧ SameSession t.block t'.block := by
  rw [execAll_cons_of_next is (startBeginsASession s)]
  exact execAll_keepsSession (s' := State.reset) (SameSession.start_powerOn s.block) ht

/-- Settles O35: the runs stay in the same session, and without guarded reads, power-on being safe, both complete. -/
theorem startIsAsGoodAsPowerOn : Obligations.StartIsAsGoodAsPowerOn := by
  intro s is
  constructor
  · intro t' ht'
    obtain ⟨t, ht, hsame⟩ := execAll_start_of_powerOn s ht'
    exact ⟨t, ht, hsame.fifo, hsame.first, hsame.prevTs, hsame.integAngle, hsame.datapath_eq⟩
  · intro his
    obtain ⟨t', ht'⟩ := execAll_completes inv_reset fun i hi => ne_outputReads_of_ne State.reset.block (his i hi)
    obtain ⟨t, ht, _⟩ := execAll_start_of_powerOn s ht'
    rw [ht, ht']
    exact ⟨fun e => by simp, fun _ _ => ⟨t', rfl⟩⟩

end Sys2Proof.Machine
end
